-- ==== Sys2Proof/Word.lean ====
section
/-! DEFINITION. The widths of the CS6461 CORE block (spec/00_scope.md R10). -/

namespace Sys2Proof

/-- A 16-bit word: a register, a memory word, an instruction (R10, R14). -/
abbrev Word := BitVec 16

/-- Eight bits: a printer code point (R346), and half of a memory word as the model lists it (log 1). -/
abbrev Byte := BitVec 8

/-- An 11-bit word address, 0..2047 (R10, R70). -/
abbrev Addr := BitVec 11

/-- The program counter's 12 bits. Its legal values are 0..2048 (R35, D3). -/
abbrev PcVal := BitVec 12

/-- A 5-bit device number (R128, R340). -/
abbrev DevNum := BitVec 5

end Sys2Proof
end

