-- ==== Sys2Proof/Syntax.lean ====
section
/-! DEFINITION. The instructions as syntax: one constructor per row of spec/opcode_table.json, each with
the operands its rule names (spec/30_encoding.md R122 to R132). Bits the decoder ignores (R135) are
no part of the syntax. -/

namespace Sys2Proof

/-- A general register R0..R3 (R31). -/
inductive Reg where
  | r0 | r1 | r2 | r3
deriving DecidableEq, Repr

/-- An index register X1..X3; there is no X0 (R33). -/
inductive XReg where
  | x1 | x2 | x3
deriving DecidableEq, Repr

/-- The 2-bit IX field: 0 selects no register (R123, R33). -/
inductive IxSel where
  | off | x1 | x2 | x3
deriving DecidableEq, Repr

/-- The operand of the Memory format: index selector, indirect flag, 5-bit address (R123). -/
structure MemOperand where
  ix       : IxSel
  indirect : Bool
  address  : BitVec 5
deriving DecidableEq, Repr

/-- The LR bit: 1 left, 0 right (R127). -/
inductive ShiftDir where
  | left | right
deriving DecidableEq, Repr

/-- The AL bit: 1 arithmetic, 0 logical (R127). -/
inductive ShiftKind where
  | arithmetic | logical
deriving DecidableEq, Repr

/-- The thirty instructions of the opcode map (R133). -/
inductive Instr where
  /-- HLT, 00 (R370) -/
  | hlt
  /-- LDR, 01 (R200) -/
  | ldr (r : Reg) (m : MemOperand)
  /-- STR, 02 (R201) -/
  | str (r : Reg) (m : MemOperand)
  /-- LDA, 03 (R202) -/
  | lda (r : Reg) (m : MemOperand)
  /-- AMR, 04 (R220) -/
  | amr (r : Reg) (m : MemOperand)
  /-- SMR, 05 (R221) -/
  | smr (r : Reg) (m : MemOperand)
  /-- AIR, 06 (R222) -/
  | air (r : Reg) (imm : BitVec 5)
  /-- SIR, 07 (R223) -/
  | sir (r : Reg) (imm : BitVec 5)
  /-- JZ, 10 (R240) -/
  | jz (r : Reg) (m : MemOperand)
  /-- JNE, 11 (R241) -/
  | jne (r : Reg) (m : MemOperand)
  /-- JCC, 12 (R242): b is a CC bit number, not a register -/
  | jcc (b : BitVec 2) (m : MemOperand)
  /-- JMA, 13 (R243): the R field is ignored -/
  | jma (m : MemOperand)
  /-- JSR, 14 (R244): the R field is ignored -/
  | jsr (m : MemOperand)
  /-- RFS, 15 (R245, R131): only ADDR is used -/
  | rfs (imm : BitVec 5)
  /-- SOB, 16 (R246) -/
  | sob (r : Reg) (m : MemOperand)
  /-- JGE, 17 (R247) -/
  | jge (r : Reg) (m : MemOperand)
  /-- MLT, 20 (R270) -/
  | mlt (rx ry : Reg)
  /-- DVD, 21 (R271) -/
  | dvd (rx ry : Reg)
  /-- TRR, 22 (R272) -/
  | trr (rx ry : Reg)
  /-- AND, 23 (R273) -/
  | andr (rx ry : Reg)
  /-- ORR, 24 (R274) -/
  | orr (rx ry : Reg)
  /-- NOT, 25 (R275): the Ry field is ignored -/
  | notr (rx : Reg)
  /-- TRAP, 30 (R371) -/
  | trap (code : BitVec 4)
  /-- SRC, 31 (R300) -/
  | src (r : Reg) (count : BitVec 4) (dir : ShiftDir) (kind : ShiftKind)
  /-- RRC, 32 (R301): the AL bit is ignored -/
  | rrc (r : Reg) (count : BitVec 4) (dir : ShiftDir)
  /-- LDX, 41 (R320): x names the register loaded -/
  | ldx (x : IxSel) (indirect : Bool) (address : BitVec 5)
  /-- STX, 42 (R321): x names the register stored -/
  | stx (x : IxSel) (indirect : Bool) (address : BitVec 5)
  /-- IN, 61 (R342) -/
  | inp (r : Reg) (dev : DevNum)
  /-- OUT, 62 (R343) -/
  | out (r : Reg) (dev : DevNum)
  /-- CHK, 63 (R344) -/
  | chk (r : Reg) (dev : DevNum)
deriving DecidableEq, Repr

end Sys2Proof
end

