-- ==== Sys2Proof/WellFormed.lean ====
section
/-! DEFINITION. The field values a listed opcode may hold (spec/30_encoding.md R136): MLT and DVD need
Rx = 0 or 2, LDX and STX need IX = 1..3; "No other field value of a listed opcode is illegal." -/

namespace Sys2Proof

/-- Has the instruction only legal field values (R136)? An instruction that fails this raises Fault(4). -/
def Instr.wellFormed : Instr → Bool
  | .hlt => true
  | .ldr _ _ => true
  | .str _ _ => true
  | .lda _ _ => true
  | .amr _ _ => true
  | .smr _ _ => true
  | .air _ _ => true
  | .sir _ _ => true
  | .jz _ _ => true
  | .jne _ _ => true
  | .jcc _ _ => true
  | .jma _ => true
  | .jsr _ => true
  | .rfs _ => true
  | .sob _ _ => true
  | .jge _ _ => true
  | .mlt rx _ => rx == .r0 || rx == .r2
  | .dvd rx _ => rx == .r0 || rx == .r2
  | .trr _ _ => true
  | .andr _ _ => true
  | .orr _ _ => true
  | .notr _ => true
  | .trap _ => true
  | .src _ _ _ _ => true
  | .rrc _ _ _ => true
  | .ldx x _ _ => x != .off
  | .stx x _ _ => x != .off
  | .inp _ _ => true
  | .out _ _ => true
  | .chk _ _ => true

end Sys2Proof
end

