-- ==== Sys2Proof/Decode.lean ====
section
/-! DEFINITION. The decoder and the encoder of the one-word instructions (spec/30_encoding.md R120 to R137).
The opcode alone selects the instruction (R121); every word with a listed opcode decodes (R135), a word
with an unlisted one is rejected by name (R134). The field values of R136 are left to
`Instr.wellFormed` and to the meanings, which raise the fault (log 8). -/

namespace Sys2Proof

/-- Why a word does not decode: its opcode is not in the opcode map (R134). -/
inductive Reject where
  | unlistedOpcode (op : BitVec 6)
deriving DecidableEq, Repr

/-- `IR[15:10]` (R121). -/
def opcodeOf (w : Word) : BitVec 6 := w.extractLsb' 10 6

/-- A 2-bit field as a general register (R132). -/
def Reg.ofBits (b : BitVec 2) : Reg :=
  match b with
  | 0 => .r0
  | 1 => .r1
  | 2 => .r2
  | 3 => .r3

def Reg.bits : Reg → BitVec 2
  | .r0 => 0
  | .r1 => 1
  | .r2 => 2
  | .r3 => 3

/-- A 2-bit field as an index selector (R132). -/
def IxSel.ofBits (b : BitVec 2) : IxSel :=
  match b with
  | 0 => .off
  | 1 => .x1
  | 2 => .x2
  | 3 => .x3

def IxSel.bits : IxSel → BitVec 2
  | .off => 0
  | .x1 => 1
  | .x2 => 2
  | .x3 => 3

/-- `IR[9:8]` as a register: r of the Memory, Immediate, Shift and I/O formats, rx of Reg-reg. -/
def regField (w : Word) : Reg := Reg.ofBits (w.extractLsb' 8 2)

/-- `IR[7:6]` as a register: ry of Reg-reg (R126). -/
def ryField (w : Word) : Reg := Reg.ofBits (w.extractLsb' 6 2)

/-- `IR[7:6]` as an index selector (R123, R124). -/
def ixField (w : Word) : IxSel := IxSel.ofBits (w.extractLsb' 6 2)

/-- `IR[5]`, the indirect flag (R123). -/
def indirectField (w : Word) : Bool := w.getLsbD 5

/-- `IR[4:0]`: address, immediate or device number (R123, R125, R128). -/
def low5Field (w : Word) : BitVec 5 := w.extractLsb' 0 5

/-- `IR[3:0]`: shift count or trap code (R127, R129). -/
def low4Field (w : Word) : BitVec 4 := w.extractLsb' 0 4

/-- The operand of the Memory format (R123). -/
def memField (w : Word) : MemOperand :=
  { ix := ixField w, indirect := indirectField w, address := low5Field w }

/-- `IR[6]`: 1 left, 0 right (R127). -/
def dirField (w : Word) : ShiftDir := if w.getLsbD 6 then .left else .right

/-- `IR[7]`: 1 arithmetic, 0 logical (R127). -/
def kindField (w : Word) : ShiftKind := if w.getLsbD 7 then .arithmetic else .logical

/-- The decoder: the opcode map (R133), opcodes in octal. -/
def decode (w : Word) : Except Reject Instr :=
  match (opcodeOf w).toNat with
  | 0o00 => .ok .hlt
  | 0o01 => .ok (.ldr (regField w) (memField w))
  | 0o02 => .ok (.str (regField w) (memField w))
  | 0o03 => .ok (.lda (regField w) (memField w))
  | 0o04 => .ok (.amr (regField w) (memField w))
  | 0o05 => .ok (.smr (regField w) (memField w))
  | 0o06 => .ok (.air (regField w) (low5Field w))
  | 0o07 => .ok (.sir (regField w) (low5Field w))
  | 0o10 => .ok (.jz (regField w) (memField w))
  | 0o11 => .ok (.jne (regField w) (memField w))
  | 0o12 => .ok (.jcc (w.extractLsb' 8 2) (memField w))
  | 0o13 => .ok (.jma (memField w))
  | 0o14 => .ok (.jsr (memField w))
  | 0o15 => .ok (.rfs (low5Field w))
  | 0o16 => .ok (.sob (regField w) (memField w))
  | 0o17 => .ok (.jge (regField w) (memField w))
  | 0o20 => .ok (.mlt (regField w) (ryField w))
  | 0o21 => .ok (.dvd (regField w) (ryField w))
  | 0o22 => .ok (.trr (regField w) (ryField w))
  | 0o23 => .ok (.andr (regField w) (ryField w))
  | 0o24 => .ok (.orr (regField w) (ryField w))
  | 0o25 => .ok (.notr (regField w))
  | 0o30 => .ok (.trap (low4Field w))
  | 0o31 => .ok (.src (regField w) (low4Field w) (dirField w) (kindField w))
  | 0o32 => .ok (.rrc (regField w) (low4Field w) (dirField w))
  | 0o41 => .ok (.ldx (ixField w) (indirectField w) (low5Field w))
  | 0o42 => .ok (.stx (ixField w) (indirectField w) (low5Field w))
  | 0o61 => .ok (.inp (regField w) (low5Field w))
  | 0o62 => .ok (.out (regField w) (low5Field w))
  | 0o63 => .ok (.chk (regField w) (low5Field w))
  | _    => .error (.unlistedOpcode (opcodeOf w))

/-! The encoder, one function per format class (R122); should-be-zero bits and ignored fields are
written as 0 (R140: "Fields not given by an operand are 0"). -/

/-- A field's bits from bit k up (R121: "opcode `oo` (octal) occupies the word as `oo << 10`"). -/
def fieldAt (k : Nat) {n : Nat} (v : BitVec n) : Word := v.setWidth 16 <<< k

/-- Memory format (R123): `OP R IX I ADDR`. -/
def packMem (op : BitVec 6) (r : BitVec 2) (m : MemOperand) : Word :=
  fieldAt 10 op ||| fieldAt 8 r ||| fieldAt 6 m.ix.bits ||| fieldAt 5 (BitVec.ofBool m.indirect) |||
    fieldAt 0 m.address

/-- Immediate and I/O formats (R125, R128): `OP R 000 IMM`, `OP R 000 DEV`. -/
def packImm (op : BitVec 6) (r : BitVec 2) (v : BitVec 5) : Word :=
  fieldAt 10 op ||| fieldAt 8 r ||| fieldAt 0 v

/-- Reg-reg / Reg format (R126): `OP Rx Ry 000000`. -/
def packRegReg (op : BitVec 6) (rx ry : BitVec 2) : Word :=
  fieldAt 10 op ||| fieldAt 8 rx ||| fieldAt 6 ry

/-- Shift/Rotate format (R127): `OP R AL LR 00 COUNT`. -/
def packShift (op : BitVec 6) (r : BitVec 2) (al lr : Bool) (count : BitVec 4) : Word :=
  fieldAt 10 op ||| fieldAt 8 r ||| fieldAt 7 (BitVec.ofBool al) ||| fieldAt 6 (BitVec.ofBool lr) |||
    fieldAt 0 count

/-- TRAP format (R129): `OP 000000 CODE`. -/
def packTrap (op : BitVec 6) (code : BitVec 4) : Word :=
  fieldAt 10 op ||| fieldAt 0 code

def ShiftDir.isLeft : ShiftDir → Bool
  | .left => true
  | .right => false

def ShiftKind.isArithmetic : ShiftKind → Bool
  | .arithmetic => true
  | .logical => false

/-- The encoder: the word of an instruction (R122, R133). -/
def encode : Instr → Word
  | .hlt => 0
  | .ldr r m => packMem 0o01 r.bits m
  | .str r m => packMem 0o02 r.bits m
  | .lda r m => packMem 0o03 r.bits m
  | .amr r m => packMem 0o04 r.bits m
  | .smr r m => packMem 0o05 r.bits m
  | .air r imm => packImm 0o06 r.bits imm
  | .sir r imm => packImm 0o07 r.bits imm
  | .jz r m => packMem 0o10 r.bits m
  | .jne r m => packMem 0o11 r.bits m
  | .jcc b m => packMem 0o12 b m
  | .jma m => packMem 0o13 0 m
  | .jsr m => packMem 0o14 0 m
  | .rfs imm => packMem 0o15 0 { ix := .off, indirect := false, address := imm }
  | .sob r m => packMem 0o16 r.bits m
  | .jge r m => packMem 0o17 r.bits m
  | .mlt rx ry => packRegReg 0o20 rx.bits ry.bits
  | .dvd rx ry => packRegReg 0o21 rx.bits ry.bits
  | .trr rx ry => packRegReg 0o22 rx.bits ry.bits
  | .andr rx ry => packRegReg 0o23 rx.bits ry.bits
  | .orr rx ry => packRegReg 0o24 rx.bits ry.bits
  | .notr rx => packRegReg 0o25 rx.bits 0
  | .trap code => packTrap 0o30 code
  | .src r count dir kind => packShift 0o31 r.bits kind.isArithmetic dir.isLeft count
  | .rrc r count dir => packShift 0o32 r.bits false dir.isLeft count
  | .ldx x i a => packMem 0o41 0 { ix := x, indirect := i, address := a }
  | .stx x i a => packMem 0o42 0 { ix := x, indirect := i, address := a }
  | .inp r dev => packImm 0o61 r.bits dev
  | .out r dev => packImm 0o62 r.bits dev
  | .chk r dev => packImm 0o63 r.bits dev

/-- The instruction the decoder reads from a table word. Every instruction is one 16-bit word (R120), so
`nbits` is always 16 and the bits above it are none of the instruction's. -/
def decodeTableWord (_nbits w : Nat) : Option Instr :=
  match decode (BitVec.ofNat 16 w) with
  | .ok i => some i
  | .error _ => none

end Sys2Proof
end

