-- ==== Sys2Proof/Config.lean ====
section
/-! DEFINITION. What is fixed for the machine: the named parameters of spec/00_scope.md R11, each at
the value the spec takes, and the free values the spec leaves open (no body: nothing can be proved
about which value they have). -/

namespace Sys2Proof

/-- `CC_WRITE_POLICY` (R11, D7): does a flag-writing instruction clear its flag when the condition is false? -/
inductive CcWritePolicy where
  /-- the flag is written to 1 or 0 (the spec's value) -/
  | assign
  /-- the flag is written to 1 when the condition holds and is left alone otherwise -/
  | setOnly
deriving DecidableEq, Repr

/-- `JCC_BIT_ORDER` (R11, D35). -/
inductive JccBitOrder where
  /-- field value b selects CC[b] (the spec's value) -/
  | lsbFirst
  /-- field value b selects CC[3 - b] -/
  | msbFirst
deriving DecidableEq, Repr

/-- What the device port answers to `DevIn(dev)` (R340). -/
inductive DevResponse where
  | ready (v : Word)
  | notReady
deriving DecidableEq, Repr, Inhabited

namespace Config

/-- The spec's value of `CC_WRITE_POLICY` (R11, D7). Log 9. -/
def ccWritePolicy : CcWritePolicy := .assign

/-- The spec's value of `MLT_OVF_BOUND`, 2^30 - 1 (R11, D9). Log 9. -/
def mltOvfBound : Int := 1073741823

/-- The spec's value of `JCC_BIT_ORDER` (R11, D35). Log 9. -/
def jccBitOrder : JccBitOrder := .lsbFirst

/-- `IN_OTHER(dev)` (R348, D23): the environment's answer to the n-th `DevIn` from a device that has
no input of its own. A FREE VALUE. DESIGN CHOICE, safe: log 2. -/
opaque inOther (dev : DevNum) (n : Nat) : DevResponse

/-- `KBD_CONVERT` (R11, R345, D27): the word the host makes of keyboard text beyond the source's rule, such as numeric
text outside 16 bits. A FREE VALUE. DESIGN CHOICE, safe: log 10. -/
opaque kbdConvert (text : List Char) : Word

/-- What the assembler makes of an operand list with an operand that does not fit its field (R149,
spec/93_implementation_defined.md item 22): any word at all, or none where it rejects the line.
A FREE VALUE. DESIGN CHOICE, safe: log 14. -/
opaque fieldOverflow (mnemonic : String) (operands : List Int) : Option Word

end Config

end Sys2Proof
end

