-- ==== Sys2Proof/Machine/State.lean ====
section
/-! DEFINITION. The state of the block and of the platform around it (spec/10_state.md R30), as plain data,
and its reset value (R50, spec/70_reset_and_hazards.md R450). -/

namespace Sys2Proof.Machine

/-- Why a step stops with a fault of the MODEL. There is no such case: every machine fault of this
hardware has an entry the spec describes (R401) and is a next state, and every address an access can
name exists (R73). Safe. Log 5. -/
inductive Fault where
deriving DecidableEq, Repr

/-- Why there is no next state. -/
inductive Refusal where
  /-- Raised by an arm of `exec` whose instruction has no meaning yet (no arm of this model). Safe. -/
  | notModelled (mnemonic : String)
  /-- Raised by `step` alone, in runState HALTED: "A step in runState HALTED or FAULTED is refused and
  changes no state" (R160). Safe. Log 5. -/
  | haltedUntilReset
  /-- Raised by `step` alone, in runState FAULTED (R160, R402). Safe. Log 5. -/
  | faultedUntilReset
deriving DecidableEq, Repr

/-- The run state (R47). -/
inductive RunState where
  | ready | waiting | halted | faulted
deriving DecidableEq, Repr

/-- One cache line (R45). -/
structure Line where
  valid : Bool
  tag   : Addr
  data  : Word
deriving DecidableEq, Repr

/-- The index of a cache line, 0..15 (R45). -/
abbrev LineIdx := Fin 16

/-- The cache: sixteen lines, and the indices of the valid ones in fill order, head first (R45). -/
structure Cache where
  lines : Vector Line 16
  queue : List LineIdx
deriving DecidableEq, Repr

/-- Backing memory in one canonical form. The word at address a is held in two cells: key 2a holds its
bits 15..8 and key 2a+1 its bits 7..0 (log 1); a key that is not listed reads as 0 (R43, R72). -/
abbrev Memory := List Host.Cell

/-- The devices behind the device port (R340 to R348). -/
structure Devices where
  /-- submitted words not yet consumed, oldest first (R345) -/
  keyboard   : List Word
  /-- the file reader's queue, head first (R347) -/
  fileReader : List Word
  /-- the printer sink's code points, in order (R346) -/
  printer    : List Byte
  /-- THE MODEL'S OWN: every word DevOut has carried, with its device, oldest first (R340). Log 4. -/
  portOut    : List (DevNum × Word)
  /-- THE MODEL'S OWN: how many times IN_OTHER has been asked (R348). Log 3. -/
  otherReads : Nat
deriving DecidableEq, Repr

/-- The whole state (R30). -/
structure State where
  /-- R0..R3 (R31) -/
  gpr      : Vector Word 4
  /-- X1..X3 (R33) -/
  ixr      : Vector Word 3
  /-- PC, legal values 0..2048 (R35) -/
  pc       : PcVal
  /-- IR (R39) -/
  ir       : Word
  /-- CC: 0 OVERFLOW, 1 UNDERFLOW, 2 DIVZERO, 3 EQUAL (R40) -/
  cc       : BitVec 4
  /-- MFR: a fault code (R42) -/
  mfr      : BitVec 4
  /-- MAR (R44) -/
  mar      : Addr
  /-- MBR (R44) -/
  mbr      : Word
  /-- the cache (R45) -/
  cache    : Cache
  /-- the run state (R47) -/
  runState : RunState
  /-- Mem[0..2047] (R43) -/
  mem      : Memory
  /-- keyboard, file reader, printer (R345 to R347) -/
  dev      : Devices
deriving DecidableEq, Repr

/-- The cache after reset: "Reset invalidates every line, clears the queue" (R86, R50). -/
def Cache.reset : Cache :=
  { lines := Vector.replicate 16 { valid := false, tag := 0, data := 0 }, queue := [] }

/-- The devices after reset (R50). -/
def Devices.reset : Devices :=
  { keyboard := [], fileReader := [], printer := [], portOut := [], otherReads := 0 }

/-- The machine right after power-on reset (R50, R450): "all zero, all cache lines invalid". -/
def State.reset : State :=
  { gpr := Vector.replicate 4 0, ixr := Vector.replicate 3 0, pc := 0, ir := 0, cc := 0, mfr := 0,
    mar := 0, mbr := 0, cache := Cache.reset, runState := .ready, mem := [], dev := Devices.reset }

/-- What a meaning answers. -/
abbrev Result := Host.Outcome State Fault Refusal

end Sys2Proof.Machine
end

