-- ==== Sys2Proof/Machine/Cache.lean ====
section
/-! DEFINITION. The cache: sixteen lines, fully associative, FIFO over fill order (spec/20_memory.md R81 to R88). -/

namespace Sys2Proof.Machine

/-- The line indices, rising. -/
def lineIdxs : List LineIdx := [0, 1, 2, 3, 4, 5, 6, 7, 8, 9, 10, 11, 12, 13, 14, 15]

/-- `Line[k]`. -/
def Cache.line (c : Cache) (k : LineIdx) : Line := c.lines[k]

/-- `Hit(addr)` with its line: a valid line whose tag is addr (R82). By R46 there is at most one; in a
state that breaks R46 the lowest is taken (log 7). -/
def Cache.hit? (c : Cache) (a : Addr) : Option LineIdx :=
  lineIdxs.find? fun k => (c.line k).valid && (c.line k).tag == a

/-- The lowest index whose line is invalid (R85). -/
def Cache.free? (c : Cache) : Option LineIdx :=
  lineIdxs.find? fun k => !(c.line k).valid

/-- `Line[k] <- (valid 1, tag addr, data w)` and the index at the queue's tail (R85). -/
def Cache.fill (c : Cache) (k : LineIdx) (queue : List LineIdx) (a : Addr) (w : Word) : Cache :=
  { lines := c.lines.set k { valid := true, tag := a, data := w }, queue := queue ++ [k] }

/-- `Install(addr, w)` (R85): the lowest invalid line, else the head of the queue. A full cache with an
empty queue breaks R46; line 0 is then taken (log 7). -/
def Cache.install (c : Cache) (a : Addr) (w : Word) : Cache :=
  match c.free? with
  | some k => c.fill k c.queue a w
  | none => c.fill (c.queue.headD 0) c.queue.tail a w

/-- `Line[k].data <- w`, "update in place, no queue movement" (R84, R87). -/
def Cache.setData (c : Cache) (k : LineIdx) (w : Word) : Cache :=
  { c with lines := c.lines.set k { c.line k with data := w } }

/-- The cache after a read of addr whose memory word is w: a hit moves nothing, a miss installs (R83). -/
def Cache.afterRead (c : Cache) (a : Addr) (w : Word) : Cache :=
  match c.hit? a with
  | some _ => c
  | none => c.install a w

/-- The cache after a write of w to addr: write-through, write-allocate (R84). -/
def Cache.afterWrite (c : Cache) (a : Addr) (w : Word) : Cache :=
  match c.hit? a with
  | some k => c.setData k w
  | none => c.install a w

/-- The cache after a host `load` of w at addr: a matching line is updated in place, nothing is
installed (R97). -/
def Cache.afterLoad (c : Cache) (a : Addr) (w : Word) : Cache :=
  match c.hit? a with
  | some k => c.setData k w
  | none => c

end Sys2Proof.Machine
end

