-- ==== Sys2Proof/Machine/Bits.lean ====
section
/-! DEFINITION. Bit fields, extensions and the two readings of a word (spec/00_scope.md R12 to R16). -/

namespace Sys2Proof.Machine

/-- `signed(w)`, the two's complement value in -32768..32767 (R14). -/
def signed (w : Word) : Int := w.toInt

/-- `unsigned(w)`, in 0..65535 (R14). -/
def unsigned (w : Word) : Nat := w.toNat

/-- `trunc16(n)`, the word whose unsigned value is n mod 65536 (R14). -/
def trunc16 (n : Int) : Word := BitVec.ofInt 16 n

/-- `a[10:0]`: the address a 16-bit value names (R73). -/
def low11 (v : Word) : Addr := v.setWidth 11

/-- `zext_16` of a 5-bit field (R15, R132). -/
def zext5 (v : BitVec 5) : Word := v.setWidth 16

/-- `sext_16` of a 5-bit immediate, in -16..15 (R15, R125). -/
def sext5 (v : BitVec 5) : Word := v.signExtend 16

/-- `zext_16(PC)` of the 12-bit PC (R244, R371, R401). -/
def pcWord (pc : PcVal) : Word := pc.setWidth 16

/-- The address a legal PC below 2048 names (R162). -/
def pcAddr (pc : PcVal) : Addr := pc.setWidth 11

/-- The PC that holds an 11-bit address (R36). -/
def addrPc (a : Addr) : PcVal := a.setWidth 12

/-- Bits 15..8 of a word. -/
def highByte (v : Word) : Byte := v.extractLsb' 8 8

/-- Bits 7..0 of a word: the "low byte" (R74). -/
def lowByte (v : Word) : Byte := v.extractLsb' 0 8

end Sys2Proof.Machine
end

