-- ==== Sys2Proof/Machine/Flags.lean ====
section
/-! DEFINITION. The condition code: its four flags, who writes them and how, and JCC's selection
(spec/10_state.md R40, R41; spec/43_transfer.md R242). -/

namespace Sys2Proof.Machine

/-- The four flags of CC (R40). -/
inductive Flag where
  | overflow | underflow | divzero | equal
deriving DecidableEq, Repr

/-- A flag's bit position: "position 0 OVERFLOW, 1 UNDERFLOW, 2 DIVZERO, 3 EQUAL" (R40). -/
def Flag.pos : Flag → Nat
  | .overflow => 0
  | .underflow => 1
  | .divzero => 2
  | .equal => 3

/-- The flag's value in a CC. -/
def flagOf (cc : BitVec 4) (f : Flag) : Bool := cc.getLsbD f.pos

/-- CC with one flag set to b and the other three unchanged. -/
def assignFlag (cc : BitVec 4) (f : Flag) (b : Bool) : BitVec 4 :=
  if b then cc ||| (1#4 <<< f.pos) else cc &&& ~~~(1#4 <<< f.pos)

/-- What a flag-writing instruction does with its flag when its condition is b (R41, `CC_WRITE_POLICY`). -/
def writeFlag (cc : BitVec 4) (f : Flag) (b : Bool) : BitVec 4 :=
  match Config.ccWritePolicy with
  | .assign => assignFlag cc f b
  | .setOnly => if b then assignFlag cc f true else cc

/-- AMR and AIR: the true sum is outside -32768..32767 (R220, R222). -/
def addOverflows (s : Int) : Bool := decide (s < -32768 ∨ s > 32767)

/-- SMR and SIR: the true difference is below -32768 (R221, R223). -/
def subUnderflows (s : Int) : Bool := decide (s < -32768)

/-- MLT: the product is outside [-(MLT_OVF_BOUND + 1), MLT_OVF_BOUND] (R270). -/
def mltOverflows (p : Int) : Bool :=
  decide (p > Config.mltOvfBound ∨ p < -(Config.mltOvfBound + 1))

/-- The CC bit a JCC field selects (R242, `JCC_BIT_ORDER`). -/
def jccBit (cc : BitVec 4) (b : BitVec 2) : Bool :=
  match Config.jccBitOrder with
  | .lsbFirst => cc.getLsbD b.toNat
  | .msbFirst => cc.getLsbD (3 - b.toNat)

end Sys2Proof.Machine
end

