-- ==== Sys2Proof/Machine/Memory.lean ====
section
/-! DEFINITION. Backing memory: `BackingRead` and `BackingWrite` (spec/20_memory.md R70 to R72), over the
canonical list of cells. -/

namespace Sys2Proof.Machine

/-- The cell at key k; a key that is not listed reads as 0 (R72: "initial value 0 everywhere"). -/
def Memory.read (m : Memory) (k : Nat) : Byte :=
  match m with
  | [] => 0
  | (a, b) :: rest => if a = k then b else Memory.read rest k

/-- The cells without key k. -/
def Memory.erase (m : Memory) (k : Nat) : Memory :=
  match m with
  | [] => []
  | (a, b) :: rest => if a = k then Memory.erase rest k else (a, b) :: Memory.erase rest k

/-- The cells with (k, v) before the first larger key. -/
def Memory.insert (m : Memory) (k : Nat) (v : Byte) : Memory :=
  match m with
  | [] => [(k, v)]
  | (a, b) :: rest => if k < a then (k, v) :: (a, b) :: rest else (a, b) :: Memory.insert rest k v

/-- Write one cell. Writing 0, what an unlisted key reads as, removes the entry. -/
def Memory.write (m : Memory) (k : Nat) (v : Byte) : Memory :=
  if v = 0 then Memory.erase m k else Memory.insert (Memory.erase m k) k v

/-- `BackingRead(a)`: the word `Mem[a]` (R71). -/
def Memory.word (m : Memory) (a : Addr) : Word :=
  Memory.read m (2 * a.toNat) ++ Memory.read m (2 * a.toNat + 1)

/-- `BackingWrite(a, v)`: `Mem[a] <- v` (R71). -/
def Memory.setWord (m : Memory) (a : Addr) (v : Word) : Memory :=
  Memory.write (Memory.write m (2 * a.toNat) (highByte v)) (2 * a.toNat + 1) (lowByte v)

/-- The keys rise strictly from above `lo`, stay below 4096 (2048 words of two cells), and no cell holds 0. -/
def Memory.wfFrom (lo : Nat) (m : Memory) : Bool :=
  match m with
  | [] => true
  | (a, b) :: rest => decide (lo ≤ a) && decide (a < 4096) && decide (b ≠ 0) && Memory.wfFrom (a + 1) rest

/-- The canonical form: equal memories are equal lists. -/
def Memory.wf (m : Memory) : Bool := Memory.wfFrom 0 m

end Sys2Proof.Machine
end

