-- ==== Sys2Proof/Machine/Ops.lean ====
section
/-! DEFINITION. The named operations over registers and memory that every meaning is written with: register
access, the CPU-side memory accesses (spec/20_memory.md R83, R84), the PC writes (spec/10_state.md R36), the
outcomes of a step (spec/40_cycle_and_ea.md R160, R165) and fault entry (spec/60_exceptions.md R401). -/

namespace Sys2Proof.Machine

/-! Registers (R17, R31, R33). -/

def regIdx : Reg → Fin 4
  | .r0 => 0
  | .r1 => 1
  | .r2 => 2
  | .r3 => 3

def xregIdx : XReg → Fin 3
  | .x1 => 0
  | .x2 => 1
  | .x3 => 2

/-- `R[r]` -/
def State.reg (s : State) (r : Reg) : Word := s.gpr[regIdx r]

/-- `R[r] <- v` -/
def State.setReg (s : State) (r : Reg) (v : Word) : State :=
  { s with gpr := s.gpr.set (regIdx r) v }

/-- `X[x]` -/
def State.xreg (s : State) (x : XReg) : Word := s.ixr[xregIdx x]

/-- `X[x] <- v` -/
def State.setXreg (s : State) (x : XReg) (v : Word) : State :=
  { s with ixr := s.ixr.set (xregIdx x) v }

/-- `CC.f` -/
def State.flag (s : State) (f : Flag) : Bool := flagOf s.cc f

/-- `CC.f <- b`, under `CC_WRITE_POLICY` (R41). -/
def State.setFlag (s : State) (f : Flag) (b : Bool) : State :=
  { s with cc := writeFlag s.cc f b }

/-- `PC <- v[10:0]` (R36). -/
def State.loadPc (s : State) (v : Word) : State :=
  { s with pc := addrPc (low11 v) }

/-! CPU-side memory accesses, through the cache (R81). -/

/-- The word `MemRead(addr, 1)` returns: the line's data on a hit, else the memory word (R83). -/
def State.readValue (s : State) (a : Addr) : Word :=
  match s.cache.hit? a with
  | some k => (s.cache.line k).data
  | none => s.mem.word a

/-- The state `MemRead(addr, 1)` leaves: MAR, MBR and the cache (R83, R44). -/
def State.afterRead (s : State) (a : Addr) : State :=
  { s with mar := a, mbr := s.readValue a, cache := s.cache.afterRead a (s.mem.word a) }

/-- `MemRead(addr, 1)` (R83): the word, and the state after. -/
def memRead (a : Addr) (s : State) : Word × State := (s.readValue a, s.afterRead a)

/-- `MemWrite(addr, 1, v)` (R84): MAR, memory, the cache; MBR stays. -/
def memWrite (a : Addr) (v : Word) (s : State) : State :=
  { s with mar := a, mem := s.mem.setWord a v, cache := s.cache.afterWrite a v }

/-! Outcomes (R160). A meaning's outcome is the run state of the next state it answers: READY is
CONTINUE, HALTED is HALT, FAULTED is FAULT, WAITING is WAIT (log 5). -/

/-- `runState <- READY` (R165). -/
def State.ready (s : State) : State := { s with runState := .ready }

/-- The outcome CONTINUE: "When the outcome is CONTINUE, runState <- READY" (R165). Log 12. -/
def completed (s : State) : Result := .next s.ready

/-- The outcome HALT (R370). -/
def halt (s : State) : Result := .next { s with runState := .halted }

/-- `suspend`, the outcome WAIT (R349): PC back to the IN, runState WAITING. -/
def suspend (s : State) : Result := .next { s with pc := s.pc - 1, runState := .waiting }

/-! Machine faults (R400, R401). -/

/-- The fault codes (R400). Under the spec's rules only 1 and 4 are raised. -/
inductive FaultCode where
  | illegalMemoryAddress | illegalTrapCode | trapExecuted | illegalOperationCode
deriving DecidableEq, Repr

/-- "Fault codes: 1 Illegal Memory Address, 2 Illegal TRAP code, 3 TRAP executed, 4 Illegal Operation Code" (R400). -/
def FaultCode.code : FaultCode → BitVec 4
  | .illegalMemoryAddress => 1
  | .illegalTrapCode => 2
  | .trapExecuted => 3
  | .illegalOperationCode => 4

/-- "address 0 is the trap vector" (R79). -/
def trapVectorAddr : Addr := 0

/-- "address 1 is the fault handler entry" (R79): the value fault entry writes to PC. -/
def faultVector : PcVal := 1

/-- "address 2 stores the PC at the moment of trap/fault" (R79). -/
def savedPcAddr : Addr := 2

/-- `MemWrite(2, 1, zext_16(PC))`, the first action of TRAP and the second of fault entry (R371, R401). -/
def savePc (s : State) : State := memWrite savedPcAddr (pcWord s.pc) s

/-- The state fault entry leaves, `raise Fault(code)` (R401): MFR <- code, the PC saved at address 2
through the cache, PC <- 1, runState <- FAULTED. -/
def faultEntry (c : FaultCode) (s : State) : State :=
  { savePc { s with mfr := c.code } with pc := faultVector, runState := .faulted }

/-- `raise Fault(code)`: taking the fault is a next state (R401). -/
def raiseFault (c : FaultCode) (s : State) : Result := .next (faultEntry c s)

/-- TRAP's entry (R371): the PC saved at address 2, then PC from the word at address 0. It saves no
register, no CC and no mode (R407). -/
def trapEntry (s : State) : State :=
  let (v, s) := memRead trapVectorAddr (savePc s)
  s.loadPc v

end Sys2Proof.Machine
end

