-- ==== Sys2Proof/Machine/Operands.lean ====
section
/-! DEFINITION. The operand forms: the effective-address unit (spec/40_cycle_and_ea.md R167 to R172), the
immediates, the register pair of MLT and DVD, the index register of LDX and STX, the shift and rotate results. -/

namespace Sys2Proof.Machine

/-- The index register an IX field selects; 0 selects none (R33). -/
def IxSel.xreg? : IxSel → Option XReg
  | .off => none
  | .x1  => some .x1
  | .x2  => some .x2
  | .x3  => some .x3

/-- Rx+1 of the pair Rx:Rx+1, where Rx may head a pair: 0 or 2 (R270, R136). -/
def pairLow? : Reg → Option Reg
  | .r0 => some .r1
  | .r2 => some .r3
  | .r1 | .r3 => none

/-- Steps 1 and 2 of the EA unit: the zero-extended address, plus the selected index register with
16-bit wrap (R167). -/
def eaBase (m : MemOperand) (s : State) : Word :=
  match IxSel.xreg? m.ix with
  | none => zext5 m.address
  | some x => zext5 m.address + s.xreg x

/-- `EA(address, ix, i)` (R167): one indirection through the cache when i = 1, whatever the word's own
bits hold (R168). Answers the 16-bit EA and the state after the indirection read. -/
def effAddr (m : MemOperand) (s : State) : Word × State :=
  if m.indirect then memRead (low11 (eaBase m s)) s else (eaBase m s, s)

/-- The operand of LDX and STX: `EA(address, 0, i)`, never indexed (R169). -/
def plainOperand (indirect : Bool) (address : BitVec 5) : MemOperand :=
  { ix := .off, indirect := indirect, address := address }

/-- `signed(sext_16(IMM))`, in -16..15 (R222, R223). -/
def immSigned (imm : BitVec 5) : Int := signed (sext5 imm)

/-- SRC's result (R300): left zeros enter at bit 0, logical right zeros enter at bit 15, arithmetic
right copies of bit 15 enter; arithmetic left is logical left (D31). -/
def shifted (v : Word) (count : BitVec 4) (dir : ShiftDir) (kind : ShiftKind) : Word :=
  match dir, kind with
  | .left, _ => v <<< count.toNat
  | .right, .logical => v >>> count.toNat
  | .right, .arithmetic => v.sshiftRight count.toNat

/-- RRC's result (R301). -/
def rotated (v : Word) (count : BitVec 4) (dir : ShiftDir) : Word :=
  let c := count.toNat
  if c = 0 then v
  else
    match dir with
    | .left => (v <<< c) ||| (v >>> (16 - c))
    | .right => (v >>> c) ||| (v <<< (16 - c))

/-- MLT's 32-bit product in two's complement (R270: "u <- p mod 2^32"). -/
def product32 (p : Int) : BitVec 32 := BitVec.ofInt 32 p

/-- DVD's quotient, truncated toward zero (R271, D11). -/
def quotient (a b : Int) : Int := Int.tdiv a b

/-- DVD's remainder, `a - q * b` (R271). -/
def remainder (a b : Int) : Int := a - quotient a b * b

end Sys2Proof.Machine
end

