-- ==== Sys2Proof/Machine/Arith.lean ====
section
/-! DEFINITION. AMR, SMR, AIR, SIR (spec/42_arith_mem_imm.md R220 to R224): signed operands, an exact sum or
difference, the flag tested on it, the register truncated to 16 bits. -/

namespace Sys2Proof.Machine

/-- The addition law (R224): `R[r] <- trunc16(s)`, OVERFLOW from the exact sum s. -/
def addTo (r : Reg) (b : Int) (s : State) : State :=
  let sum := signed (s.reg r) + b
  (s.setReg r (trunc16 sum)).setFlag .overflow (addOverflows sum)

/-- The subtraction law (R224): `R[r] <- trunc16(s)`, UNDERFLOW from the exact difference s. -/
def subFrom (r : Reg) (b : Int) (s : State) : State :=
  let difference := signed (s.reg r) - b
  (s.setReg r (trunc16 difference)).setFlag .underflow (subUnderflows difference)

/-- AMR (R220). -/
def execAmr (r : Reg) (m : MemOperand) (s : State) : Result :=
  let (ea, s) := effAddr m s
  let (w, s) := memRead (low11 ea) s
  completed (addTo r (signed w) s)

/-- SMR (R221). -/
def execSmr (r : Reg) (m : MemOperand) (s : State) : Result :=
  let (ea, s) := effAddr m s
  let (w, s) := memRead (low11 ea) s
  completed (subFrom r (signed w) s)

/-- AIR (R222). -/
def execAir (r : Reg) (imm : BitVec 5) (s : State) : Result :=
  completed (addTo r (immSigned imm) s)

/-- SIR (R223). -/
def execSir (r : Reg) (imm : BitVec 5) (s : State) : Result :=
  completed (subFrom r (immSigned imm) s)

end Sys2Proof.Machine
end

