-- ==== Sys2Proof/Machine/Devices.lean ====
section
/-! DEFINITION. The device port and the devices behind it (spec/47_io.md R340 to R348). -/

namespace Sys2Proof.Machine

/-- Device 0 (R341). -/
def keyboardDev : DevNum := 0

/-- Device 1 (R341). -/
def printerDev : DevNum := 1

/-- Device 2 (R341). -/
def fileReaderDev : DevNum := 2

/-- The keyboard's `DevIn(0)` (R345): the oldest submitted word, NotReady when there is none. -/
def Devices.readKeyboard (d : Devices) : DevResponse × Devices :=
  match d.keyboard with
  | [] => (.notReady, d)
  | v :: rest => (.ready v, { d with keyboard := rest })

/-- The file reader's `DevIn(2)` (R347): the head of the queue, 0 when it is empty; never NotReady. -/
def Devices.readFile (d : Devices) : DevResponse × Devices :=
  match d.fileReader with
  | [] => (.ready 0, d)
  | v :: rest => (.ready v, { d with fileReader := rest })

/-- `DevIn` of device 1 and of devices 3..31 (R348): the environment's answer, a free value (log 2); the
counter makes the next answer another free value (log 3). -/
def Devices.readOther (d : Devices) (dev : DevNum) : DevResponse × Devices :=
  (Config.inOther dev d.otherReads, { d with otherReads := d.otherReads + 1 })

/-- `DevIn(dev)` (R340). -/
def Devices.devIn (d : Devices) (dev : DevNum) : DevResponse × Devices :=
  if dev = keyboardDev then d.readKeyboard
  else if dev = fileReaderDev then d.readFile
  else d.readOther dev

/-- `DevOut(dev, v)` (R340, R343): the whole word goes to the port; the printer appends the character
with code point v[7:0] to its sink (R346). Rendering by other devices is outside the block (log 4). -/
def Devices.devOut (d : Devices) (dev : DevNum) (v : Word) : Devices :=
  { d with
    portOut := d.portOut ++ [(dev, v)]
    printer := if dev = printerDev then d.printer ++ [lowByte v] else d.printer }

end Sys2Proof.Machine
end

