-- ==== Sys2Proof/Machine/InOut.lean ====
section
/-! DEFINITION. IN, OUT, CHK (spec/47_io.md R342 to R344, R349). -/

namespace Sys2Proof.Machine

/-- IN (R342): the word the device answers; NotReady suspends (R349). -/
def execInp (r : Reg) (dev : DevNum) (s : State) : Result :=
  let (resp, d) := s.dev.devIn dev
  match resp with
  | .notReady => suspend { s with dev := d }
  | .ready v => completed ({ s with dev := d }.setReg r v)

/-- OUT (R343): the whole 16-bit word goes to the port. -/
def execOut (r : Reg) (dev : DevNum) (s : State) : Result :=
  completed { s with dev := s.dev.devOut dev (s.reg r) }

/-- CHK (R344): 1 for every device number; the port is not used. -/
def execChk (r : Reg) (_dev : DevNum) (s : State) : Result :=
  completed (s.setReg r 1)

end Sys2Proof.Machine
end

