-- ==== Sys2Proof/Machine/Index.lean ====
section
/-! DEFINITION. LDX and STX (spec/46_index.md R320, R321): IX names the register moved and never indexes (R169).
IX = 0 raises Fault(4) before any memory access (R136, R163). -/

namespace Sys2Proof.Machine

/-- LDX (R320). -/
def execLdx (x : IxSel) (indirect : Bool) (address : BitVec 5) (s : State) : Result :=
  match IxSel.xreg? x with
  | none => raiseFault .illegalOperationCode s
  | some k =>
    let (ea, s) := effAddr (plainOperand indirect address) s
    let (w, s) := memRead (low11 ea) s
    completed (s.setXreg k w)

/-- STX (R321). -/
def execStx (x : IxSel) (indirect : Bool) (address : BitVec 5) (s : State) : Result :=
  match IxSel.xreg? x with
  | none => raiseFault .illegalOperationCode s
  | some k =>
    let (ea, s) := effAddr (plainOperand indirect address) s
    completed (memWrite (low11 ea) (s.xreg k) s)

end Sys2Proof.Machine
end

