-- ==== Sys2Proof/Machine/LoadStore.lean ====
section
/-! DEFINITION. LDR, STR, LDA (spec/41_load_store.md R200 to R202). PC already holds the instruction's
address plus 1 (R37). -/

namespace Sys2Proof.Machine

/-- LDR (R200): `R[r] <- Mem[EA]`. -/
def execLdr (r : Reg) (m : MemOperand) (s : State) : Result :=
  let (ea, s) := effAddr m s
  let (w, s) := memRead (low11 ea) s
  completed (s.setReg r w)

/-- STR (R201): `Mem[EA] <- R[r]`. -/
def execStr (r : Reg) (m : MemOperand) (s : State) : Result :=
  let (ea, s) := effAddr m s
  completed (memWrite (low11 ea) (s.reg r) s)

/-- LDA (R202): `R[r] <- EA`, all 16 bits; no operand read, but the indirection read when i = 1 (C6). -/
def execLda (r : Reg) (m : MemOperand) (s : State) : Result :=
  let (ea, s) := effAddr m s
  completed (s.setReg r ea)

end Sys2Proof.Machine
end

