-- ==== Sys2Proof/Machine/RegReg.lean ====
section
/-! DEFINITION. MLT, DVD, TRR, AND, ORR, NOT (spec/44_regreg.md R270 to R276). Both operands are read before
any register is written (R174). -/

namespace Sys2Proof.Machine

/-- MLT (R270): the exact product's high word to Rx, its low word to Rx+1, OVERFLOW. Rx = 1 or 3 raises
Fault(4) before any operand is read (R136, R163). -/
def execMlt (rx ry : Reg) (s : State) : Result :=
  match pairLow? rx with
  | none => raiseFault .illegalOperationCode s
  | some rx1 =>
    let p := signed (s.reg rx) * signed (s.reg ry)
    let u := product32 p
    completed (((s.setReg rx (u.extractLsb' 16 16)).setReg rx1 (u.extractLsb' 0 16)).setFlag .overflow
      (mltOverflows p))

/-- DVD (R271): quotient to Rx, remainder to Rx+1, DIVZERO 0; a zero divisor sets DIVZERO and writes no
register. Rx = 1 or 3 raises Fault(4) (R136, R163). -/
def execDvd (rx ry : Reg) (s : State) : Result :=
  match pairLow? rx with
  | none => raiseFault .illegalOperationCode s
  | some rx1 =>
    let a := signed (s.reg rx)
    let b := signed (s.reg ry)
    if b = 0 then completed (s.setFlag .divzero true)
    else
      completed (((s.setReg rx (trunc16 (quotient a b))).setReg rx1 (trunc16 (remainder a b))).setFlag
        .divzero false)

/-- TRR (R272): "EQUAL := (Rx == Ry)", set or cleared whatever `CC_WRITE_POLICY` is. -/
def execTrr (rx ry : Reg) (s : State) : Result :=
  completed { s with cc := assignFlag s.cc .equal (s.reg rx == s.reg ry) }

/-- AND (R273). -/
def execAndr (rx ry : Reg) (s : State) : Result :=
  completed (s.setReg rx (s.reg rx &&& s.reg ry))

/-- ORR (R274). -/
def execOrr (rx ry : Reg) (s : State) : Result :=
  completed (s.setReg rx (s.reg rx ||| s.reg ry))

/-- NOT (R275). -/
def execNotr (rx : Reg) (s : State) : Result :=
  completed (s.setReg rx (~~~(s.reg rx)))

end Sys2Proof.Machine
end

