-- ==== Sys2Proof/Machine/Shift.lean ====
section
/-! DEFINITION. SRC and RRC (spec/45_shift_rotate.md R300, R301). They write no flag (D31). -/

namespace Sys2Proof.Machine

/-- SRC (R300). -/
def execSrc (r : Reg) (count : BitVec 4) (dir : ShiftDir) (kind : ShiftKind) (s : State) : Result :=
  completed (s.setReg r (shifted (s.reg r) count dir kind))

/-- RRC (R301). -/
def execRrc (r : Reg) (count : BitVec 4) (dir : ShiftDir) (s : State) : Result :=
  completed (s.setReg r (rotated (s.reg r) count dir))

end Sys2Proof.Machine
end

