-- ==== Sys2Proof/Machine/System.lean ====
section
/-! DEFINITION. HLT and TRAP (spec/48_system.md R370, R371). There is no return-from-trap instruction: a handler
returns with `JMA 0,0,2,1` (spec/60_exceptions.md R407). -/

namespace Sys2Proof.Machine

/-- HLT (R370): runState HALTED, nothing else; MFR stays. -/
def execHlt (s : State) : Result := halt s

/-- TRAP (R371): every code goes to the one vector; the code stays in IR alone (D17), MFR is not written. -/
def execTrap (_code : BitVec 4) (s : State) : Result := completed (trapEntry s)

end Sys2Proof.Machine
end

