-- ==== Sys2Proof/Machine/Transfer.lean ====
section
/-! DEFINITION. JZ, JNE, JCC, JMA, JSR, RFS, SOB, JGE (spec/43_transfer.md R240 to R248). The EA, with its
indirection read, comes before the condition (R172); a branch not taken leaves PC = address + 1. -/

namespace Sys2Proof.Machine

/-- `if taken: PC <- ea[10:0]` (R248). -/
def branchIf (taken : Bool) (ea : Word) (s : State) : State :=
  if taken then s.loadPc ea else s

/-- JZ (R240). -/
def execJz (r : Reg) (m : MemOperand) (s : State) : Result :=
  let (ea, s) := effAddr m s
  completed (branchIf (s.reg r == 0) ea s)

/-- JNE (R241). -/
def execJne (r : Reg) (m : MemOperand) (s : State) : Result :=
  let (ea, s) := effAddr m s
  completed (branchIf (s.reg r != 0) ea s)

/-- JCC (R242). -/
def execJcc (b : BitVec 2) (m : MemOperand) (s : State) : Result :=
  let (ea, s) := effAddr m s
  completed (branchIf (jccBit s.cc b) ea s)

/-- JMA (R243). -/
def execJma (m : MemOperand) (s : State) : Result :=
  let (ea, s) := effAddr m s
  completed (s.loadPc ea)

/-- JSR (R244): `R[3] <- zext_16(PC)`, the address of the JSR plus 1. -/
def execJsr (m : MemOperand) (s : State) : Result :=
  let (ea, s) := effAddr m s
  completed ((s.setReg .r3 (pcWord s.pc)).loadPc ea)

/-- RFS (R245): `R[0] <- immediate`, `PC <- R[3]`; no EA, no memory access. -/
def execRfs (imm : BitVec 5) (s : State) : Result :=
  let target := s.reg .r3
  completed ((s.setReg .r0 (zext5 imm)).loadPc target)

/-- SOB (R246): the decrement wraps and writes no flag; the new value is tested as signed. -/
def execSob (r : Reg) (m : MemOperand) (s : State) : Result :=
  let (ea, s) := effAddr m s
  let s := s.setReg r (s.reg r - 1)
  completed (branchIf (decide (signed (s.reg r) > 0)) ea s)

/-- JGE (R247). -/
def execJge (r : Reg) (m : MemOperand) (s : State) : Result :=
  let (ea, s) := effAddr m s
  completed (branchIf (decide (signed (s.reg r) ≥ 0)) ea s)

end Sys2Proof.Machine
end

