-- ==== Sys2Proof/Machine/Dispatch.lean ====
section
/-! DEFINITION. One arm per instruction: its meaning (spec/40_cycle_and_ea.md R165). -/

namespace Sys2Proof.Machine

def exec (i : Instr) (s : State) : Host.Outcome State Fault Refusal :=
  match i with
  | .hlt => Sys2Proof.Machine.execHlt s
  | .ldr r m => Sys2Proof.Machine.execLdr r m s
  | .str r m => Sys2Proof.Machine.execStr r m s
  | .lda r m => Sys2Proof.Machine.execLda r m s
  | .amr r m => Sys2Proof.Machine.execAmr r m s
  | .smr r m => Sys2Proof.Machine.execSmr r m s
  | .air r imm => Sys2Proof.Machine.execAir r imm s
  | .sir r imm => Sys2Proof.Machine.execSir r imm s
  | .jz r m => Sys2Proof.Machine.execJz r m s
  | .jne r m => Sys2Proof.Machine.execJne r m s
  | .jcc b m => Sys2Proof.Machine.execJcc b m s
  | .jma m => Sys2Proof.Machine.execJma m s
  | .jsr m => Sys2Proof.Machine.execJsr m s
  | .rfs imm => Sys2Proof.Machine.execRfs imm s
  | .sob r m => Sys2Proof.Machine.execSob r m s
  | .jge r m => Sys2Proof.Machine.execJge r m s
  | .mlt rx ry => Sys2Proof.Machine.execMlt rx ry s
  | .dvd rx ry => Sys2Proof.Machine.execDvd rx ry s
  | .trr rx ry => Sys2Proof.Machine.execTrr rx ry s
  | .andr rx ry => Sys2Proof.Machine.execAndr rx ry s
  | .orr rx ry => Sys2Proof.Machine.execOrr rx ry s
  | .notr rx => Sys2Proof.Machine.execNotr rx s
  | .trap code => Sys2Proof.Machine.execTrap code s
  | .src r count dir kind => Sys2Proof.Machine.execSrc r count dir kind s
  | .rrc r count dir => Sys2Proof.Machine.execRrc r count dir s
  | .ldx x indirect address => Sys2Proof.Machine.execLdx x indirect address s
  | .stx x indirect address => Sys2Proof.Machine.execStx x indirect address s
  | .inp r dev => Sys2Proof.Machine.execInp r dev s
  | .out r dev => Sys2Proof.Machine.execOut r dev s
  | .chk r dev => Sys2Proof.Machine.execChk r dev s

end Sys2Proof.Machine
end

