-- ==== Sys2Proof/Machine/Cycle.lean ====
section
/-! DEFINITION. One instruction cycle: the fetch check, the fetch, the decode and the execute (spec/40_cycle_and_ea.md
R161 to R166), and the host's deposit of a word (spec/20_memory.md R97) that `withFetchWord` is made of. -/

namespace Sys2Proof.Machine

/-- "If PC ∉ [0, 2048) → fault 1" (R161). The only such value a run reaches is 2048 (R35); log 6. -/
def pcOutOfRange (pc : PcVal) : Bool := decide (2048 ≤ pc.toNat)

/-- Fetch (R162): `IR <- MemRead(PC, 1)` and then `PC <- PC + 1`. -/
def fetch (s : State) : State :=
  let (w, s) := memRead (pcAddr s.pc) s
  { s with ir := w, pc := s.pc + 1 }

/-- Decode and execute the word in IR (R163 to R165). An unlisted opcode raises Fault(4) (R134); the
illegal field values of R136 raise it as the first thing their instruction's meaning does (log 8). -/
def executeFetched (s : State) : Result :=
  match decode s.ir with
  | .error _ => raiseFault .illegalOperationCode s
  | .ok i => exec i s

/-- The step of a block in READY or WAITING (R166). -/
def cycle (s : State) : Result :=
  if pcOutOfRange s.pc then raiseFault .illegalMemoryAddress s
  else executeFetched (fetch s)

/-- `Mem[addr] <- word`, with a matching valid cache line updated in place; nothing installed, MAR and
MBR unchanged (R97). -/
def deposit (a : Addr) (w : Word) (s : State) : State :=
  { s with mem := s.mem.setWord a w, cache := s.cache.afterLoad a w }

/-- A state that fetches at its next step: a stopped block is READY, a PC out of range is the reset
vector's 0 (log 11). A state that already fetches is unchanged. -/
def fetchable (s : State) : State :=
  { s with
    runState := match s.runState with
      | .ready => .ready
      | .waiting => .waiting
      | .halted => .ready
      | .faulted => .ready
    pc := if pcOutOfRange s.pc then 0 else s.pc }

/-- The state with word w deposited where the next step fetches (log 11). -/
def placeAtPc (s : State) (w : Word) : State :=
  let s := fetchable s
  deposit (pcAddr s.pc) w s

end Sys2Proof.Machine
end

