-- ==== Sys2Proof/Machine/Step.lean ====
section
/-! DEFINITION. The step (spec/40_cycle_and_ea.md R160, R166). -/

namespace Sys2Proof.Machine

/-- One step (R166): "A step in runState HALTED or FAULTED is refused and changes no state ... A step in
READY or WAITING executes" (R160). -/
def step (s : State) : Host.Outcome State Fault Refusal :=
  match s.runState with
  | .halted => .refused .haltedUntilReset
  | .faulted => .refused .faultedUntilReset
  | .ready => cycle s
  | .waiting => cycle s

/-- The state whose next step fetches and runs the instruction word w; every instruction is one 16-bit
word, so nbits is always 16 (R120). Log 11. -/
def State.withFetchWord (s : State) (_nbits w : Nat) : State :=
  placeAtPc s (BitVec.ofNat 16 w)

end Sys2Proof.Machine
end

