-- ==== Sys2Proof/Machine/Notation.lean ====
section
/-! DEFINITION. The notation of spec/30_encoding.md: an operand list's word per class (R140 to R143) and the
load file (R145). Source lines, labels and the two passes are in Assembly.lean. -/

namespace Sys2Proof.Machine

/-- The operand form of a mnemonic (R140), with its opcode. -/
inductive AsmClass where
  | memory (op : BitVec 6)
  | xMemory (op : BitVec 6)
  | immediate (op : BitVec 6)
  | regReg (op : BitVec 6)
  | reg (op : BitVec 6)
  | shift (op : BitVec 6)
  | device (op : BitVec 6)
  | trapCode (op : BitVec 6)
  | halt
  | returnImm (op : BitVec 6)
  | data
deriving DecidableEq, Repr

/-- The class of a mnemonic (R133, R140) and of the directive DATA (R142); none for an unknown one. -/
def asmClass (mnemonic : String) : Option AsmClass :=
  match mnemonic with
  | "HLT" => some .halt
  | "LDR" => some (.memory 0o01)
  | "STR" => some (.memory 0o02)
  | "LDA" => some (.memory 0o03)
  | "AMR" => some (.memory 0o04)
  | "SMR" => some (.memory 0o05)
  | "AIR" => some (.immediate 0o06)
  | "SIR" => some (.immediate 0o07)
  | "JZ" => some (.memory 0o10)
  | "JNE" => some (.memory 0o11)
  | "JCC" => some (.memory 0o12)
  | "JMA" => some (.memory 0o13)
  | "JSR" => some (.memory 0o14)
  | "RFS" => some (.returnImm 0o15)
  | "SOB" => some (.memory 0o16)
  | "JGE" => some (.memory 0o17)
  | "MLT" => some (.regReg 0o20)
  | "DVD" => some (.regReg 0o21)
  | "TRR" => some (.regReg 0o22)
  | "AND" => some (.regReg 0o23)
  | "ORR" => some (.regReg 0o24)
  | "NOT" => some (.reg 0o25)
  | "TRAP" => some (.trapCode 0o30)
  | "SRC" => some (.shift 0o31)
  | "RRC" => some (.shift 0o32)
  | "LDX" => some (.xMemory 0o41)
  | "STX" => some (.xMemory 0o42)
  | "IN" => some (.device 0o61)
  | "OUT" => some (.device 0o62)
  | "CHK" => some (.device 0o63)
  | "DATA" => some .data
  | _ => none

/-- Why an assembly ends without output (R147). -/
inductive AsmError where
  | unknownMnemonic
  /-- a missing operand, or operands beyond every form of R140 (DESIGN CHOICE, log 14) -/
  | operandForm
  | unresolvableSymbol
  | duplicateLabel
  /-- a LOC whose operands are not one decimal literal of 0 or more (DESIGN CHOICE, log 14) -/
  | badInteger
  | locWithoutValue
  /-- an operand that does not fit its field, where the assembler rejects it: the spec does not say whether it does
  (R149, log 14) -/
  | fieldOverflow
deriving DecidableEq, Repr

/-- An operand's place in the word, and the values that fit it. -/
structure AsmField where
  low   : Nat
  width : Nat
  least : Int
  most  : Int
  value : Int
deriving DecidableEq, Repr

/-- A field of `width` bits from bit `low` up that holds an unsigned operand. -/
def unsignedField (low width : Nat) (value : Int) : AsmField :=
  { low := low, width := width, least := 0, most := 2 ^ width - 1, value := value }

/-- IMMED of AIR and SIR, -16..15 (R125, R149). -/
def immedField (value : Int) : AsmField := { low := 0, width := 5, least := -16, most := 15, value := value }

/-- IMMED of RFS: 0..31 (R245), and -16..-1 as R149 writes a negative IMMED. -/
def returnField (value : Int) : AsmField := { low := 0, width := 5, least := -16, most := 31, value := value }

def AsmField.fits (f : AsmField) : Bool := decide (f.least ≤ f.value) && decide (f.value ≤ f.most)

/-- The bits of an operand that fits: "an IMMED of -k (1 <= k <= 16) is written in the field as the 5-bit two's
complement 32 - k" (R149). -/
def AsmField.bits (f : AsmField) : Word := fieldAt f.low (BitVec.ofInt f.width f.value)

/-- The fields of the Memory layout (R123, R140). -/
def memFields (r ix addr i : Int) : List AsmField :=
  [unsignedField 8 2 r, unsignedField 6 2 ix, unsignedField 0 5 addr, unsignedField 5 1 i]

/-- The opcode of a class; HLT and DATA have none. -/
def AsmClass.opcode : AsmClass → BitVec 6
  | .memory op | .xMemory op | .immediate op | .regReg op | .reg op | .shift op | .device op | .trapCode op
  | .returnImm op => op
  | .halt | .data => 0

/-- The fields of resolved operands in the forms of R140 and R141; none where the class has no such form. -/
def asmFields (c : AsmClass) (operands : List Int) : Option (List AsmField) :=
  match c, operands with
  | .halt, [] => some []
  | .memory _, [r, ix, addr, i] => some (memFields r ix addr i)
  | .memory _, [r, ix, addr] => some (memFields r ix addr 0)
  | .memory _, [r, addr] => some (memFields r 0 addr 0)
  | .memory _, [addr] => some (memFields 0 0 addr 0)
  | .xMemory _, [ix, addr, i] => some (memFields 0 ix addr i)
  | .xMemory _, [ix, addr] => some (memFields 0 ix addr 0)
  | .immediate _, [r, imm] => some [unsignedField 8 2 r, immedField imm]
  | .regReg _, [rx, ry] => some [unsignedField 8 2 rx, unsignedField 6 2 ry]
  | .reg _, [rx] => some [unsignedField 8 2 rx]
  | .shift _, [r, count, lr, al] =>
    some [unsignedField 8 2 r, unsignedField 0 4 count, unsignedField 6 1 lr, unsignedField 7 1 al]
  | .device _, [r, dev] => some [unsignedField 8 2 r, unsignedField 0 5 dev]
  | .trapCode _, [code] => some [unsignedField 0 4 code]
  | .returnImm _, [imm] => some [returnField imm]
  | .data, [x] => some [unsignedField 0 16 x]
  | _, _ => none

/-- The word of a mnemonic with resolved operands (R140, R142). Where an operand does not fit its field the whole word
is open, and so is whether there is one (R149, log 14). -/
def assemble (mnemonic : String) (operands : List Int) : Except AsmError Word :=
  match asmClass mnemonic with
  | none => .error .unknownMnemonic
  | some c =>
    match asmFields c operands with
    | none => .error .operandForm
    | some fields =>
      if fields.all AsmField.fits then
        .ok (fields.foldl (fun w f => w ||| f.bits) (fieldAt 10 c.opcode))
      else
        match Config.fieldOverflow mnemonic operands with
        | none => .error .fieldOverflow
        | some w => .ok w

/-- The last k octal digits of n, most significant first: leading zeros where n has fewer. Where n has more, the
higher digits are dropped (DESIGN CHOICE, log 17). -/
def octalDigits (k n : Nat) : List Char :=
  match k with
  | 0 => []
  | k + 1 => octalDigits k (n / 8) ++ [Char.ofNat (48 + n % 8)]

/-- One record of a load file (R145): "`AAAAAA WWWWWW\n`, where both fields are six-digit octal with
leading zeros". The spec does not say what an address of 8^6 or more (LOC has no bound) becomes in the six digits:
its last six digits are written (DESIGN CHOICE, log 17). -/
def loadLine (addr : Nat) (word : Word) : List Char :=
  octalDigits 6 addr ++ [' '] ++ octalDigits 6 word.toNat ++ ['\n']

/-- The value of an octal digit. -/
def octalValue (c : Char) : Option Nat :=
  if 48 ≤ c.toNat ∧ c.toNat ≤ 55 then some (c.toNat - 48) else none

/-- The value of a list of octal digits, after a prefix of value acc. -/
def readOctal (acc : Nat) (cs : List Char) : Option Nat :=
  match cs with
  | [] => some acc
  | c :: rest =>
    match octalValue c with
    | none => none
    | some d => readOctal (8 * acc + d) rest

/-- The record of a load file's line (R145); none where the line has not that form or the word has more
than 16 bits. -/
def readLoadLine (cs : List Char) : Option (Nat × Word) :=
  if cs.length = 14 ∧ cs[6]? = some ' ' ∧ cs[13]? = some '\n' then
    match readOctal 0 (cs.take 6), readOctal 0 ((cs.drop 7).take 6) with
    | some a, some w => if w < 65536 then some (a, BitVec.ofNat 16 w) else none
    | _, _ => none
  else none

/-- The pieces of a text between the separators. -/
def pieces (sep : Char) (cs : List Char) : List (List Char) :=
  match cs with
  | [] => [[]]
  | c :: rest =>
    if c = sep then [] :: pieces sep rest
    else
      match pieces sep rest with
      | [] => [[c]]
      | p :: ps => (c :: p) :: ps

/-- A load file: "one record per emitted word" (R145). -/
def loadFile (records : List (Nat × Word)) : List Char :=
  match records with
  | [] => []
  | (addr, word) :: rest => loadLine addr word ++ loadFile rest

/-- The records of a load file's lines, the last of which is empty. -/
def readLoadLines (lines : List (List Char)) : Option (List (Nat × Word)) :=
  match lines with
  | [] => none
  | [last] => if last = [] then some [] else none
  | line :: rest =>
    match readLoadLine (line ++ ['\n']), readLoadLines rest with
    | some r, some rs => some (r :: rs)
    | _, _ => none

/-- The records of a load file, in file order (R145, R452). -/
def readLoadFile (cs : List Char) : Option (List (Nat × Word)) := readLoadLines (pieces '\n' cs)

end Sys2Proof.Machine
end

