-- ==== Sys2Proof/Machine/Text.lean ====
section
/-! DEFINITION. Decimal text: whitespace, signed decimal integers (spec/30_encoding.md R139, spec/47_io.md R345). -/

namespace Sys2Proof.Machine

/-- Whitespace (log 14, log 10): the spec names no characters. -/
def isSpace (c : Char) : Bool := c == ' ' || c == '\t' || c == '\r' || c == '\n'

def trimStart (cs : List Char) : List Char := cs.dropWhile isSpace

def trimEnd (cs : List Char) : List Char :=
  match cs with
  | [] => []
  | c :: rest =>
    match trimEnd rest with
    | [] => if isSpace c then [] else [c]
    | d :: ds => c :: d :: ds

/-- A text without the whitespace at its ends (R139). -/
def trim (cs : List Char) : List Char := trimEnd (trimStart cs)

/-- The value of a list of decimal digits after a prefix of value acc. -/
def readDecimal (acc : Nat) (cs : List Char) : Option Nat :=
  match cs with
  | [] => some acc
  | c :: rest => if c.isDigit then readDecimal (10 * acc + (c.toNat - 48)) rest else none

/-- One or more decimal digits. -/
def readDigits (cs : List Char) : Option Nat :=
  match cs with
  | [] => none
  | c :: rest => readDecimal 0 (c :: rest)

/-- A decimal integer: digits, or `-` and digits. -/
def readInteger (cs : List Char) : Option Int :=
  match cs with
  | [] => none
  | c :: rest =>
    if c = '-' then (readDigits rest).map fun n => -(n : Int)
    else (readDigits (c :: rest)).map fun n => (n : Int)

end Sys2Proof.Machine
end

