-- ==== Sys2Proof/Machine/Assembly.lean ====
section
/-! DEFINITION. The assembler's notation as a function on text (spec/30_encoding.md R138, R139, R142, R144, R146,
R147): source lines, labels, the two passes, the load file's records, the listing. Its command line and its
messages are out of scope (spec/00_scope.md R6). What the spec leaves open of the text is log 14. -/

namespace Sys2Proof.Machine

/-- "either ... a decimal integer literal or ... a symbol from the symbol table" (R139). -/
inductive AsmOperand where
  | literal (n : Int)
  | symbol (name : List Char)
deriving DecidableEq, Repr

/-- What a line holds after its optional label (R138, R142). -/
inductive AsmStatement where
  | blank
  | loc (n : Nat)
  | emit (mnemonic : String) (operands : List AsmOperand)
deriving DecidableEq, Repr

/-- A source line (R138). -/
structure AsmLine where
  label     : Option (List Char)
  statement : AsmStatement
  text      : List Char
deriving DecidableEq, Repr

/-- An operand (R139). A text that is no decimal integer is a symbol (DESIGN CHOICE, log 14). -/
def readOperand (cs : List Char) : AsmOperand :=
  match readInteger cs with
  | some n => .literal n
  | none => .symbol cs

/-- The operand list: separated by commas, "whitespace is trimmed and `empty trailing entries` are ignored" (R139). -/
def readOperands (cs : List Char) : List AsmOperand :=
  ((((pieces ',' cs).map trim).reverse.dropWhile List.isEmpty).reverse).map readOperand

/-- An identifier, as a label is made of (R138, log 14). -/
def isIdentifier (cs : List Char) : Bool := !cs.isEmpty && cs.all fun c => c.isAlphanum || c == '_'

/-- "A leading `<identifier>:` defines a label" (R138): the label and the rest of the line. -/
def splitLabel (cs : List Char) : Option (List Char) × List Char :=
  match cs.dropWhile (· != ':') with
  | [] => (none, cs)
  | _ :: rest =>
    if isIdentifier (cs.takeWhile (· != ':')) then (some (cs.takeWhile (· != ':')), trim rest) else (none, cs)

/-- The tokens after the label: a mnemonic or a directive, and its operands (R138, R142). The spec gives LOC one
decimal operand and names the error "LOC without value" alone. DESIGN CHOICE (log 14): a negative value, an operand
that is no decimal literal, and more than one operand end the assembly with badInteger. -/
def readStatement (cs : List Char) : Except AsmError AsmStatement :=
  if cs = [] then .ok .blank
  else
    let mnemonic := String.ofList (cs.takeWhile fun c => !isSpace c)
    let operands := readOperands (cs.dropWhile fun c => !isSpace c)
    if mnemonic = "LOC" then
      match operands with
      | [.literal n] => if 0 ≤ n then .ok (.loc n.toNat) else .error .badInteger
      | [] => .error .locWithoutValue
      | _ => .error .badInteger
    else .ok (.emit mnemonic operands)

/-- One source line: the comment is dropped, the label taken off, the statement read (R138). A line of whitespace, or of
whitespace and a comment, counts as empty (DESIGN CHOICE, log 14). -/
def readLine (text : List Char) : Except AsmError AsmLine :=
  let (label, rest) := splitLabel (trim (text.takeWhile (· != ';')))
  match readStatement rest with
  | .error e => .error e
  | .ok statement => .ok { label := label, statement := statement, text := text }

/-- Every line of a source text, in order. -/
def readLines (lines : List (List Char)) : Except AsmError (List AsmLine) :=
  match lines with
  | [] => .ok []
  | text :: rest =>
    match readLine text, readLines rest with
    | .ok l, .ok ls => .ok (l :: ls)
    | .error e, _ => .error e
    | _, .error e => .error e

/-- The location counter after a line (R144): an empty line and a comment leave it, LOC sets it, and every other line
"otherwise increments the location counter by 1", a line with a label alone among them. -/
def nextLocation (lc : Nat) (l : AsmLine) : Nat :=
  match l.statement, l.label with
  | .loc n, _ => n
  | .emit _ _, _ => lc + 1
  | .blank, some _ => lc + 1
  | .blank, none => lc

/-- The value of a symbol. -/
def lookupSymbol (symbols : List (List Char × Nat)) (name : List Char) : Option Nat :=
  match symbols with
  | [] => none
  | (n, v) :: rest => if n = name then some v else lookupSymbol rest name

/-- Pass 1: `label -> locationCounter`; "a duplicate label is an error" (R144). -/
def pass1 (lc : Nat) (symbols : List (List Char × Nat)) (lines : List AsmLine) :
    Except AsmError (List (List Char × Nat)) :=
  match lines with
  | [] => .ok symbols
  | l :: rest =>
    match l.label with
    | none => pass1 (nextLocation lc l) symbols rest
    | some name =>
      match lookupSymbol symbols name with
      | some _ => .error .duplicateLabel
      | none => pass1 (nextLocation lc l) (symbols ++ [(name, lc)]) rest

/-- The values of an operand list (R139). -/
def resolveOperands (symbols : List (List Char × Nat)) (operands : List AsmOperand) : Option (List Int) :=
  match operands with
  | [] => some []
  | .literal n :: rest => (resolveOperands symbols rest).map fun vs => n :: vs
  | .symbol name :: rest =>
    match lookupSymbol symbols name, resolveOperands symbols rest with
    | some v, some vs => some ((v : Int) :: vs)
    | _, _ => none

/-- The word of a line that emits one (R144). -/
def emitWord (symbols : List (List Char × Nat)) (mnemonic : String) (operands : List AsmOperand) :
    Except AsmError Word :=
  match asmClass mnemonic, resolveOperands symbols operands with
  | none, _ => .error .unknownMnemonic
  | some _, none => .error .unresolvableSymbol
  | some _, some vs => assemble mnemonic vs

/-- Pass 2: each line with its address and the word it emits, if it emits one (R144). -/
def pass2 (symbols : List (List Char × Nat)) (lc : Nat) (lines : List AsmLine) :
    Except AsmError (List (AsmLine × Nat × Option Word)) :=
  match lines with
  | [] => .ok []
  | l :: rest =>
    match pass2 symbols (nextLocation lc l) rest with
    | .error e => .error e
    | .ok out =>
      match l.statement with
      | .blank => .ok ((l, lc, none) :: out)
      | .loc _ => .ok ((l, lc, none) :: out)
      | .emit mnemonic operands =>
        match emitWord symbols mnemonic operands with
        | .error e => .error e
        | .ok w => .ok ((l, lc, some w) :: out)

/-- The assembly of a source text; the location counter starts at 0 (R144, D33). The empty text after the source's
final line feed counts as one more blank line, so that its listing has one more line of three tabs (R146): the spec
does not say whether it is a line (DESIGN CHOICE, log 14). -/
def assembleLines (source : List Char) : Except AsmError (List (AsmLine × Nat × Option Word)) :=
  match readLines (pieces '\n' source) with
  | .error e => .error e
  | .ok lines =>
    match pass1 0 [] lines with
    | .error e => .error e
    | .ok symbols => pass2 symbols 0 lines

/-- The records of the load file: one per emitted word (R145). -/
def assembleRecords (source : List Char) : Except AsmError (List (Nat × Word)) :=
  match assembleLines source with
  | .error e => .error e
  | .ok out => .ok (out.filterMap fun e => e.2.2.map fun w => (e.2.1, w))

/-- A line of the listing file (R146). -/
def listingLine (e : AsmLine × Nat × Option Word) : List Char :=
  match e with
  | (l, lc, some w) => octalDigits 6 lc ++ ['\t'] ++ octalDigits 6 w.toNat ++ ['\t'] ++ l.text
  | (l, lc, none) =>
    match l.label, l.statement with
    | some _, .blank => octalDigits 6 lc ++ ['\t'] ++ l.text
    | _, _ => ['\t', '\t', '\t'] ++ l.text

end Sys2Proof.Machine
end

