-- ==== Sys2Proof/Machine/HostPort.lean ====
section
/-! DEFINITION. The host port (spec/60_exceptions.md R415, R416): what the operator console can do between
steps (R417). An operation the port refuses answers `none` and changes nothing (log 13). -/

namespace Sys2Proof.Machine

/-- `reset()` (R450): every piece of state at its reset value. IN_OTHER's counter is the environment's, no
state of the block, and goes on (log 3). -/
def hostReset (s : State) : State :=
  { State.reset with dev := { Devices.reset with otherReads := s.dev.otherReads } }

/-- `load(addr, word)` (R97); an address outside 0..2047 is refused. -/
def hostLoad (addr : Nat) (word : Word) (s : State) : Option State :=
  if addr < 2048 then some (deposit (BitVec.ofNat 11 addr) word s) else none

/-- `inspect(addr)` (R97): Mem[addr]; an address outside 0..2047 is refused. -/
def hostInspect (addr : Nat) (s : State) : Option Word :=
  if addr < 2048 then some (s.mem.word (BitVec.ofNat 11 addr)) else none

/-- `cacheView()` (R97): the sixteen lines and the queue. -/
def hostCacheView (s : State) : Cache := s.cache

/-- `submitKeyboard(value)` (R345): the word joins the keyboard queue. -/
def hostSubmitKeyboard (v : Word) (s : State) : State :=
  { s with dev := { s.dev with keyboard := s.dev.keyboard ++ [v] } }

/-- `takePrinter()` (R415, D42): the sink's characters in order; the sink is emptied. -/
def hostTakePrinter (s : State) : List Byte × State :=
  (s.dev.printer, { s with dev := { s.dev with printer := [] } })

/-- `preloadFile(words)` (R347, D42): the file reader's queue is replaced. -/
def hostPreloadFile (words : List Word) (s : State) : State :=
  { s with dev := { s.dev with fileReader := words } }

/-- The loads of an IPL, in file order (R452). -/
def loadRecords (records : List (Nat × Word)) (s : State) : Option State :=
  match records with
  | [] => some s
  | (addr, word) :: rest =>
    match hostLoad addr word s with
    | none => none
    | some s' => loadRecords rest s'

/-- `ipl(records)` (R452): every record loaded in order, then PC <- the first record's address; nothing
is reset and runState stays. An empty list does nothing; one bad address refuses the whole IPL (D42). -/
def hostIpl (records : List (Nat × Word)) (s : State) : Option State :=
  match records with
  | [] => some s
  | (addr, _) :: _ =>
    match loadRecords records s with
    | none => none
    | some s' => some { s' with pc := addrPc (BitVec.ofNat 11 addr) }

/-- `waitingForInput = (runState == WAITING)` (R47). -/
def waitingForInput (s : State) : Bool := s.runState == .waiting

/-- What the host observes between steps (R416). -/
structure Observation where
  pc  : PcVal
  ir  : Word
  mar : Addr
  mbr : Word
  mfr : BitVec 4
  cc  : BitVec 4
  gpr : Vector Word 4
  ixr : Vector Word 3
  waitingForInput : Bool
deriving DecidableEq, Repr

/-- Observation has no side effect (R416). -/
def hostObserve (s : State) : Observation :=
  { pc := s.pc, ir := s.ir, mar := s.mar, mbr := s.mbr, mfr := s.mfr, cc := s.cc, gpr := s.gpr, ixr := s.ixr,
    waitingForInput := waitingForInput s }

/-- The five outcomes of a step (R160). -/
inductive StepOutcome where
  | continue | halt | fault | wait | refused
deriving DecidableEq, Repr

/-- The outcome a run state stands for after a step that executed (R165, log 5). -/
def RunState.outcome : RunState → StepOutcome
  | .ready => .continue
  | .waiting => .wait
  | .halted => .halt
  | .faulted => .fault

/-- `step()` through the host port (R415, R160): its outcome and the state after it; a refused step
"changes no state". -/
def hostStep (s : State) : StepOutcome × State :=
  match step s with
  | .next t => (t.runState.outcome, t)
  | .refused _ => (.refused, s)
  | .fault r => nomatch r

/-- What the operator's keyboard text is (R345). -/
inductive KeyboardText where
  /-- the text is numeric: its value -/
  | numeric (n : Int)
  /-- the text is not numeric: its first character's code point -/
  | characters (firstCodePoint : Nat)
  /-- the spec does not say which (log 10) -/
  | unstated
deriving DecidableEq, Repr

/-- The text without a leading plus sign. -/
def dropPlus (text : List Char) : List Char :=
  match text with
  | [] => []
  | c :: rest => if c = '+' then rest else c :: rest

/-- Is the text a decimal integer only once whitespace at its ends and a leading plus sign are dropped? The spec does
not say whether such a text is numeric (log 10). -/
def maybeNumeric (text : List Char) : Bool := (readInteger (dropPlus (trim text))).isSome

/-- The parse of the operator's text (R345): "parsed as a signed decimal if the submitted text is numeric, otherwise the
first character's code point". A text of decimal digits with or without a minus sign is numeric; an empty text, and
one that is only perhaps numeric, is unstated (log 10). -/
def readKeyboardText (text : List Char) : KeyboardText :=
  match readInteger text, text with
  | some n, _ => .numeric n
  | none, [] => .unstated
  | none, c :: rest => if maybeNumeric (c :: rest) then .unstated else .characters c.toNat

/-- The word the host forms from the operator's text (R345): a numeric value of -32768..65535 in 16 bits, a code point
masked to 16 bits; every other text by `KBD_CONVERT` (R11, D27). -/
def keyboardWord (text : List Char) : Word :=
  match readKeyboardText text with
  | .numeric n => if -32768 ≤ n ∧ n ≤ 65535 then trunc16 n else Config.kbdConvert text
  | .characters c => BitVec.ofNat 16 c
  | .unstated => Config.kbdConvert text

/-- The operator submits a text at the keyboard (R345): the host forms the word and `submitKeyboard` queues it. -/
def hostSubmitText (text : List Char) (s : State) : State := hostSubmitKeyboard (keyboardWord text) s

/-- Every operation of the host port (R415). -/
inductive HostOp where
  | reset
  | step
  | load (addr : Nat) (word : Word)
  | inspect (addr : Nat)
  | cacheView
  | submitKeyboard (v : Word)
  | takePrinter
  | preloadFile (words : List Word)
  | ipl (records : List (Nat × Word))
  | observe
deriving DecidableEq, Repr

/-- The state after a host operation; a refused one leaves the state as it was (R97, R160, D42). -/
def applyHost (op : HostOp) (s : State) : State :=
  match op with
  | .reset => hostReset s
  | .step => (hostStep s).2
  | .load addr word => (hostLoad addr word s).getD s
  | .inspect _ => s
  | .cacheView => s
  | .submitKeyboard v => hostSubmitKeyboard v s
  | .takePrinter => (hostTakePrinter s).2
  | .preloadFile words => hostPreloadFile words s
  | .ipl records => (hostIpl records s).getD s
  | .observe => s

/-- A session at the host port: its operations one after another (R417). -/
def session (ops : List HostOp) (s : State) : State :=
  match ops with
  | [] => s
  | op :: rest => session rest (applyHost op s)

end Sys2Proof.Machine
end

