-- ==== Sys2Proof/Safety.lean ====
section
/-! DEFINITION. The words the claims use: the invariants of the machine (spec/10_state.md R46,
spec/20_memory.md R88, spec/70_reset_and_hazards.md R461), what a program observes (spec/10_state.md R48),
and the frames that say what an instruction leaves alone. -/

namespace Sys2Proof.Machine

/-! Invariants. -/

/-- "at most one valid line has a given tag" (R46). -/
def UniqueTags (c : Cache) : Prop :=
  ∀ j k : LineIdx, (c.line j).valid = true → (c.line k).valid = true →
    (c.line j).tag = (c.line k).tag → j = k

/-- "`Queue` holds exactly the indices of the valid lines, each once" (R46). -/
def QueueOfValid (c : Cache) : Prop :=
  c.queue.Nodup ∧ ∀ k : LineIdx, k ∈ c.queue ↔ (c.line k).valid = true

/-- "for every valid line L, Mem[L.tag] == L.data" (R46). -/
def Coherent (c : Cache) (m : Memory) : Prop :=
  ∀ k : LineIdx, (c.line k).valid = true → m.word (c.line k).tag = (c.line k).data

/-- The three cache invariants (R46). -/
structure CacheInv (c : Cache) (m : Memory) : Prop where
  unique   : UniqueTags c
  queue    : QueueOfValid c
  coherent : Coherent c m

/-- The shape of the fill order (R88): until the sixteenth install the queue is 0, 1, ..., n-1 and those
are the valid lines; from then on every line is valid and the queue is a rotation of 0..15. -/
def FillOrder (c : Cache) : Prop :=
  (∃ n ≤ 16, c.queue = lineIdxs.take n ∧ ∀ k : LineIdx, (c.line k).valid = true ↔ k.val < n) ∨
  (∃ h < 16, c.queue = lineIdxs.rotate h ∧ ∀ k : LineIdx, (c.line k).valid = true)

/-- What holds after every step and every host operation (R461): memory in its canonical form, the
cache invariants, PC in 0..2048, MFR in 0, 1, 4 and nonzero exactly in FAULTED. -/
structure Inv (s : State) : Prop where
  memWf   : s.mem.wf = true
  cache   : CacheInv s.cache s.mem
  pc      : s.pc.toNat ≤ 2048
  mfr     : s.mfr = 0 ∨ s.mfr = 1 ∨ s.mfr = 4
  faulted : s.runState = .faulted ↔ s.mfr ≠ 0

/-- Every piece of state the spec names, at the value of R50's table. -/
structure AtReset (s : State) : Prop where
  gpr        : ∀ r, s.reg r = 0
  ixr        : ∀ x, s.xreg x = 0
  pc         : s.pc = 0
  ir         : s.ir = 0
  cc         : s.cc = 0
  flags      : ∀ f, s.flag f = false
  mfr        : s.mfr = 0
  mar        : s.mar = 0
  mbr        : s.mbr = 0
  lines      : ∀ k, s.cache.line k = { valid := false, tag := 0, data := 0 }
  queue      : s.cache.queue = []
  runState   : s.runState = .ready
  mem        : ∀ a, s.mem.word a = 0
  keyboard   : s.dev.keyboard = []
  fileReader : s.dev.fileReader = []
  printer    : s.dev.printer = []

/-! What a program observes (R48). -/

/-- Registers, CC, PC, memory, the devices and whether the block runs; not IR, MAR, MBR, MFR or the
cache (R48). -/
structure ProgramView where
  gpr      : Vector Word 4
  ixr      : Vector Word 3
  cc       : BitVec 4
  pc       : PcVal
  mem      : Memory
  dev      : Devices
  runState : RunState
deriving DecidableEq, Repr

def programView (s : State) : ProgramView :=
  { gpr := s.gpr, ixr := s.ixr, cc := s.cc, pc := s.pc, mem := s.mem, dev := s.dev, runState := s.runState }

/-! The effective address read from memory itself, and what computing it leaves in the cache, MAR and
MBR (R167, R171, R44). -/

/-- What an IX field adds to the address: nothing when it is 0, else the register it names, unsigned (R167). -/
def indexValue (x : IxSel) (s : State) : Nat :=
  match x with
  | .off => 0
  | .x1 => (s.xreg .x1).toNat
  | .x2 => (s.xreg .x2).toNat
  | .x3 => (s.xreg .x3).toNat

/-- The EA with the pointer word taken from memory. -/
def memEa (m : MemOperand) (s : State) : Word :=
  if m.indirect then s.mem.word (low11 (eaBase m s)) else eaBase m s

/-- The cache after the EA unit. -/
def eaCache (m : MemOperand) (s : State) : Cache :=
  if m.indirect then s.cache.afterRead (low11 (eaBase m s)) (s.mem.word (low11 (eaBase m s)))
  else s.cache

/-- MAR after the EA unit. -/
def eaMar (m : MemOperand) (s : State) : Addr :=
  if m.indirect then low11 (eaBase m s) else s.mar

/-- MBR after the EA unit. -/
def eaMbr (m : MemOperand) (s : State) : Word :=
  if m.indirect then s.mem.word (low11 (eaBase m s)) else s.mbr

/-! Frames: what stays between the state s an instruction starts from and its next state t. -/

/-- Every general register but those of ds keeps its value. -/
def GprKept (ds : List Reg) (s t : State) : Prop :=
  ∀ q : Reg, q ∉ ds → t.reg q = s.reg q

/-- Every index register but those of ds keeps its value. -/
def IxrKept (ds : List XReg) (s t : State) : Prop :=
  ∀ y : XReg, y ∉ ds → t.xreg y = s.xreg y

/-- Every flag but those of fs keeps its value. -/
def FlagsKept (fs : List Flag) (s t : State) : Prop :=
  ∀ g : Flag, g ∉ fs → t.flag g = s.flag g

/-- Every byte of memory reads as before. -/
def BytesKept (s t : State) : Prop :=
  ∀ k : Nat, Memory.read t.mem k = Memory.read s.mem k

/-- Every byte of memory outside the word at address a reads as before. -/
def BytesKeptBut (a : Addr) (s t : State) : Prop :=
  ∀ k : Nat, k ≠ 2 * a.toNat → k ≠ 2 * a.toNat + 1 → Memory.read t.mem k = Memory.read s.mem k

/-- IR, MFR and the devices keep their values, and the outcome is CONTINUE. -/
structure SystemKept (s t : State) : Prop where
  ir       : t.ir = s.ir
  mfr      : t.mfr = s.mfr
  dev      : t.dev = s.dev
  runState : t.runState = .ready

/-- No CPU-side access: MAR, MBR, the cache and every byte of memory as before (R90). -/
structure NoAccess (s t : State) : Prop where
  mar   : t.mar = s.mar
  mbr   : t.mbr = s.mbr
  cache : t.cache = s.cache
  bytes : BytesKept s t

/-- The accesses of an EA computation and no other: its indirection read when i = 1 (R172). -/
structure EaAccess (m : MemOperand) (s t : State) : Prop where
  mar   : t.mar = eaMar m s
  mbr   : t.mbr = eaMbr m s
  cache : t.cache = eaCache m s
  bytes : BytesKept s t

/-- The accesses of a load: the EA's, then the read at EA[10:0] (R171). -/
structure LoadAccess (m : MemOperand) (s t : State) : Prop where
  mar   : t.mar = low11 (memEa m s)
  mbr   : t.mbr = s.mem.word (low11 (memEa m s))
  cache : t.cache = (eaCache m s).afterRead (low11 (memEa m s)) (s.mem.word (low11 (memEa m s)))
  bytes : BytesKept s t

/-- The accesses of a store of v: the EA's, then the write at EA[10:0], which leaves MBR (R171, R84). -/
structure StoreAccess (m : MemOperand) (v : Word) (s t : State) : Prop where
  mar    : t.mar = low11 (memEa m s)
  mbr    : t.mbr = eaMbr m s
  cache  : t.cache = (eaCache m s).afterWrite (low11 (memEa m s)) v
  stored : t.mem.word (low11 (memEa m s)) = v
  bytes  : BytesKeptBut (low11 (memEa m s)) s t

/-! Words and instructions. -/

/-- The bits of a word that its format names, opcode included (R122 to R132). -/
def namedBits : Instr → Word
  | .hlt => 0xFC00
  | .ldr _ _ | .str _ _ | .lda _ _ | .amr _ _ | .smr _ _ | .jz _ _ | .jne _ _ | .jcc _ _ | .sob _ _
  | .jge _ _ => 0xFFFF
  | .air _ _ | .sir _ _ | .inp _ _ | .out _ _ | .chk _ _ => 0xFF1F
  | .jma _ | .jsr _ | .ldx _ _ _ | .stx _ _ _ => 0xFCFF
  | .rfs _ => 0xFC1F
  | .mlt _ _ | .dvd _ _ | .trr _ _ | .andr _ _ | .orr _ _ => 0xFFC0
  | .notr _ => 0xFF00
  | .trap _ => 0xFC0F
  | .src _ _ _ _ => 0xFFCF
  | .rrc _ _ _ => 0xFF4F

/-- Every word with this opcode, whatever its other bits, decodes to the instruction its fields give: `match
pattern, mask 0xFC00` of the instructions' rules (R133, R135). -/
def DecodesAs (pattern : Word) (instruction : Word → Instr) : Prop :=
  ∀ w : Word, w &&& 0xFC00 = pattern → decode w = .ok (instruction w)

/-- The 34 unlisted opcodes (R134). -/
def unlistedOpcodes : List Nat :=
  [0o26, 0o27, 0o33, 0o34, 0o35, 0o36, 0o37, 0o40, 0o43, 0o44, 0o45, 0o46, 0o47, 0o50, 0o51, 0o52, 0o53] ++
  [0o54, 0o55, 0o56, 0o57, 0o60, 0o64, 0o65, 0o66, 0o67, 0o70, 0o71, 0o72, 0o73, 0o74, 0o75, 0o76, 0o77]

/-- The block executes its next step: READY or WAITING, PC in 0..2047 (R160, R161). -/
def Fetches (s : State) : Prop :=
  (s.runState = .ready ∨ s.runState = .waiting) ∧ s.pc.toNat < 2048

/-- The flags an instruction may write (R41). -/
def flagWrites : Instr → List Flag
  | .amr _ _ | .air _ _ | .mlt _ _ => [.overflow]
  | .smr _ _ | .sir _ _ => [.underflow]
  | .dvd _ _ => [.divzero]
  | .trr _ _ => [.equal]
  | .hlt | .ldr _ _ | .str _ _ | .lda _ _ | .jz _ _ | .jne _ _ | .jcc _ _ | .jma _ | .jsr _ | .rfs _ | .sob _ _
  | .jge _ _ | .andr _ _ | .orr _ _ | .notr _ | .trap _ | .src _ _ _ _ | .rrc _ _ _ | .ldx _ _ _ | .stx _ _ _
  | .inp _ _ | .out _ _ | .chk _ _ => []

/-- The general registers an instruction may write (R32). -/
def gprWrites : Instr → List Reg
  | .ldr r _ | .lda r _ | .air r _ | .sir r _ | .amr r _ | .smr r _ | .sob r _ | .src r _ _ _ | .rrc r _ _
  | .inp r _ | .chk r _ | .andr r _ | .orr r _ | .notr r => [r]
  | .jsr _ => [.r3]
  | .rfs _ => [.r0]
  | .mlt .r0 _ | .dvd .r0 _ => [.r0, .r1]
  | .mlt .r2 _ | .dvd .r2 _ => [.r2, .r3]
  | .mlt .r1 _ | .mlt .r3 _ | .dvd .r1 _ | .dvd .r3 _ => []
  | .hlt | .str _ _ | .jz _ _ | .jne _ _ | .jcc _ _ | .jma _ | .jge _ _ | .trr _ _ | .trap _ | .ldx _ _ _
  | .stx _ _ _ | .out _ _ => []

/-! The effects several instructions share. -/

/-- The effect of a jump with condition `taken` (R248): PC is EA[10:0] or stays at address + 1, and the
EA's accesses happen in both cases. -/
def JumpEffect (taken : Prop) (m : MemOperand) (s t : State) : Prop :=
  (taken → t.pc.toNat = (memEa m s).toNat % 2048) ∧ (¬ taken → t.pc = s.pc) ∧
  IxrKept [] s t ∧ FlagsKept [] s t ∧ EaAccess m s t ∧ SystemKept s t

/-- What an IN that gets the word v leaves, the devices being d afterwards. -/
def InCompletes (r : Reg) (v : Word) (d : Devices) (s t : State) : Prop :=
  t.reg r = v ∧ t.dev = d ∧ t.runState = .ready ∧ t.pc = s.pc ∧ GprKept [r] s t ∧ IxrKept [] s t ∧
  FlagsKept [] s t ∧ t.ir = s.ir ∧ t.mfr = s.mfr ∧ NoAccess s t

/-- What an IN that suspends leaves (R349), the devices being d afterwards. -/
def InSuspends (d : Devices) (s t : State) : Prop :=
  t.dev = d ∧ t.runState = .waiting ∧ t.pc = s.pc - 1 ∧ GprKept [] s t ∧ IxrKept [] s t ∧ FlagsKept [] s t ∧
  t.ir = s.ir ∧ t.mfr = s.mfr ∧ NoAccess s t

end Sys2Proof.Machine
end

