-- ==== Sys2Proof/Certificates/Slice0/Obligations.lean ====
section
/-! DEFINITION. The statements about the model, from the numbered rules of spec/. "Derived" in a docstring
says that a clause rests on an inference of the spec's own or on a choice of the model's. -/

open Sys2Proof Sys2Proof.Machine

/-! ## Reset and the invariants -/

/-- R50, R450: power-on reset, and the operator's reset from every state, leave every register, flag, cache line,
memory word and device queue at the table's value. -/
def Obligations.ResetLeavesTheSpecsValues : Prop :=
  AtReset State.reset ∧ ∀ s : State, AtReset (hostReset s)

/-- Derived (R46, R88, R461): the invariants hold after power-on reset and after the operator's reset. `Inv` holds
two clauses of the model's own, that memory keeps its canonical form (log 1, a design choice) and that MFR is
nonzero exactly in FAULTED. That the operator's reset keeps the counter otherReads (log 3) and empties portOut
(log 4) is the model's choice too. -/
def Obligations.ResetMeetsTheInvariants : Prop :=
  Inv State.reset ∧ FillOrder State.reset.cache ∧
  ∀ s : State, Inv (hostReset s) ∧ FillOrder (hostReset s).cache ∧
    (hostReset s).dev.otherReads = s.dev.otherReads ∧ (hostReset s).dev.portOut = []

/-- Derived (R461, R46): every step keeps the invariants. `Inv` holds two clauses of the model's own: that memory
keeps its canonical form (log 1, a design choice) and that MFR is nonzero exactly in FAULTED. -/
def Obligations.StepKeepsTheInvariants : Prop :=
  ∀ s t : State, Inv s → step s = .next t → Inv t

/-- Derived (R461, R46): every host operation keeps the invariants, and so does every session. `Inv` holds two
clauses of the model's own: that memory keeps its canonical form (log 1, a design choice) and that MFR is
nonzero exactly in FAULTED. -/
def Obligations.HostSessionsKeepTheInvariants : Prop :=
  ∀ (ops : List HostOp) (s : State), Inv s → Inv (session ops s)

/-! ## The cache -/

/-- Derived (R88, an inference of the spec's own): after reset the installs fill lines 0, 1, ..., 15 in turn and
then evict them in turn; the number of valid lines is min(16, installs). Every host operation, a step among
them, keeps that shape of the fill order. -/
def Obligations.InstallsFillTheLinesInTurn : Prop :=
  (∀ ins : List (Addr × Word),
    let c := ins.foldl (fun c e => Cache.install c e.1 e.2) Cache.reset
    (lineIdxs.filter fun k => (c.line k).valid).length = min 16 ins.length ∧
    (16 ≤ ins.length → c.queue = lineIdxs.rotate (ins.length % 16)) ∧
    ∀ (a : Addr) (w : Word) (j : LineIdx),
      (c.install a w).line j =
        if j.val = ins.length % 16 then { valid := true, tag := a, data := w } else c.line j) ∧
  (∀ (ops : List HostOp) (s : State), FillOrder s.cache → FillOrder (session ops s).cache)

/-- R85: an install takes the lowest invalid line, or else the head of the queue; its index goes to the queue's tail
and no other line changes. -/
def Obligations.InstallTakesTheLowestInvalidLineElseTheOldest : Prop :=
  (∀ (c : Cache) (a : Addr) (w : Word) (k : LineIdx),
    (c.line k).valid = false → (∀ j : LineIdx, j < k → (c.line j).valid = true) →
    (c.install a w).queue = c.queue ++ [k] ∧
    ∀ j, (c.install a w).line j = if j = k then { valid := true, tag := a, data := w } else c.line j) ∧
  (∀ (c : Cache) (a : Addr) (w : Word) (k : LineIdx) (rest : List LineIdx),
    (∀ j : LineIdx, (c.line j).valid = true) → c.queue = k :: rest →
    (c.install a w).queue = rest ++ [k] ∧
    ∀ j, (c.install a w).line j = if j = k then { valid := true, tag := a, data := w } else c.line j)

/-- R83: a read sets MAR and MBR; a hit answers the line's data and moves nothing, a miss answers the memory word
and installs it. -/
def Obligations.ReadGoesThroughTheCache : Prop :=
  (∀ (s : State) (a : Addr) (k : LineIdx), UniqueTags s.cache → (s.cache.line k).valid = true →
    (s.cache.line k).tag = a →
    memRead a s = ((s.cache.line k).data, { s with mar := a, mbr := (s.cache.line k).data })) ∧
  (∀ (s : State) (a : Addr), (∀ k : LineIdx, (s.cache.line k).valid = true → (s.cache.line k).tag ≠ a) →
    memRead a s =
      (s.mem.word a, { s with mar := a, mbr := s.mem.word a, cache := s.cache.install a (s.mem.word a) }))

/-- R84: a write sets MAR, writes memory at once, updates a hit line in place with no queue movement and installs on
a miss; MBR and everything else stay. -/
def Obligations.WriteGoesThroughAndAllocates : Prop :=
  ∀ (s : State) (a : Addr) (v : Word),
    let t := memWrite a v s
    t.mar = a ∧ t.mem.word a = v ∧ BytesKeptBut a s t ∧
    t = { s with mar := t.mar, mem := t.mem, cache := t.cache } ∧
    (∀ k : LineIdx, UniqueTags s.cache → (s.cache.line k).valid = true → (s.cache.line k).tag = a →
      t.cache.queue = s.cache.queue ∧
      ∀ j, t.cache.line j = if j = k then { valid := true, tag := a, data := v } else s.cache.line j) ∧
    ((∀ k : LineIdx, (s.cache.line k).valid = true → (s.cache.line k).tag ≠ a) →
      t.cache = s.cache.install a v)

/-- Derived (R89, an inference of the spec's own): the cache never changes a value a program reads. -/
def Obligations.CacheIsTransparent : Prop :=
  ∀ (s : State) (a : Addr) (v : Word), CacheInv s.cache s.mem →
    (memRead a s).1 = s.mem.word a ∧ (memWrite a v s).mem.word a = v ∧
    (∀ k : LineIdx, ((memWrite a v s).cache.line k).valid = true →
      ((memWrite a v s).cache.line k).tag = a → ((memWrite a v s).cache.line k).data = v) ∧
    (memRead a (memWrite a v s)).1 = v

/-- Derived (R48, R89): a program cannot observe IR, MAR, MBR, MFR or the cache. Two states that agree on everything
a program observes, each with a coherent cache, take steps that agree again; where each has the three cache
invariants, so has each state after. For an IN from device 1 or 3..31, whose answer R348 leaves open, the two
runs agree by the model's choice: the answer is a function of the device and of the counter otherReads (logs 2
and 3), which the view holds beside the record portOut (log 4). -/
def Obligations.ProgramsCannotObserveTheCache : Prop :=
  (∀ s t s' : State, Coherent s.cache s.mem → Coherent t.cache t.mem → programView s = programView t →
    step s = .next s' → ∃ t', step t = .next t' ∧ programView s' = programView t') ∧
  (∀ s t s' : State, CacheInv s.cache s.mem → CacheInv t.cache t.mem → programView s = programView t →
    step s = .next s' → ∃ t', step t = .next t' ∧ programView s' = programView t' ∧
      CacheInv s'.cache s'.mem ∧ CacheInv t'.cache t'.mem)

/-! ## Encoding and the cycle -/

/-- Derived (R122, R132, R133): decoding an encoded instruction gives it back, whatever its operands. -/
def Obligations.DecodeInvertsEncode : Prop :=
  ∀ i : Instr, decode (encode i) = .ok i

/-- R135: a word whose opcode is listed decodes by its named fields whatever the other bits hold; every named bit is
kept in the instruction. -/
def Obligations.DecoderReadsExactlyTheNamedBits : Prop :=
  (∀ (w : Word) (i : Instr), decode w = .ok i → encode i = w &&& namedBits i) ∧
  (∀ (w w' : Word) (i : Instr), decode w = .ok i → w' &&& namedBits i = w &&& namedBits i →
    decode w' = .ok i)

/-- R134: exactly the words of the 34 unlisted opcodes do not decode, whatever their low 10 bits, and a step that
fetches one raises Fault(4) right after the fetch. -/
def Obligations.UnlistedOpcodesRaiseIllegalOperationCode : Prop :=
  (∀ w : Word, decode w = .error (.unlistedOpcode (w.extractLsb' 10 6)) ↔
    (w.extractLsb' 10 6).toNat ∈ unlistedOpcodes) ∧
  (∀ s : State, Fetches s → Coherent s.cache s.mem →
    ((s.mem.word (pcAddr s.pc)).extractLsb' 10 6).toNat ∈ unlistedOpcodes →
    step s = .next (faultEntry .illegalOperationCode (fetch s)))

/-- R136: MLT and DVD with Rx = 1 or 3, and LDX and STX with IX = 0, raise Fault(4) before any operand is read; no
other field value of a listed opcode does. -/
def Obligations.IllegalFieldValuesRaiseIllegalOperationCode : Prop :=
  (∀ (ry : Reg) (s : State),
    exec (.mlt .r1 ry) s = .next (faultEntry .illegalOperationCode s) ∧
    exec (.mlt .r3 ry) s = .next (faultEntry .illegalOperationCode s) ∧
    exec (.dvd .r1 ry) s = .next (faultEntry .illegalOperationCode s) ∧
    exec (.dvd .r3 ry) s = .next (faultEntry .illegalOperationCode s)) ∧
  (∀ (i : Bool) (a : BitVec 5) (s : State),
    exec (.ldx .off i a) s = .next (faultEntry .illegalOperationCode s) ∧
    exec (.stx .off i a) s = .next (faultEntry .illegalOperationCode s)) ∧
  (∀ (i : Instr) (s t : State), i.wellFormed = true → exec i s = .next t → t.runState ≠ .faulted ∧ t.mfr = s.mfr)

/-- Derived (R166, an inference of the spec's own; R165): when the word at PC decodes to i, a step is exactly exec
of i at the state the fetch leaves. -/
def Obligations.StepRunsTheDecodedInstruction : Prop :=
  ∀ (s : State) (i : Instr), Fetches s → Coherent s.cache s.mem →
    decode (s.mem.word (pcAddr s.pc)) = .ok i → step s = exec i (fetch s)

/-- R162: the fetch loads IR from memory at PC through the cache, setting MAR and MBR, and advances PC; nothing else
changes. -/
def Obligations.FetchLoadsIrAndAdvancesPc : Prop :=
  ∀ s : State, s.pc.toNat < 2048 → Coherent s.cache s.mem →
    let w := s.mem.word (pcAddr s.pc)
    (fetch s).pc.toNat = s.pc.toNat + 1 ∧ 1 ≤ (fetch s).pc.toNat ∧ (fetch s).pc.toNat ≤ 2048 ∧
    fetch s = { s with ir := w, pc := (fetch s).pc, mar := pcAddr s.pc, mbr := w,
                       cache := s.cache.afterRead (pcAddr s.pc) w }

/-- R161: at PC = 2048 the step raises Fault(1) before any access of the fetch and saves 2048 at address 2. -/
def Obligations.FetchAt2048RaisesIllegalMemoryAddress : Prop :=
  ∀ s : State, (s.runState = .ready ∨ s.runState = .waiting) → s.pc.toNat = 2048 →
    step s = .next (faultEntry .illegalMemoryAddress s) ∧
    (faultEntry .illegalMemoryAddress s).mem.word 2 = 2048 ∧
    (faultEntry .illegalMemoryAddress s).ir = s.ir ∧ (faultEntry .illegalMemoryAddress s).mbr = s.mbr ∧
    (faultEntry .illegalMemoryAddress s).cache = s.cache.afterWrite 2 2048

/-- Derived (R160, R402; that REFUSED is a refusal of the model is log 5): a step of a HALTED or FAULTED block is
refused and changes no state; no host operation but reset ends that state or writes a general register. -/
def Obligations.StoppedBlockRefusesUntilReset : Prop :=
  (∀ s : State, s.runState = .halted → step s = .refused .haltedUntilReset ∧ hostStep s = (.refused, s)) ∧
  (∀ s : State, s.runState = .faulted → step s = .refused .faultedUntilReset ∧ hostStep s = (.refused, s)) ∧
  (∀ (ops : List HostOp) (s : State), HostOp.reset ∉ ops → (s.runState = .halted ∨ s.runState = .faulted) →
    (session ops s).runState = s.runState ∧ (session ops s).gpr = s.gpr)

/-- Derived (R160, R165, R405): a READY or WAITING block always steps; exec never stops on a fault or a refusal of
the model. The outcome is HALT for HLT, WAIT for an IN that suspends, FAULT for a fault (PC = 2048, an unlisted
opcode, an illegal field value) and CONTINUE for every other instruction. That the model reads an outcome off
the run state is log 5. -/
def Obligations.RunningBlockAlwaysSteps : Prop :=
  (∀ (i : Instr) (s : State), ∃ t, exec i s = .next t) ∧
  (∀ s : State, (s.runState = .ready ∨ s.runState = .waiting) →
    ∃ t, step s = .next t ∧ hostStep s = (t.runState.outcome, t)) ∧
  (∀ s : State, (s.runState = .ready ∨ s.runState = .waiting) → s.pc.toNat = 2048 → (hostStep s).1 = .fault) ∧
  (∀ (s : State) (e : Reject), Fetches s → Coherent s.cache s.mem →
    decode (s.mem.word (pcAddr s.pc)) = .error e → (hostStep s).1 = .fault) ∧
  (∀ (s : State) (i : Instr), Fetches s → Coherent s.cache s.mem → decode (s.mem.word (pcAddr s.pc)) = .ok i →
    (i = .hlt → (hostStep s).1 = .halt) ∧
    (i.wellFormed = false → (hostStep s).1 = .fault) ∧
    (∀ r dev, i = .inp r dev → (s.dev.devIn dev).1 = .notReady → (hostStep s).1 = .wait) ∧
    (i ≠ .hlt → i.wellFormed = true → (∀ r dev, i = .inp r dev → (s.dev.devIn dev).1 ≠ .notReady) →
      (hostStep s).1 = .continue))

/-- Derived: words written out bit by bit from the encodings of R123 to R129 decode to the instructions they stand
for. -/
def Obligations.SpecsWordsDecode : Prop :=
  decode 0b0000010001100101 = .ok (.ldr .r0 { ix := .x1, indirect := true, address := 5 }) ∧
  decode 0b0001101000011111 = .ok (.air .r2 0b11111) ∧
  decode 0b0100011011000000 = .ok (.dvd .r2 .r3) ∧
  decode 0b0110010010000100 = .ok (.src .r0 4 .right .arithmetic) ∧
  decode 0b1000100010110101 = .ok (.stx .x2 true 21) ∧
  decode 0b1100010100000010 = .ok (.inp .r1 2) ∧
  decode 0b0110000000000101 = .ok (.trap 5)

/-! ## Faults -/

/-- R401: fault entry is a next state: MFR holds the code, Mem[2] the PC (through the cache), PC is 1, the block is
FAULTED; no other byte, no register and no flag changes. -/
def Obligations.FaultEntryStopsAtTheFaultVector : Prop :=
  ∀ (c : FaultCode) (s : State), ∃ t, raiseFault c s = .next t ∧
    t.mfr = (match c with
      | .illegalMemoryAddress => 1
      | .illegalTrapCode => 2
      | .trapExecuted => 3
      | .illegalOperationCode => 4) ∧
    (t.mem.word 2).toNat = s.pc.toNat ∧ BytesKeptBut 2 s t ∧ t.pc = 1 ∧ t.runState = .faulted ∧
    t.mar = 2 ∧ t.cache = s.cache.afterWrite 2 (t.mem.word 2) ∧ t.mbr = s.mbr ∧ t.ir = s.ir ∧ t.cc = s.cc ∧
    t.gpr = s.gpr ∧ t.ixr = s.ixr ∧ t.dev = s.dev

/-- Derived (R406, an inference of the spec's own): faults are precise. Whatever fault a step raises, the general
and index registers, CC, the devices and every byte of memory outside address 2 are as before the step, and
Mem[2] tells the faulting address. -/
def Obligations.FaultsArePrecise : Prop :=
  ∀ s t : State, s.runState ≠ .faulted → s.pc.toNat ≤ 2048 → step s = .next t → t.runState = .faulted →
    GprKept [] s t ∧ IxrKept [] s t ∧ FlagsKept [] s t ∧ t.dev = s.dev ∧ BytesKeptBut 2 s t ∧ t.pc = 1 ∧
    ((t.mfr = 1 ∧ s.pc.toNat = 2048 ∧ (t.mem.word 2).toNat = 2048 ∧ t.ir = s.ir) ∨
     (t.mfr = 4 ∧ s.pc.toNat < 2048 ∧ (t.mem.word 2).toNat = s.pc.toNat + 1))

/-! ## Effective address -/

/-- R167: the effective-address unit: the 5-bit address plus the selected index register modulo 2^16, and with i = 1
one read through the cache at the low 11 bits of that. -/
def Obligations.EffectiveAddressUnit : Prop :=
  ∀ (m : MemOperand) (s : State), Coherent s.cache s.mem →
    let base : Nat := (m.address.toNat + indexValue m.ix s) % 65536
    (m.indirect = false → effAddr m s = (BitVec.ofNat 16 base, s)) ∧
    (m.indirect = true →
      effAddr m s =
        (s.mem.word (BitVec.ofNat 11 base),
         { s with mar := BitVec.ofNat 11 base, mbr := s.mem.word (BitVec.ofNat 11 base),
                  cache := s.cache.afterRead (BitVec.ofNat 11 base) (s.mem.word (BitVec.ofNat 11 base)) }))

/-! ## Load and store -/

/-- R200: LDR's encoding; it completes, loads the word at EA[10:0] and changes no other register, no flag and no
byte of memory; its accesses are the EA's and the operand read. -/
def Obligations.LdrLoadsTheWordAtEa : Prop :=
  DecodesAs 0x0400 (fun w => .ldr (regField w) (memField w)) ∧
  ∀ (r : Reg) (m : MemOperand) (s : State), CacheInv s.cache s.mem → ∃ t, exec (.ldr r m) s = .next t ∧
    t.reg r = s.mem.word (low11 (memEa m s)) ∧ GprKept [r] s t ∧ IxrKept [] s t ∧ FlagsKept [] s t ∧
    t.pc = s.pc ∧ LoadAccess m s t ∧ SystemKept s t

/-- R201: STR's encoding; it completes, stores R[r] at EA[10:0] through the cache, and changes no other byte, no
register and no flag. -/
def Obligations.StrStoresTheRegisterAtEa : Prop :=
  DecodesAs 0x0800 (fun w => .str (regField w) (memField w)) ∧
  ∀ (r : Reg) (m : MemOperand) (s : State), CacheInv s.cache s.mem → ∃ t, exec (.str r m) s = .next t ∧
    StoreAccess m (s.reg r) s t ∧ GprKept [] s t ∧ IxrKept [] s t ∧ FlagsKept [] s t ∧ t.pc = s.pc ∧
    SystemKept s t

/-- R202: LDA's encoding; it completes and loads all 16 bits of the EA; the only access is the EA's own; no other
register and no flag changes. -/
def Obligations.LdaLoadsTheWholeEa : Prop :=
  DecodesAs 0x0C00 (fun w => .lda (regField w) (memField w)) ∧
  ∀ (r : Reg) (m : MemOperand) (s : State), CacheInv s.cache s.mem → ∃ t, exec (.lda r m) s = .next t ∧
    t.reg r = memEa m s ∧ GprKept [r] s t ∧ IxrKept [] s t ∧ FlagsKept [] s t ∧ t.pc = s.pc ∧
    EaAccess m s t ∧ SystemKept s t

/-! ## Arithmetic with memory and immediate -/

/-- R220: AMR's encoding; it completes with the 16-bit sum of R[r] and the word at EA[10:0], OVERFLOW exactly when
the exact signed sum is outside -32768..32767; no other register, flag or byte changes. -/
def Obligations.AmrAddsTheWordAtEa : Prop :=
  DecodesAs 0x1000 (fun w => .amr (regField w) (memField w)) ∧
  ∀ (r : Reg) (m : MemOperand) (s : State), CacheInv s.cache s.mem →
    let sum : Int := (s.reg r).toInt + (s.mem.word (low11 (memEa m s))).toInt
    ∃ t, exec (.amr r m) s = .next t ∧ t.reg r = BitVec.ofInt 16 sum ∧
      (t.flag .overflow = true ↔ sum < -32768 ∨ sum > 32767) ∧ FlagsKept [.overflow] s t ∧
      GprKept [r] s t ∧ IxrKept [] s t ∧ t.pc = s.pc ∧ LoadAccess m s t ∧ SystemKept s t

/-- R221: SMR's encoding; it completes with the 16-bit difference, UNDERFLOW exactly when the exact signed
difference is below -32768 (one above 32767 wraps and writes UNDERFLOW = 0); no other register, flag or byte
changes. -/
def Obligations.SmrSubtractsTheWordAtEa : Prop :=
  DecodesAs 0x1400 (fun w => .smr (regField w) (memField w)) ∧
  ∀ (r : Reg) (m : MemOperand) (s : State), CacheInv s.cache s.mem →
    let difference : Int := (s.reg r).toInt - (s.mem.word (low11 (memEa m s))).toInt
    ∃ t, exec (.smr r m) s = .next t ∧ t.reg r = BitVec.ofInt 16 difference ∧
      (t.flag .underflow = true ↔ difference < -32768) ∧ FlagsKept [.underflow] s t ∧
      GprKept [r] s t ∧ IxrKept [] s t ∧ t.pc = s.pc ∧ LoadAccess m s t ∧ SystemKept s t

/-- R222: AIR's encoding; it completes with R[r] plus the signed 5-bit immediate, OVERFLOW exactly when the exact
sum is outside -32768..32767; no access, no other register or flag changes. -/
def Obligations.AirAddsTheSignedImmediate : Prop :=
  DecodesAs 0x1800 (fun w => .air (regField w) (low5Field w)) ∧
  ∀ (r : Reg) (imm : BitVec 5) (s : State),
    let sum : Int := (s.reg r).toInt + imm.toInt
    ∃ t, exec (.air r imm) s = .next t ∧ t.reg r = BitVec.ofInt 16 sum ∧
      (t.flag .overflow = true ↔ sum < -32768 ∨ sum > 32767) ∧ FlagsKept [.overflow] s t ∧
      GprKept [r] s t ∧ IxrKept [] s t ∧ t.pc = s.pc ∧ NoAccess s t ∧ SystemKept s t

/-- R223: SIR's encoding; it completes with R[r] minus the signed 5-bit immediate, UNDERFLOW exactly when the exact
difference is below -32768; no access, no other register or flag changes. -/
def Obligations.SirSubtractsTheSignedImmediate : Prop :=
  DecodesAs 0x1C00 (fun w => .sir (regField w) (low5Field w)) ∧
  ∀ (r : Reg) (imm : BitVec 5) (s : State),
    let difference : Int := (s.reg r).toInt - imm.toInt
    ∃ t, exec (.sir r imm) s = .next t ∧ t.reg r = BitVec.ofInt 16 difference ∧
      (t.flag .underflow = true ↔ difference < -32768) ∧ FlagsKept [.underflow] s t ∧
      GprKept [r] s t ∧ IxrKept [] s t ∧ t.pc = s.pc ∧ NoAccess s t ∧ SystemKept s t

/-! ## Transfer of control -/

/-- R240, R241, R242, R243, R247: JZ, JNE, JCC, JMA and JGE, their encodings; they complete, and jump to EA[10:0]
exactly when their condition holds; no register and no flag changes. -/
def Obligations.JumpsGoToEaWhenTaken : Prop :=
  DecodesAs 0x2000 (fun w => .jz (regField w) (memField w)) ∧
  DecodesAs 0x2400 (fun w => .jne (regField w) (memField w)) ∧
  DecodesAs 0x2800 (fun w => .jcc (w.extractLsb' 8 2) (memField w)) ∧
  DecodesAs 0x2C00 (fun w => .jma (memField w)) ∧
  DecodesAs 0x3C00 (fun w => .jge (regField w) (memField w)) ∧
  (∀ (r : Reg) (m : MemOperand) (s : State), CacheInv s.cache s.mem → ∃ t, exec (.jz r m) s = .next t ∧
    JumpEffect ((s.reg r).toNat = 0) m s t ∧ GprKept [] s t) ∧
  (∀ (r : Reg) (m : MemOperand) (s : State), CacheInv s.cache s.mem → ∃ t, exec (.jne r m) s = .next t ∧
    JumpEffect ((s.reg r).toNat ≠ 0) m s t ∧ GprKept [] s t) ∧
  (∀ (b : BitVec 2) (m : MemOperand) (s : State), CacheInv s.cache s.mem → ∃ t, exec (.jcc b m) s = .next t ∧
    JumpEffect (s.cc.getLsbD b.toNat = true) m s t ∧ GprKept [] s t) ∧
  (∀ (m : MemOperand) (s : State), CacheInv s.cache s.mem → ∃ t, exec (.jma m) s = .next t ∧
    JumpEffect True m s t ∧ GprKept [] s t) ∧
  (∀ (r : Reg) (m : MemOperand) (s : State), CacheInv s.cache s.mem → ∃ t, exec (.jge r m) s = .next t ∧
    JumpEffect ((s.reg r).toInt ≥ 0) m s t ∧ GprKept [] s t)

/-- R40: CC's four flags at their fixed positions. -/
def Obligations.CcFlagsStandAtTheirPositions : Prop :=
  ∀ s : State, s.flag .overflow = s.cc.getLsbD 0 ∧ s.flag .underflow = s.cc.getLsbD 1 ∧
    s.flag .divzero = s.cc.getLsbD 2 ∧ s.flag .equal = s.cc.getLsbD 3

/-- R244: JSR's encoding; it completes, links PC in R3 and jumps to EA[10:0]; no other register, no flag and no byte
changes. -/
def Obligations.JsrLinksInR3 : Prop :=
  DecodesAs 0x3000 (fun w => .jsr (memField w)) ∧
  ∀ (m : MemOperand) (s : State), CacheInv s.cache s.mem → ∃ t, exec (.jsr m) s = .next t ∧
    (t.reg .r3).toNat = s.pc.toNat ∧ GprKept [.r3] s t ∧ JumpEffect True m s t

/-- R245: RFS's encoding; it completes, returning through R3[10:0] with the zero-extended immediate in R0; no EA, no
access, no other register and no flag changes. -/
def Obligations.RfsReturnsThroughR3 : Prop :=
  DecodesAs 0x3400 (fun w => .rfs (low5Field w)) ∧
  ∀ (imm : BitVec 5) (s : State), ∃ t, exec (.rfs imm) s = .next t ∧
    (t.reg .r0).toNat = imm.toNat ∧ t.pc.toNat = (s.reg .r3).toNat % 2048 ∧ GprKept [.r0] s t ∧
    IxrKept [] s t ∧ FlagsKept [] s t ∧ NoAccess s t ∧ SystemKept s t

/-- R246: SOB's encoding; it completes, decrements R[r] modulo 2^16 and jumps to EA[10:0] exactly when the new value
is positive as signed; no flag, no other register and no byte changes. -/
def Obligations.SobDecrementsAndBranchesWhilePositive : Prop :=
  DecodesAs 0x3800 (fun w => .sob (regField w) (memField w)) ∧
  ∀ (r : Reg) (m : MemOperand) (s : State), CacheInv s.cache s.mem → ∃ t, exec (.sob r m) s = .next t ∧
    ((t.reg r).toNat : Int) = ((s.reg r).toNat - 1) % 65536 ∧ GprKept [r] s t ∧
    JumpEffect ((t.reg r).toInt > 0) m s t

/-! ## Register to register -/

/-- R270: MLT's encoding; Rx = 1 or 3 raises Fault(4); else it completes. The pair Rx:Rx+1 holds the exact 32-bit
product; OVERFLOW says that the product is outside [-2^30, 2^30 - 1], which happens for -32768 times -32768
alone. -/
def Obligations.MltLeavesTheExactProduct : Prop :=
  DecodesAs 0x4000 (fun w => .mlt (regField w) (ryField w)) ∧
  (∀ (rx ry : Reg) (s : State), (rx = .r1 ∨ rx = .r3) →
    exec (.mlt rx ry) s = .next (faultEntry .illegalOperationCode s)) ∧
  ∀ (rx rx1 ry : Reg) (s : State), (rx = .r0 ∧ rx1 = .r1 ∨ rx = .r2 ∧ rx1 = .r3) →
    let p : Int := (s.reg rx).toInt * (s.reg ry).toInt
    ∃ t, exec (.mlt rx ry) s = .next t ∧
      ((t.reg rx).toInt * 65536 + (t.reg rx1).toNat = p) ∧
      (t.flag .overflow = true ↔ p > 2 ^ 30 - 1 ∨ p < -2 ^ 30) ∧
      (t.flag .overflow = true ↔ s.reg rx = 0x8000 ∧ s.reg ry = 0x8000) ∧
      FlagsKept [.overflow] s t ∧ GprKept [rx, rx1] s t ∧ IxrKept [] s t ∧ t.pc = s.pc ∧ NoAccess s t ∧
      SystemKept s t

/-- R271: DVD's encoding; Rx = 1 or 3 raises Fault(4); else it completes. With a nonzero divisor b the quotient q
and the remainder r satisfy a = q*b + r with |r| < |b| and r zero or of a's sign, which is division truncated
toward zero; DIVZERO is cleared. A zero divisor sets DIVZERO and writes no register. -/
def Obligations.DvdTruncatesTowardZero : Prop :=
  DecodesAs 0x4400 (fun w => .dvd (regField w) (ryField w)) ∧
  (∀ (rx ry : Reg) (s : State), (rx = .r1 ∨ rx = .r3) →
    exec (.dvd rx ry) s = .next (faultEntry .illegalOperationCode s)) ∧
  ∀ (rx rx1 ry : Reg) (s : State), (rx = .r0 ∧ rx1 = .r1 ∨ rx = .r2 ∧ rx1 = .r3) →
    let a : Int := (s.reg rx).toInt
    let b : Int := (s.reg ry).toInt
    ∃ t, exec (.dvd rx ry) s = .next t ∧
      (b ≠ 0 → ∃ q r : Int, a = q * b + r ∧ r.natAbs < b.natAbs ∧ (r = 0 ∨ (r < 0 ↔ a < 0)) ∧
        t.reg rx = BitVec.ofInt 16 q ∧ t.reg rx1 = BitVec.ofInt 16 r ∧ t.flag .divzero = false ∧
        GprKept [rx, rx1] s t) ∧
      (b = 0 → t.flag .divzero = true ∧ GprKept [] s t) ∧
      FlagsKept [.divzero] s t ∧ IxrKept [] s t ∧ t.pc = s.pc ∧ NoAccess s t ∧ SystemKept s t

/-- R272: TRR's encoding; it completes, EQUAL is 1 exactly when the two registers are equal, and no register and no
other flag changes. -/
def Obligations.TrrWritesEqual : Prop :=
  DecodesAs 0x4800 (fun w => .trr (regField w) (ryField w)) ∧
  ∀ (rx ry : Reg) (s : State), ∃ t, exec (.trr rx ry) s = .next t ∧
    (t.flag .equal = true ↔ s.reg rx = s.reg ry) ∧ FlagsKept [.equal] s t ∧ GprKept [] s t ∧ IxrKept [] s t ∧
    t.pc = s.pc ∧ NoAccess s t ∧ SystemKept s t

/-- R273, R274, R275: AND, ORR and NOT, their encodings; they complete with their results bit by bit in Rx; no flag
and no other register changes. -/
def Obligations.LogicWorksBitByBit : Prop :=
  DecodesAs 0x4C00 (fun w => .andr (regField w) (ryField w)) ∧
  DecodesAs 0x5000 (fun w => .orr (regField w) (ryField w)) ∧
  DecodesAs 0x5400 (fun w => .notr (regField w)) ∧
  ∀ (rx ry : Reg) (s : State),
    (∃ t, exec (.andr rx ry) s = .next t ∧
      (∀ k < 16, (t.reg rx).getLsbD k = ((s.reg rx).getLsbD k && (s.reg ry).getLsbD k)) ∧
      GprKept [rx] s t ∧ IxrKept [] s t ∧ FlagsKept [] s t ∧ t.pc = s.pc ∧ NoAccess s t ∧ SystemKept s t) ∧
    (∃ t, exec (.orr rx ry) s = .next t ∧
      (∀ k < 16, (t.reg rx).getLsbD k = ((s.reg rx).getLsbD k || (s.reg ry).getLsbD k)) ∧
      GprKept [rx] s t ∧ IxrKept [] s t ∧ FlagsKept [] s t ∧ t.pc = s.pc ∧ NoAccess s t ∧ SystemKept s t) ∧
    (∃ t, exec (.notr rx) s = .next t ∧
      (∀ k < 16, (t.reg rx).getLsbD k = !(s.reg rx).getLsbD k) ∧
      GprKept [rx] s t ∧ IxrKept [] s t ∧ FlagsKept [] s t ∧ t.pc = s.pc ∧ NoAccess s t ∧ SystemKept s t)

/-! ## Shift and rotate -/

/-- R300: SRC's encoding; it completes in its four modes: left multiplies by 2^count modulo 2^16, logical right and
arithmetic right divide by 2^count, rounding down; no flag and no other register changes. -/
def Obligations.SrcShiftsInFourModes : Prop :=
  DecodesAs 0x6400 (fun w => .src (regField w) (low4Field w) (dirField w) (kindField w)) ∧
  ∀ (r : Reg) (count : BitVec 4) (dir : ShiftDir) (kind : ShiftKind) (s : State),
    ∃ t, exec (.src r count dir kind) s = .next t ∧
      (dir = .left → (t.reg r).toNat = (s.reg r).toNat * 2 ^ count.toNat % 65536) ∧
      (dir = .right → kind = .logical → (t.reg r).toNat = (s.reg r).toNat / 2 ^ count.toNat) ∧
      (dir = .right → kind = .arithmetic → (t.reg r).toInt = (s.reg r).toInt / (2 ^ count.toNat : Int)) ∧
      GprKept [r] s t ∧ IxrKept [] s t ∧ FlagsKept [] s t ∧ t.pc = s.pc ∧ NoAccess s t ∧ SystemKept s t

/-- R301: RRC's encoding; it completes and moves bit k to bit k + count (left) or k - count (right), modulo 16; no
flag is written. -/
def Obligations.RrcRotatesEveryBit : Prop :=
  DecodesAs 0x6800 (fun w => .rrc (regField w) (low4Field w) (dirField w)) ∧
  ∀ (r : Reg) (count : BitVec 4) (dir : ShiftDir) (s : State),
    ∃ t, exec (.rrc r count dir) s = .next t ∧
      (dir = .left → ∀ k < 16, (t.reg r).getLsbD ((k + count.toNat) % 16) = (s.reg r).getLsbD k) ∧
      (dir = .right → ∀ k < 16, (t.reg r).getLsbD k = (s.reg r).getLsbD ((k + count.toNat) % 16)) ∧
      GprKept [r] s t ∧ IxrKept [] s t ∧ FlagsKept [] s t ∧ t.pc = s.pc ∧ NoAccess s t ∧ SystemKept s t

/-! ## Index registers -/

/-- R320: LDX's encoding; x = 0 raises Fault(4); with x = 1..3 it completes and loads X[x] from EA(address, 0, i),
never indexed; no other register, no flag and no byte changes. -/
def Obligations.LdxLoadsTheIndexRegister : Prop :=
  DecodesAs 0x8400 (fun w => .ldx (ixField w) (indirectField w) (low5Field w)) ∧
  (∀ (i : Bool) (a : BitVec 5) (s : State), exec (.ldx .off i a) s = .next (faultEntry .illegalOperationCode s)) ∧
  ∀ (sel : IxSel) (x : XReg) (i : Bool) (address : BitVec 5) (s : State),
    (sel = .x1 ∧ x = .x1 ∨ sel = .x2 ∧ x = .x2 ∨ sel = .x3 ∧ x = .x3) → CacheInv s.cache s.mem →
    let m : MemOperand := { ix := .off, indirect := i, address := address }
    ∃ t, exec (.ldx sel i address) s = .next t ∧ t.xreg x = s.mem.word (low11 (memEa m s)) ∧
      IxrKept [x] s t ∧ GprKept [] s t ∧ FlagsKept [] s t ∧ t.pc = s.pc ∧ LoadAccess m s t ∧ SystemKept s t

/-- R321: STX's encoding; x = 0 raises Fault(4); with x = 1..3 it completes and stores X[x] at EA(address, 0,
i)[10:0]; no register, no flag and no other byte changes. -/
def Obligations.StxStoresTheIndexRegister : Prop :=
  DecodesAs 0x8800 (fun w => .stx (ixField w) (indirectField w) (low5Field w)) ∧
  (∀ (i : Bool) (a : BitVec 5) (s : State), exec (.stx .off i a) s = .next (faultEntry .illegalOperationCode s)) ∧
  ∀ (sel : IxSel) (x : XReg) (i : Bool) (address : BitVec 5) (s : State),
    (sel = .x1 ∧ x = .x1 ∨ sel = .x2 ∧ x = .x2 ∨ sel = .x3 ∧ x = .x3) → CacheInv s.cache s.mem →
    let m : MemOperand := { ix := .off, indirect := i, address := address }
    ∃ t, exec (.stx sel i address) s = .next t ∧ StoreAccess m (s.xreg x) s t ∧
      IxrKept [] s t ∧ GprKept [] s t ∧ FlagsKept [] s t ∧ t.pc = s.pc ∧ SystemKept s t

/-! ## Input and output -/

/-- Derived (R342, R345, R347, R348, R349): IN from each device: the keyboard's oldest word, or a suspension when
there is none; the file reader's head, or 0 when there is none. For the devices without an input of their own
the answer is the free value of `Config.inOther` (log 2), whichever it is, and the model's counter (log 3) moves
on. -/
def Obligations.InReadsEachDevice : Prop :=
  DecodesAs 0xC400 (fun w => .inp (regField w) (low5Field w)) ∧
  (∀ (r : Reg) (s : State) (v : Word) (rest : List Word), s.dev.keyboard = v :: rest →
    ∃ t, exec (.inp r 0) s = .next t ∧ InCompletes r v { s.dev with keyboard := rest } s t) ∧
  (∀ (r : Reg) (s : State), s.dev.keyboard = [] → ∃ t, exec (.inp r 0) s = .next t ∧ InSuspends s.dev s t) ∧
  (∀ (r : Reg) (s : State) (v : Word) (rest : List Word), s.dev.fileReader = v :: rest →
    ∃ t, exec (.inp r 2) s = .next t ∧ InCompletes r v { s.dev with fileReader := rest } s t) ∧
  (∀ (r : Reg) (s : State), s.dev.fileReader = [] → ∃ t, exec (.inp r 2) s = .next t ∧ InCompletes r 0 s.dev s t) ∧
  (∀ (r : Reg) (dev : DevNum) (s : State), dev ≠ 0 → dev ≠ 2 →
    let d : Devices := { s.dev with otherReads := s.dev.otherReads + 1 }
    ∃ t, exec (.inp r dev) s = .next t ∧
      ((∃ v, Config.inOther dev s.dev.otherReads = .ready v ∧ InCompletes r v d s t) ∨
       (Config.inOther dev s.dev.otherReads = .notReady ∧ InSuspends d s t)))

/-- Derived (R349, R345): an IN on the empty keyboard leaves PC at the IN and the block WAITING; stepped again it
leaves the same state; once the host submits a word, the next step completes with it. -/
def Obligations.SuspendedInWaitsForTheKeyboard : Prop :=
  ∀ (s : State) (r : Reg) (v : Word), Fetches s → CacheInv s.cache s.mem → s.dev.keyboard = [] →
    decode (s.mem.word (pcAddr s.pc)) = .ok (.inp r 0) →
    ∃ t u, step s = .next t ∧ t.pc = s.pc ∧ t.runState = .waiting ∧ t.gpr = s.gpr ∧ t.mem = s.mem ∧
      step t = .next t ∧
      step (hostSubmitKeyboard v t) = .next u ∧ u.reg r = v ∧ GprKept [r] s u ∧ u.dev.keyboard = [] ∧
      u.pc.toNat = s.pc.toNat + 1 ∧ u.runState = .ready

/-- Derived (R343, R346; the record of the port's words is the model's, log 4): OUT's encoding; it completes, hands
the whole word to the port and never suspends; the printer appends its low byte to the sink, other devices leave
the sink alone. -/
def Obligations.OutHandsTheWordToThePort : Prop :=
  DecodesAs 0xC800 (fun w => .out (regField w) (low5Field w)) ∧
  ∀ (r : Reg) (dev : DevNum) (s : State), ∃ t, exec (.out r dev) s = .next t ∧
    t.dev.portOut = s.dev.portOut ++ [(dev, s.reg r)] ∧
    (dev = 1 → t.dev.printer = s.dev.printer ++ [(s.reg r).extractLsb' 0 8]) ∧
    (dev ≠ 1 → t.dev.printer = s.dev.printer) ∧
    t.dev.keyboard = s.dev.keyboard ∧ t.dev.fileReader = s.dev.fileReader ∧
    t.dev.otherReads = s.dev.otherReads ∧ t.runState = .ready ∧ t.pc = s.pc ∧ GprKept [] s t ∧
    IxrKept [] s t ∧ FlagsKept [] s t ∧ t.ir = s.ir ∧ t.mfr = s.mfr ∧ NoAccess s t

/-- R344: CHK's encoding; it completes and answers 1 for every device; nothing else changes. -/
def Obligations.ChkAnswersReadyForEveryDevice : Prop :=
  DecodesAs 0xCC00 (fun w => .chk (regField w) (low5Field w)) ∧
  ∀ (r : Reg) (dev : DevNum) (s : State), ∃ t, exec (.chk r dev) s = .next t ∧ t.reg r = 1 ∧
    GprKept [r] s t ∧ IxrKept [] s t ∧ FlagsKept [] s t ∧ t.pc = s.pc ∧ NoAccess s t ∧ SystemKept s t

/-- Derived (R345, R346, R347, R415): the host appends to the keyboard queue, replaces the file reader's queue, and
takes and empties the printer's sink; nothing else changes. The operator's text joins the keyboard queue as one
word: digits of value up to 65535 as that value, a minus sign and digits of value up to 32768 as the negative,
and a text that starts with no digit, sign or whitespace as its first character's code point masked to 16 bits.
Which texts count as numeric (so that '.5' or digits outside ASCII give their first character), what counts as
whitespace, and that a leading plus sign or whitespace leaves the word open, is the model's choice (log 10);
texts such as '1A' and '-x' are left without a statement. -/
def Obligations.HostFeedsAndEmptiesTheDevices : Prop :=
  (∀ (s : State) (v : Word) (words : List Word),
    (hostTakePrinter s).1 = s.dev.printer ∧
    hostSubmitKeyboard v s = { s with dev := { s.dev with keyboard := s.dev.keyboard ++ [v] } } ∧
    hostPreloadFile words s = { s with dev := { s.dev with fileReader := words } } ∧
    (hostTakePrinter s).2 = { s with dev := { s.dev with printer := [] } }) ∧
  (∀ (s : State) (ds : List Nat), ds ≠ [] → (∀ d ∈ ds, d < 10) →
    let value : Nat := ds.foldl (fun v d => 10 * v + d) 0
    (value ≤ 65535 →
      hostSubmitText (ds.map Nat.digitChar) s = hostSubmitKeyboard (BitVec.ofNat 16 value) s) ∧
    (value ≤ 32768 →
      hostSubmitText ('-' :: ds.map Nat.digitChar) s = hostSubmitKeyboard (BitVec.ofInt 16 (-(value : Int))) s)) ∧
  (∀ (s : State) (c : Char) (rest : List Char), c.isDigit = false → c ≠ '-' → c ≠ '+' → isSpace c = false →
    hostSubmitText (c :: rest) s = hostSubmitKeyboard (BitVec.ofNat 16 c.toNat) s)

/-! ## Halt and trap -/

/-- R370: HLT's encoding; it completes by stopping the block, changes nothing else (MFR and PC stay), and the next
step is REFUSED. -/
def Obligations.HltHaltsTheBlock : Prop :=
  DecodesAs 0x0000 (fun _ => .hlt) ∧
  ∀ s : State, exec .hlt s = .next { s with runState := .halted } ∧
    (∀ t, exec .hlt s = .next t → hostStep t = (.refused, t))

/-- R371: TRAP's encoding; it completes: it saves PC at address 2, loads PC from the word at address 0, in that
order through the cache, for every trap code; no register, no flag and no other byte changes, and MFR is not
written. -/
def Obligations.TrapVectorsThroughAddress0 : Prop :=
  DecodesAs 0x6000 (fun w => .trap (low4Field w)) ∧
  ∀ (code : BitVec 4) (s : State), CacheInv s.cache s.mem → ∃ t, exec (.trap code) s = .next t ∧
    (t.mem.word 2).toNat = s.pc.toNat ∧ BytesKeptBut 2 s t ∧
    t.pc.toNat = (s.mem.word 0).toNat % 2048 ∧ t.mar = 0 ∧ t.mbr = s.mem.word 0 ∧
    t.cache = (s.cache.afterWrite 2 (t.mem.word 2)).afterRead 0 (s.mem.word 0) ∧
    GprKept [] s t ∧ IxrKept [] s t ∧ FlagsKept [] s t ∧ SystemKept s t

/-- Derived (R407): `JMA 0,0,2,1` returns from a handler that has kept Mem[2]: PC is the address after the TRAP. -/
def Obligations.JmaThroughAddress2ReturnsFromTrap : Prop :=
  ∀ (code : BitVec 4) (s t h : State), CacheInv s.cache s.mem → s.pc.toNat < 2048 →
    exec (.trap code) s = .next t → CacheInv h.cache h.mem → h.mem.word 2 = t.mem.word 2 →
    ∃ u, exec (.jma { ix := .off, indirect := true, address := 2 }) h = .next u ∧ u.pc = s.pc ∧
      u.gpr = h.gpr ∧ u.cc = h.cc

/-! ## Whole-machine rules -/

/-- Derived (R41): every instruction keeps every flag but the one R41's table gives it. -/
def Obligations.OnlyTheNamedInstructionsWriteFlags : Prop :=
  ∀ (i : Instr) (s t : State), exec i s = .next t → FlagsKept (flagWrites i) s t

/-- Derived (R32, an inference of the spec's own): every instruction keeps every general register but those of R32's
table. -/
def Obligations.OnlyTheNamedRegistersAreWritten : Prop :=
  ∀ (i : Instr) (s t : State), exec i s = .next t → GprKept (gprWrites i) s t

/-- Derived (R34, R39, R42): only LDX writes an index register; execution never writes IR; MFR is written by fault
entry alone, with code 4. -/
def Obligations.SpecialRegistersHaveOneWriter : Prop :=
  ∀ (i : Instr) (s t : State), exec i s = .next t →
    ((∀ x ind a, i ≠ .ldx x ind a) → t.ixr = s.ixr) ∧ t.ir = s.ir ∧
    (i.wellFormed = true → t.mfr = s.mfr) ∧ (i.wellFormed = false → t.mfr = 4)

/-- Derived (R43, R78): of the well-formed instructions only STR, STX and TRAP change a byte of memory. -/
def Obligations.OnlyStoresAndTrapWriteMemory : Prop :=
  ∀ (i : Instr) (s t : State), i.wellFormed = true → exec i s = .next t →
    (∀ r m, i ≠ .str r m) → (∀ x ind a, i ≠ .stx x ind a) → (∀ code, i ≠ .trap code) → BytesKept s t

/-- Derived (R94): an instruction stored to the address of the next fetch is the one fetched. -/
def Obligations.StoredWordIsFetchedNext : Prop :=
  ∀ (s : State) (v : Word), CacheInv s.cache s.mem → s.pc.toNat < 2048 →
    (fetch (memWrite (pcAddr s.pc) v s)).ir = v

/-- Derived (R461 item 5): a step that leaves the block WAITING leaves PC at an IN on the empty keyboard or on a
device without an input of its own. -/
def Obligations.WaitingBlockStandsAtAnIn : Prop :=
  ∀ s t : State, Inv s → step s = .next t → t.runState = .waiting →
    t.pc = s.pc ∧ t.pc.toNat < 2048 ∧ ∃ (r : Reg) (dev : DevNum),
      decode (t.mem.word (pcAddr t.pc)) = .ok (.inp r dev) ∧ dev ≠ 2 ∧ (dev = 0 → t.dev.keyboard = [])

/-! ## Host port -/

/-- R97: the host's `load` writes memory, updates a matching line in place and changes nothing else; `inspect`
answers the memory word; an address outside 0..2047 is refused; `cacheView` answers the cache. -/
def Obligations.HostLoadBypassesTheCache : Prop :=
  (∀ (addr : Nat) (w : Word) (s : State), addr < 2048 → UniqueTags s.cache → ∃ t, hostLoad addr w s = some t ∧
    t.mem.word (BitVec.ofNat 11 addr) = w ∧ BytesKeptBut (BitVec.ofNat 11 addr) s t ∧
    t = { s with mem := t.mem, cache := t.cache } ∧ t.cache.queue = s.cache.queue ∧
    (∀ k, t.cache.line k =
      if (s.cache.line k).valid = true ∧ (s.cache.line k).tag = BitVec.ofNat 11 addr
      then { valid := true, tag := BitVec.ofNat 11 addr, data := w } else s.cache.line k) ∧
    hostInspect addr s = some (s.mem.word (BitVec.ofNat 11 addr))) ∧
  (∀ (addr : Nat) (w : Word) (s : State), 2048 ≤ addr → hostLoad addr w s = none ∧ hostInspect addr s = none) ∧
  (∀ s : State, hostCacheView s = s.cache)

/-- Derived (R452, R453): `ipl` on a fresh machine leaves exactly the load image, an empty cache and PC at the first
record; a record outside 0..2047 refuses the whole IPL. Records of one address twice are left out: the later one
would win. -/
def Obligations.IplLoadsTheImage : Prop :=
  (∀ (a0 : Nat) (w0 : Word) (rest : List (Nat × Word)),
    (((a0, w0) :: rest).map Prod.fst).Nodup → (∀ e ∈ (a0, w0) :: rest, e.1 < 2048) →
    ∃ t, hostIpl ((a0, w0) :: rest) State.reset = some t ∧ t.pc.toNat = a0 ∧
      (∀ e ∈ (a0, w0) :: rest, t.mem.word (BitVec.ofNat 11 e.1) = e.2) ∧
      (∀ a : Addr, a.toNat ∉ ((a0, w0) :: rest).map Prod.fst → t.mem.word a = 0) ∧
      t = { State.reset with mem := t.mem, pc := t.pc }) ∧
  (∀ (records : List (Nat × Word)) (s : State), (∃ e ∈ records, 2048 ≤ e.1) → hostIpl records s = none) ∧
  (∀ s : State, hostIpl [] s = some s)

/-- Derived (R145): a load file's record is 14 characters long, and a load file of six-digit records reads back as
the records it was written from. -/
def Obligations.LoadFileRecordsReadBack : Prop :=
  (∀ (a : Nat) (w : Word), (loadLine a w).length = 14) ∧
  (∀ records : List (Nat × Word), (∀ e ∈ records, e.1 < 8 ^ 6) → readLoadFile (loadFile records) = some records)
end

