-- ==== Sys2Proof/Laws/Bits.lean ====
section
/-! SUPPORT. Laws of the bit fields and of the two readings of a word. -/

namespace Sys2Proof.Laws

open Sys2Proof Sys2Proof.Machine

@[simp] theorem highByte_append_lowByte (v : Word) : highByte v ++ lowByte v = v := by
  unfold highByte lowByte
  apply BitVec.eq_of_getLsbD_eq
  intro i hi
  simp only [BitVec.getLsbD_append, BitVec.getLsbD_extractLsb']
  by_cases h : i < 8
  · simp [h]
  · simp [h, show i - 8 < 8 by omega, show 8 + (i - 8) = i by omega]

@[simp] theorem addrPc_toNat (a : Addr) : (addrPc a).toNat = a.toNat := by
  have := a.isLt
  simp [addrPc, BitVec.toNat_setWidth]
  omega

theorem addrPc_toNat_lt (a : Addr) : (addrPc a).toNat < 2048 := by
  have := a.isLt
  simp
  omega

@[simp] theorem pcAddr_addrPc (a : Addr) : pcAddr (addrPc a) = a := by
  have := a.isLt
  apply BitVec.eq_of_toNat_eq
  simp [pcAddr, BitVec.toNat_setWidth]
  omega

theorem pcAddr_toNat {pc : PcVal} (h : pc.toNat < 2048) : (pcAddr pc).toNat = pc.toNat := by
  simp [pcAddr, BitVec.toNat_setWidth]
  omega

theorem addrPc_pcAddr {pc : PcVal} (h : pc.toNat < 2048) : addrPc (pcAddr pc) = pc := by
  apply BitVec.eq_of_toNat_eq
  simp [pcAddr_toNat h]

@[simp] theorem pcWord_toNat (pc : PcVal) : (pcWord pc).toNat = pc.toNat := by
  have := pc.isLt
  simp [pcWord, BitVec.toNat_setWidth]
  omega

@[simp] theorem low11_pcWord (pc : PcVal) : low11 (pcWord pc) = pcAddr pc := by
  apply BitVec.eq_of_toNat_eq
  simp [low11, pcAddr, BitVec.toNat_setWidth]

theorem low11_toNat (v : Word) : (low11 v).toNat = v.toNat % 2048 := by
  simp [low11, BitVec.toNat_setWidth]

theorem signed_range (w : Word) : -32768 ≤ signed w ∧ signed w ≤ 32767 := by
  unfold signed
  have h1 := BitVec.le_toInt w
  have h2 := BitVec.toInt_lt (x := w)
  norm_num at h1 h2
  omega

/-- `trunc16` of a value in the signed range keeps the value. -/
theorem signed_trunc16 {n : Int} (h : -32768 ≤ n ∧ n ≤ 32767) : signed (trunc16 n) = n := by
  unfold signed trunc16
  rw [BitVec.toInt_ofInt]
  apply Int.bmod_eq_of_le <;> norm_num <;> omega

@[simp] theorem trunc16_signed (w : Word) : trunc16 (signed w) = w := by
  simp [trunc16, signed]

theorem trunc16_toNat (n : Int) : ((trunc16 n).toNat : Int) = n % 65536 := by
  unfold trunc16
  rw [BitVec.toNat_ofInt]
  norm_num
  omega

theorem pc_succ_toNat {pc : PcVal} (h : pc.toNat < 2048) : (pc + 1).toNat = pc.toNat + 1 := by
  simp [BitVec.toNat_add]
  omega

@[simp] theorem pc_succ_pred (pc : PcVal) : pc + 1 - 1 = pc := by
  simp

end Sys2Proof.Laws
end

