-- ==== Sys2Proof/Laws/Memory.lean ====
section
/-! SUPPORT. Laws of backing memory: a read after a write, and the canonical form. -/

namespace Sys2Proof.Laws

open Sys2Proof Sys2Proof.Machine

theorem read_erase_same (m : Memory) (k : Nat) : Memory.read (Memory.erase m k) k = 0 := by
  induction m with
  | nil => rfl
  | cons c rest ih =>
    obtain ⟨a, b⟩ := c
    by_cases h : a = k <;> simp [Memory.erase, Memory.read, h, ih]

theorem read_erase_other (m : Memory) {k j : Nat} (h : j ≠ k) :
    Memory.read (Memory.erase m k) j = Memory.read m j := by
  induction m with
  | nil => rfl
  | cons c rest ih =>
    obtain ⟨a, b⟩ := c
    by_cases ha : a = k
    · subst ha
      simp [Memory.erase, Memory.read, ih, Ne.symm h]
    · simp [Memory.erase, Memory.read, ha, ih]

theorem read_insert_same {m : Memory} {k : Nat} (v : Byte) (h : ∀ c ∈ m, c.1 ≠ k) :
    Memory.read (Memory.insert m k v) k = v := by
  induction m with
  | nil => simp [Memory.insert, Memory.read]
  | cons c rest ih =>
    obtain ⟨a, b⟩ := c
    have ha : a ≠ k := h (a, b) (by simp)
    have ih := ih fun c hc => h c (by simp [hc])
    by_cases hk : k < a <;> simp [Memory.insert, Memory.read, hk, ha, ih]

theorem read_insert_other (m : Memory) {k j : Nat} (v : Byte) (h : j ≠ k) :
    Memory.read (Memory.insert m k v) j = Memory.read m j := by
  induction m with
  | nil => simp [Memory.insert, Memory.read, Ne.symm h]
  | cons c rest ih =>
    obtain ⟨a, b⟩ := c
    by_cases hk : k < a <;> simp [Memory.insert, Memory.read, hk, Ne.symm h, ih]

theorem erase_keys (m : Memory) (k : Nat) : ∀ c ∈ Memory.erase m k, c.1 ≠ k := by
  induction m with
  | nil => simp [Memory.erase]
  | cons c rest ih =>
    obtain ⟨a, b⟩ := c
    by_cases h : a = k
    · simpa [Memory.erase, h] using ih
    · intro c hc
      simp only [Memory.erase, h, if_false, List.mem_cons] at hc
      obtain rfl | hc := hc
      · exact h
      · exact ih c hc

@[simp] theorem read_write_same (m : Memory) (k : Nat) (v : Byte) :
    Memory.read (Memory.write m k v) k = v := by
  unfold Memory.write
  split
  · next h => rw [read_erase_same, h]
  · exact read_insert_same v (erase_keys m k)

theorem read_write_other (m : Memory) {k j : Nat} (v : Byte) (h : j ≠ k) :
    Memory.read (Memory.write m k v) j = Memory.read m j := by
  unfold Memory.write
  split
  · exact read_erase_other m h
  · rw [read_insert_other _ v h, read_erase_other m h]

@[simp] theorem read_nil (k : Nat) : Memory.read [] k = 0 := rfl

@[simp] theorem word_nil (a : Addr) : Memory.word [] a = 0 := by
  simp [Memory.word]

/-- A read after a write to the same address gives the word written. -/
@[simp] theorem word_setWord_same (m : Memory) (a : Addr) (v : Word) :
    Memory.word (Memory.setWord m a v) a = v := by
  unfold Memory.word Memory.setWord
  rw [read_write_same, read_write_other _ _ (by omega), read_write_same, highByte_append_lowByte]

/-- A write leaves every cell of another word alone. -/
theorem read_setWord_other (m : Memory) (a : Addr) (v : Word) {k : Nat} (h0 : k ≠ 2 * a.toNat)
    (h1 : k ≠ 2 * a.toNat + 1) : Memory.read (Memory.setWord m a v) k = Memory.read m k := by
  unfold Memory.setWord
  rw [read_write_other _ _ h1, read_write_other _ _ h0]

/-- A write leaves every other word alone. -/
theorem word_setWord_other (m : Memory) {a b : Addr} (v : Word) (h : b ≠ a) :
    Memory.word (Memory.setWord m a v) b = Memory.word m b := by
  have hn : b.toNat ≠ a.toNat := fun e => h (BitVec.eq_of_toNat_eq e)
  unfold Memory.word
  rw [read_setWord_other _ _ _ (by omega) (by omega), read_setWord_other _ _ _ (by omega) (by omega)]

theorem word_setWord (m : Memory) (a b : Addr) (v : Word) :
    Memory.word (Memory.setWord m a v) b = if b = a then v else Memory.word m b := by
  by_cases h : b = a
  · subst h; simp
  · simp [h, word_setWord_other m v h]

/-! The canonical form. -/

theorem wfFrom_mono {lo lo' : Nat} (m : Memory) (h : Memory.wfFrom lo m = true) (hle : lo' ≤ lo) :
    Memory.wfFrom lo' m = true := by
  cases m with
  | nil => rfl
  | cons c rest =>
    obtain ⟨a, b⟩ := c
    simp only [Memory.wfFrom, Bool.and_eq_true, decide_eq_true_eq] at h ⊢
    exact ⟨⟨⟨by omega, h.1.1.2⟩, h.1.2⟩, h.2⟩

theorem wfFrom_erase {lo : Nat} (m : Memory) (k : Nat) (h : Memory.wfFrom lo m = true) :
    Memory.wfFrom lo (Memory.erase m k) = true := by
  induction m generalizing lo with
  | nil => rfl
  | cons c rest ih =>
    obtain ⟨a, b⟩ := c
    simp only [Memory.wfFrom, Bool.and_eq_true, decide_eq_true_eq] at h
    by_cases hk : a = k
    · simp only [Memory.erase, hk, if_true]
      exact ih (wfFrom_mono rest h.2 (by omega))
    · simp only [Memory.erase, hk, if_false, Memory.wfFrom, Bool.and_eq_true, decide_eq_true_eq]
      exact ⟨h.1, ih h.2⟩

theorem wfFrom_insert {lo : Nat} {m : Memory} {k : Nat} {v : Byte} (h : Memory.wfFrom lo m = true)
    (hlo : lo ≤ k) (hk : k < 4096) (hv : v ≠ 0) (hne : ∀ c ∈ m, c.1 ≠ k) :
    Memory.wfFrom lo (Memory.insert m k v) = true := by
  induction m generalizing lo with
  | nil =>
    simp only [Memory.insert, Memory.wfFrom, Bool.and_eq_true, decide_eq_true_eq]
    exact ⟨⟨⟨hlo, hk⟩, hv⟩, trivial⟩
  | cons c rest ih =>
    obtain ⟨a, b⟩ := c
    have ha : a ≠ k := hne (a, b) (by simp)
    simp only [Memory.wfFrom, Bool.and_eq_true, decide_eq_true_eq] at h
    by_cases hka : k < a
    · simp only [Memory.insert, hka, if_true, Memory.wfFrom, Bool.and_eq_true, decide_eq_true_eq]
      exact ⟨⟨⟨hlo, hk⟩, hv⟩, ⟨⟨by omega, h.1.1.2⟩, h.1.2⟩, h.2⟩
    · simp only [Memory.insert, hka, if_false, Memory.wfFrom, Bool.and_eq_true, decide_eq_true_eq]
      exact ⟨h.1, ih h.2 (by omega) fun c hc => hne c (by simp [hc])⟩

theorem wf_write {m : Memory} {k : Nat} (v : Byte) (h : Memory.wf m = true) (hk : k < 4096) :
    Memory.wf (Memory.write m k v) = true := by
  unfold Memory.write
  split
  · exact wfFrom_erase m k h
  · next hv => exact wfFrom_insert (wfFrom_erase m k h) (Nat.zero_le k) hk hv (erase_keys m k)

/-- Every memory operation keeps the canonical form. -/
theorem wf_setWord {m : Memory} (a : Addr) (v : Word) (h : Memory.wf m = true) :
    Memory.wf (Memory.setWord m a v) = true := by
  have := a.isLt
  exact wf_write _ (wf_write _ h (by omega)) (by omega)

theorem wf_nil : Memory.wf [] = true := rfl

end Sys2Proof.Laws
end

