-- ==== Sys2Proof/Laws/Cache.lean ====
section
/-! SUPPORT. Laws of the cache: what each operation does to a line and to the queue, that the three invariants
of spec/10_state.md R46 and the fill order of spec/20_memory.md R88 are kept. -/

namespace Sys2Proof.Laws

open Sys2Proof Sys2Proof.Machine

theorem mem_lineIdxs (k : LineIdx) : k ∈ lineIdxs := by
  revert k; decide

theorem line_fill (c : Cache) (k : LineIdx) (q : List LineIdx) (a : Addr) (w : Word) (j : LineIdx) :
    (c.fill k q a w).line j = if j = k then { valid := true, tag := a, data := w } else c.line j := by
  by_cases h : j = k
  · subst h; simp [Cache.line, Cache.fill]
  · have : ¬ k.val = j.val := fun e => h (Fin.ext e.symm)
    simp [Cache.line, Cache.fill, h, this]

@[simp] theorem queue_fill (c : Cache) (k : LineIdx) (q : List LineIdx) (a : Addr) (w : Word) :
    (c.fill k q a w).queue = q ++ [k] := rfl

theorem line_setData (c : Cache) (k : LineIdx) (w : Word) (j : LineIdx) :
    (c.setData k w).line j = if j = k then { c.line k with data := w } else c.line j := by
  by_cases h : j = k
  · subst h; simp [Cache.line, Cache.setData]
  · have : ¬ k.val = j.val := fun e => h (Fin.ext e.symm)
    simp [Cache.line, Cache.setData, h, this]

@[simp] theorem queue_setData (c : Cache) (k : LineIdx) (w : Word) : (c.setData k w).queue = c.queue := rfl

@[simp] theorem valid_setData (c : Cache) (k : LineIdx) (w : Word) (j : LineIdx) :
    ((c.setData k w).line j).valid = (c.line j).valid := by
  rw [line_setData]; split <;> simp_all

@[simp] theorem tag_setData (c : Cache) (k : LineIdx) (w : Word) (j : LineIdx) :
    ((c.setData k w).line j).tag = (c.line j).tag := by
  rw [line_setData]; split <;> simp_all

/-- A hit's line is valid and has the tag (R82). -/
theorem hit_some {c : Cache} {a : Addr} {k : LineIdx} (h : c.hit? a = some k) :
    (c.line k).valid = true ∧ (c.line k).tag = a := by
  have := List.find?_some h
  simpa using this

/-- A miss: no valid line has the tag (R82). -/
theorem hit_none {c : Cache} {a : Addr} : c.hit? a = none ↔
    ∀ k : LineIdx, (c.line k).valid = true → (c.line k).tag ≠ a := by
  unfold Cache.hit?
  rw [List.find?_eq_none]
  constructor
  · intro h k hv ht
    exact h k (mem_lineIdxs k) (by simp [hv, ht])
  · intro h k _ hk
    simp only [Bool.and_eq_true, beq_iff_eq] at hk
    exact h k hk.1 hk.2

/-- With unique tags a valid line with the tag is the hit. -/
theorem hit_eq {c : Cache} {a : Addr} {k : LineIdx} (hu : UniqueTags c) (hv : (c.line k).valid = true)
    (ht : (c.line k).tag = a) : c.hit? a = some k := by
  cases h : c.hit? a with
  | none => exact absurd ht (hit_none.mp h k hv)
  | some j =>
    obtain ⟨hj, htj⟩ := hit_some h
    rw [hu j k hj hv (htj.trans ht.symm)]

theorem free_some {c : Cache} {k : LineIdx} (h : c.free? = some k) :
    (c.line k).valid = false ∧ ∀ j : LineIdx, j < k → (c.line j).valid = true := by
  unfold Cache.free? at h
  refine ⟨by simpa using List.find?_some h, ?_⟩
  obtain ⟨_, i, hi, hik, hlt⟩ := List.find?_eq_some_iff_getElem.mp h
  have hi' : i < 16 := hi
  have hval : ∀ n : Nat, ∀ hn : n < lineIdxs.length, (lineIdxs[n]).val = n := by decide
  intro j hj
  have hik' : i = k.val := by rw [← hik]; exact (hval i hi).symm
  have hji : j.val < i := by rw [hik']; exact hj
  have hjl : j.val < lineIdxs.length := j.isLt
  have heq : lineIdxs[j.val] = j := Fin.ext (hval j.val hjl)
  have := hlt j.val hji
  rw [heq] at this
  simpa using this

theorem free_none {c : Cache} : c.free? = none ↔ ∀ k : LineIdx, (c.line k).valid = true := by
  unfold Cache.free?
  rw [List.find?_eq_none]
  constructor
  · intro h k
    simpa using h k (mem_lineIdxs k)
  · intro h k _
    simp [h k]

/-! What a miss installs (R85). -/

/-- The line an install fills, and the queue it appends to. -/
theorem install_cases (c : Cache) (a : Addr) (w : Word) :
    (∃ k, c.free? = some k ∧ c.install a w = c.fill k c.queue a w) ∨
    (c.free? = none ∧ c.install a w = c.fill (c.queue.headD 0) c.queue.tail a w) := by
  unfold Cache.install
  cases h : c.free? with
  | some k => exact .inl ⟨k, rfl, rfl⟩
  | none => exact .inr ⟨rfl, rfl⟩

/-! The invariants (R46). -/

theorem coherent_setWord_of_miss {c : Cache} {m : Memory} {a : Addr} (w : Word) (h : Coherent c m)
    (hm : c.hit? a = none) : Coherent c (Memory.setWord m a w) := by
  intro k hv
  rw [word_setWord_other m w (hit_none.mp hm k hv)]
  exact h k hv

theorem unique_fill {c : Cache} {a : Addr} (k : LineIdx) (q : List LineIdx) (w : Word) (h : UniqueTags c)
    (hm : c.hit? a = none) : UniqueTags (c.fill k q a w) := by
  intro i j hi hj ht
  rw [line_fill] at hi ht
  rw [line_fill] at hj ht
  by_cases h1 : i = k <;> by_cases h2 : j = k
  · rw [h1, h2]
  · simp only [h1, h2, if_true, if_false] at hj ht
    exact absurd ht.symm (hit_none.mp hm j hj)
  · simp only [h1, h2, if_true, if_false] at hi ht
    exact absurd ht (hit_none.mp hm i hi)
  · simp only [h1, h2, if_false] at hi hj ht
    exact h i j hi hj ht

theorem coherent_fill {c : Cache} {m : Memory} {a : Addr} {w : Word} (k : LineIdx) (q : List LineIdx)
    (h : Coherent c m) (hw : m.word a = w) : Coherent (c.fill k q a w) m := by
  intro j hj
  rw [line_fill] at hj ⊢
  by_cases hk : j = k
  · simp [hk, hw]
  · simp only [hk, if_false] at hj ⊢
    exact h j hj

theorem queue_install {c : Cache} (a : Addr) (w : Word) (h : QueueOfValid c) :
    QueueOfValid (c.install a w) := by
  obtain ⟨hn, hq⟩ := h
  obtain ⟨k, hk, e⟩ | ⟨hk, e⟩ := install_cases c a w
  · rw [e]
    have hnk : k ∉ c.queue := by
      rw [hq, (free_some hk).1]; simp
    refine ⟨?_, ?_⟩
    · rw [queue_fill]
      exact List.Nodup.append hn (List.nodup_singleton k) (by simpa [List.disjoint_singleton] using hnk)
    · intro j
      rw [line_fill, queue_fill, List.mem_append, hq j, List.mem_singleton]
      by_cases hj : j = k <;> simp [hj]
  · rw [e]
    have hall := free_none.mp hk
    have h0 : (0 : LineIdx) ∈ c.queue := (hq 0).mpr (hall 0)
    obtain ⟨x, t, hxt⟩ : ∃ x t, c.queue = x :: t := by
      cases hc : c.queue with
      | nil => simp [hc] at h0
      | cons x t => exact ⟨x, t, rfl⟩
    have hxn : x ∉ t ∧ t.Nodup := by rw [hxt] at hn; exact List.nodup_cons.mp hn
    rw [hxt]
    refine ⟨?_, ?_⟩
    · rw [queue_fill]
      exact List.Nodup.append hxn.2 (List.nodup_singleton _)
        (by simpa [List.disjoint_singleton] using hxn.1)
    · intro j
      have := hq j
      rw [hxt, List.mem_cons, hall j] at this
      rw [line_fill, queue_fill, List.mem_append, List.mem_singleton]
      simp only [List.tail_cons, List.headD_cons]
      by_cases hj : j = x
      · simp [hj]
      · simp only [hj, false_or, or_false, if_false, hall j] at this ⊢
        exact this

/-- An install after a miss keeps the invariants for a memory that holds the installed word. -/
theorem cacheInv_install {c : Cache} {m : Memory} {a : Addr} {w : Word} (hu : UniqueTags c)
    (hq : QueueOfValid c) (hc : Coherent c m) (hm : c.hit? a = none) (hw : m.word a = w) :
    CacheInv (c.install a w) m := by
  refine ⟨?_, queue_install a w hq, ?_⟩
  · obtain ⟨k, _, e⟩ | ⟨_, e⟩ := install_cases c a w <;> rw [e] <;> exact unique_fill _ _ _ hu hm
  · obtain ⟨k, _, e⟩ | ⟨_, e⟩ := install_cases c a w <;> rw [e] <;> exact coherent_fill _ _ hc hw

/-- An in-place update after a hit keeps the invariants for the written memory. -/
theorem cacheInv_setData {c : Cache} {m : Memory} {a : Addr} {k : LineIdx} (w : Word) (h : CacheInv c m)
    (hk : c.hit? a = some k) : CacheInv (c.setData k w) (Memory.setWord m a w) := by
  obtain ⟨hv, ht⟩ := hit_some hk
  refine ⟨?_, ?_, ?_⟩
  · intro i j hi hj hij
    simp only [valid_setData, tag_setData] at hi hj hij
    exact h.unique i j hi hj hij
  · simpa [QueueOfValid] using h.queue
  · intro j hj
    rw [valid_setData] at hj
    rw [tag_setData, line_setData]
    by_cases hjk : j = k
    · simp [hjk, ht]
    · have hne : (c.line j).tag ≠ a := fun e => hjk (h.unique j k hj hv (e.trans ht.symm))
      simp only [hjk, if_false]
      rw [word_setWord_other m w hne]
      exact h.coherent j hj

theorem cacheInv_afterRead {c : Cache} {m : Memory} (a : Addr) (h : CacheInv c m) :
    CacheInv (c.afterRead a (m.word a)) m := by
  unfold Cache.afterRead
  cases hh : c.hit? a with
  | some k => exact h
  | none => exact cacheInv_install h.unique h.queue h.coherent hh rfl

theorem cacheInv_afterWrite {c : Cache} {m : Memory} (a : Addr) (w : Word) (h : CacheInv c m) :
    CacheInv (c.afterWrite a w) (Memory.setWord m a w) := by
  unfold Cache.afterWrite
  cases hh : c.hit? a with
  | some k => exact cacheInv_setData w h hh
  | none =>
    exact cacheInv_install h.unique h.queue (coherent_setWord_of_miss w h.coherent hh) hh
      (word_setWord_same m a w)

theorem cacheInv_afterLoad {c : Cache} {m : Memory} (a : Addr) (w : Word) (h : CacheInv c m) :
    CacheInv (c.afterLoad a w) (Memory.setWord m a w) := by
  unfold Cache.afterLoad
  cases hh : c.hit? a with
  | some k => exact cacheInv_setData w h hh
  | none => exact ⟨h.unique, h.queue, coherent_setWord_of_miss w h.coherent hh⟩

theorem line_reset (k : LineIdx) : Cache.reset.line k = { valid := false, tag := 0, data := 0 } := by
  simp [Cache.line, Cache.reset]

theorem cacheInv_reset (m : Memory) : CacheInv Cache.reset m := by
  refine ⟨?_, ⟨List.nodup_nil, ?_⟩, ?_⟩
  · intro j k hj; simp [line_reset] at hj
  · intro k; rw [line_reset]; simp [Cache.reset]
  · intro k hk; simp [line_reset] at hk

/-! The fill order (R88). -/

theorem fillOrder_setData {c : Cache} (k : LineIdx) (w : Word) (h : FillOrder c) :
    FillOrder (c.setData k w) := by
  simpa [FillOrder] using h

/-- While lines are invalid an install fills line n and appends n. -/
theorem take_succ_lineIdxs : ∀ k : LineIdx, lineIdxs.take k.val ++ [k] = lineIdxs.take (k.val + 1) := by
  decide

/-- A full queue moves on by one. -/
theorem rotate_succ_lineIdxs : ∀ h : Fin 16, ∃ h' : Fin 16,
    (lineIdxs.rotate h.val).tail ++ [(lineIdxs.rotate h.val).headD 0] = lineIdxs.rotate h'.val := by
  decide

theorem fillOrder_full {c : Cache} (h : FillOrder c) (hall : ∀ k : LineIdx, (c.line k).valid = true) :
    ∃ r : Fin 16, c.queue = lineIdxs.rotate r.val := by
  obtain ⟨n, hn, hq, hv⟩ | ⟨r, hr, hq, _⟩ := h
  · have h15 : (15 : Nat) < n := (hv 15).mp (hall 15)
    have : n = 16 := by omega
    subst this
    exact ⟨0, by rw [hq]; decide⟩
  · exact ⟨⟨r, hr⟩, hq⟩

theorem fillOrder_install {c : Cache} (a : Addr) (w : Word) (h : FillOrder c) :
    FillOrder (c.install a w) := by
  obtain ⟨k, hk, e⟩ | ⟨hk, e⟩ := install_cases c a w
  · rw [e]
    obtain ⟨hkv, hlt⟩ := free_some hk
    obtain ⟨n, hn, hq, hv⟩ | ⟨_, _, _, hv⟩ := h
    · have hkn : k.val = n := by
        have h1 : ¬ k.val < n := fun hc => by
          have := (hv k).mpr hc
          rw [hkv] at this
          exact Bool.noConfusion this
        by_contra hne
        have hnk : n < k.val := by omega
        have hn16 : n < 16 := by have := k.isLt; omega
        have := (hv ⟨n, hn16⟩).mp (hlt ⟨n, hn16⟩ hnk)
        simp at this
      refine .inl ⟨n + 1, by have := k.isLt; omega, ?_, ?_⟩
      · rw [queue_fill, hq, ← hkn]
        exact take_succ_lineIdxs k
      · intro j
        rw [line_fill]
        by_cases hj : j = k
        · simp [hj, hkn]
        · have hjn : j.val ≠ n := fun hc => hj (Fin.ext (hc.trans hkn.symm))
          simp only [hj, if_false, hv j]
          omega
    · rw [hv k] at hkv
      exact Bool.noConfusion hkv
  · rw [e]
    have hall := free_none.mp hk
    obtain ⟨r, hr⟩ := fillOrder_full h hall
    obtain ⟨r', hr'⟩ := rotate_succ_lineIdxs r
    refine .inr ⟨r'.val, r'.isLt, ?_, ?_⟩
    · rw [queue_fill, hr]
      exact hr'
    · intro j
      rw [line_fill]
      split
      · rfl
      · exact hall j

theorem fillOrder_afterRead {c : Cache} (a : Addr) (w : Word) (h : FillOrder c) :
    FillOrder (c.afterRead a w) := by
  unfold Cache.afterRead
  split
  · exact h
  · exact fillOrder_install a w h

theorem fillOrder_afterWrite {c : Cache} (a : Addr) (w : Word) (h : FillOrder c) :
    FillOrder (c.afterWrite a w) := by
  unfold Cache.afterWrite
  split
  · exact fillOrder_setData _ w h
  · exact fillOrder_install a w h

theorem fillOrder_afterLoad {c : Cache} (a : Addr) (w : Word) (h : FillOrder c) :
    FillOrder (c.afterLoad a w) := by
  unfold Cache.afterLoad
  split
  · exact fillOrder_setData _ w h
  · exact h

theorem fillOrder_reset : FillOrder Cache.reset :=
  .inl ⟨0, by omega, rfl, fun k => by simp [line_reset]⟩

end Sys2Proof.Laws
end

