-- ==== Sys2Proof/Laws/Decode.lean ====
section
/-! SUPPORT. Laws of the encoding: each field of a packed word reads back (one lemma per format and field). -/

namespace Sys2Proof.Laws

open Sys2Proof

@[simp] theorem Reg_ofBits_bits (r : Reg) : Reg.ofBits r.bits = r := by cases r <;> rfl
@[simp] theorem IxSel_ofBits_bits (x : IxSel) : IxSel.ofBits x.bits = x := by cases x <;> rfl

theorem packMem_opcode (op : BitVec 6) (r : BitVec 2) (m : MemOperand) :
    opcodeOf (packMem op r m) = op := by
  apply BitVec.eq_of_getLsbD_eq
  intro i hi
  interval_cases i <;> simp [opcodeOf, packMem, fieldAt]

theorem packMem_r (op : BitVec 6) (r : BitVec 2) (m : MemOperand) :
    (packMem op r m).extractLsb' 8 2 = r := by
  apply BitVec.eq_of_getLsbD_eq
  intro i hi
  interval_cases i <;> simp [packMem, fieldAt]

theorem packMem_ix (op : BitVec 6) (r : BitVec 2) (m : MemOperand) :
    (packMem op r m).extractLsb' 6 2 = m.ix.bits := by
  apply BitVec.eq_of_getLsbD_eq
  intro i hi
  interval_cases i <;> simp [packMem, fieldAt]

theorem packMem_indirect (op : BitVec 6) (r : BitVec 2) (m : MemOperand) :
    (packMem op r m).getLsbD 5 = m.indirect := by
  simp [packMem, fieldAt]

theorem packMem_address (op : BitVec 6) (r : BitVec 2) (m : MemOperand) :
    (packMem op r m).extractLsb' 0 5 = m.address := by
  apply BitVec.eq_of_getLsbD_eq
  intro i hi
  interval_cases i <;> simp [packMem, fieldAt]

theorem memField_packMem (op : BitVec 6) (r : BitVec 2) (m : MemOperand) : memField (packMem op r m) = m := by
  unfold memField ixField indirectField low5Field
  rw [packMem_ix, packMem_indirect, packMem_address, IxSel_ofBits_bits]

theorem packImm_opcode (op : BitVec 6) (r : BitVec 2) (v : BitVec 5) :
    opcodeOf (packImm op r v) = op := by
  apply BitVec.eq_of_getLsbD_eq
  intro i hi
  interval_cases i <;> simp [opcodeOf, packImm, fieldAt]

theorem packImm_r (op : BitVec 6) (r : BitVec 2) (v : BitVec 5) :
    (packImm op r v).extractLsb' 8 2 = r := by
  apply BitVec.eq_of_getLsbD_eq
  intro i hi
  interval_cases i <;> simp [packImm, fieldAt]

theorem packImm_low5 (op : BitVec 6) (r : BitVec 2) (v : BitVec 5) :
    (packImm op r v).extractLsb' 0 5 = v := by
  apply BitVec.eq_of_getLsbD_eq
  intro i hi
  interval_cases i <;> simp [packImm, fieldAt]

theorem packRegReg_opcode (op : BitVec 6) (rx ry : BitVec 2) :
    opcodeOf (packRegReg op rx ry) = op := by
  apply BitVec.eq_of_getLsbD_eq
  intro i hi
  interval_cases i <;> simp [opcodeOf, packRegReg, fieldAt]

theorem packRegReg_rx (op : BitVec 6) (rx ry : BitVec 2) :
    (packRegReg op rx ry).extractLsb' 8 2 = rx := by
  apply BitVec.eq_of_getLsbD_eq
  intro i hi
  interval_cases i <;> simp [packRegReg, fieldAt]

theorem packRegReg_ry (op : BitVec 6) (rx ry : BitVec 2) :
    (packRegReg op rx ry).extractLsb' 6 2 = ry := by
  apply BitVec.eq_of_getLsbD_eq
  intro i hi
  interval_cases i <;> simp [packRegReg, fieldAt]

theorem packShift_opcode (op : BitVec 6) (r : BitVec 2) (al lr : Bool) (count : BitVec 4) :
    opcodeOf (packShift op r al lr count) = op := by
  apply BitVec.eq_of_getLsbD_eq
  intro i hi
  interval_cases i <;> simp [opcodeOf, packShift, fieldAt]

theorem packShift_r (op : BitVec 6) (r : BitVec 2) (al lr : Bool) (count : BitVec 4) :
    (packShift op r al lr count).extractLsb' 8 2 = r := by
  apply BitVec.eq_of_getLsbD_eq
  intro i hi
  interval_cases i <;> simp [packShift, fieldAt]

theorem packShift_al (op : BitVec 6) (r : BitVec 2) (al lr : Bool) (count : BitVec 4) :
    (packShift op r al lr count).getLsbD 7 = al := by
  simp [packShift, fieldAt]

theorem packShift_lr (op : BitVec 6) (r : BitVec 2) (al lr : Bool) (count : BitVec 4) :
    (packShift op r al lr count).getLsbD 6 = lr := by
  simp [packShift, fieldAt]

theorem packShift_count (op : BitVec 6) (r : BitVec 2) (al lr : Bool) (count : BitVec 4) :
    (packShift op r al lr count).extractLsb' 0 4 = count := by
  apply BitVec.eq_of_getLsbD_eq
  intro i hi
  interval_cases i <;> simp [packShift, fieldAt]

theorem packTrap_opcode (op : BitVec 6) (code : BitVec 4) : opcodeOf (packTrap op code) = op := by
  apply BitVec.eq_of_getLsbD_eq
  intro i hi
  interval_cases i <;> simp [opcodeOf, packTrap, fieldAt]

theorem packTrap_code (op : BitVec 6) (code : BitVec 4) :
    (packTrap op code).extractLsb' 0 4 = code := by
  apply BitVec.eq_of_getLsbD_eq
  intro i hi
  interval_cases i <;> simp [packTrap, fieldAt]

/-- A word's opcode is that of its match pattern. -/
theorem opcodeOf_of_match {w pattern : Word} (h : w &&& 0xFC00 = pattern) : opcodeOf w = opcodeOf pattern := by
  subst h
  apply BitVec.eq_of_getLsbD_eq
  intro i hi
  interval_cases i <;> simp [opcodeOf]

theorem dirField_of_bit {w : Word} {d : ShiftDir} (h : w.getLsbD 6 = d.isLeft) : dirField w = d := by
  simp only [dirField, h]
  cases d <;> rfl

theorem kindField_of_bit {w : Word} {k : ShiftKind} (h : w.getLsbD 7 = k.isArithmetic) :
    kindField w = k := by
  simp only [kindField, h]
  cases k <;> rfl

end Sys2Proof.Laws
end

