-- ==== Sys2Proof/Laws/State.lean ====
section
/-! SUPPORT. The fields of the state after each named update: one lemma per field per update, so that no proof
unfolds a record update; and the three register accessors after each update. -/

namespace Sys2Proof.Laws

open Sys2Proof Sys2Proof.Machine

/-! `setReg` -/

@[simp] theorem setReg_gpr (s : State) (r : Reg) (v : Word) : (s.setReg r v).gpr = s.gpr.set (regIdx r) v := rfl
@[simp] theorem setReg_ixr (s : State) (r : Reg) (v : Word) : (s.setReg r v).ixr = s.ixr := rfl
@[simp] theorem setReg_pc (s : State) (r : Reg) (v : Word) : (s.setReg r v).pc = s.pc := rfl
@[simp] theorem setReg_ir (s : State) (r : Reg) (v : Word) : (s.setReg r v).ir = s.ir := rfl
@[simp] theorem setReg_cc (s : State) (r : Reg) (v : Word) : (s.setReg r v).cc = s.cc := rfl
@[simp] theorem setReg_mfr (s : State) (r : Reg) (v : Word) : (s.setReg r v).mfr = s.mfr := rfl
@[simp] theorem setReg_mar (s : State) (r : Reg) (v : Word) : (s.setReg r v).mar = s.mar := rfl
@[simp] theorem setReg_mbr (s : State) (r : Reg) (v : Word) : (s.setReg r v).mbr = s.mbr := rfl
@[simp] theorem setReg_cache (s : State) (r : Reg) (v : Word) : (s.setReg r v).cache = s.cache := rfl
@[simp] theorem setReg_runState (s : State) (r : Reg) (v : Word) : (s.setReg r v).runState = s.runState := rfl
@[simp] theorem setReg_mem (s : State) (r : Reg) (v : Word) : (s.setReg r v).mem = s.mem := rfl
@[simp] theorem setReg_dev (s : State) (r : Reg) (v : Word) : (s.setReg r v).dev = s.dev := rfl
@[simp] theorem setReg_xreg (s : State) (r : Reg) (v : Word) (y : XReg) : (s.setReg r v).xreg y = s.xreg y := rfl
@[simp] theorem setReg_flag (s : State) (r : Reg) (v : Word) (g : Flag) : (s.setReg r v).flag g = s.flag g := rfl

/-! `setXreg` -/

@[simp] theorem setXreg_gpr (s : State) (x : XReg) (v : Word) : (s.setXreg x v).gpr = s.gpr := rfl
@[simp] theorem setXreg_ixr (s : State) (x : XReg) (v : Word) : (s.setXreg x v).ixr = s.ixr.set (xregIdx x) v := rfl
@[simp] theorem setXreg_pc (s : State) (x : XReg) (v : Word) : (s.setXreg x v).pc = s.pc := rfl
@[simp] theorem setXreg_ir (s : State) (x : XReg) (v : Word) : (s.setXreg x v).ir = s.ir := rfl
@[simp] theorem setXreg_cc (s : State) (x : XReg) (v : Word) : (s.setXreg x v).cc = s.cc := rfl
@[simp] theorem setXreg_mfr (s : State) (x : XReg) (v : Word) : (s.setXreg x v).mfr = s.mfr := rfl
@[simp] theorem setXreg_mar (s : State) (x : XReg) (v : Word) : (s.setXreg x v).mar = s.mar := rfl
@[simp] theorem setXreg_mbr (s : State) (x : XReg) (v : Word) : (s.setXreg x v).mbr = s.mbr := rfl
@[simp] theorem setXreg_cache (s : State) (x : XReg) (v : Word) : (s.setXreg x v).cache = s.cache := rfl
@[simp] theorem setXreg_runState (s : State) (x : XReg) (v : Word) : (s.setXreg x v).runState = s.runState := rfl
@[simp] theorem setXreg_mem (s : State) (x : XReg) (v : Word) : (s.setXreg x v).mem = s.mem := rfl
@[simp] theorem setXreg_dev (s : State) (x : XReg) (v : Word) : (s.setXreg x v).dev = s.dev := rfl
@[simp] theorem setXreg_reg (s : State) (x : XReg) (v : Word) (q : Reg) : (s.setXreg x v).reg q = s.reg q := rfl
@[simp] theorem setXreg_flag (s : State) (x : XReg) (v : Word) (g : Flag) : (s.setXreg x v).flag g = s.flag g := rfl

/-! `setFlag` -/

@[simp] theorem setFlag_gpr (s : State) (f : Flag) (b : Bool) : (s.setFlag f b).gpr = s.gpr := rfl
@[simp] theorem setFlag_ixr (s : State) (f : Flag) (b : Bool) : (s.setFlag f b).ixr = s.ixr := rfl
@[simp] theorem setFlag_pc (s : State) (f : Flag) (b : Bool) : (s.setFlag f b).pc = s.pc := rfl
@[simp] theorem setFlag_ir (s : State) (f : Flag) (b : Bool) : (s.setFlag f b).ir = s.ir := rfl
@[simp] theorem setFlag_cc (s : State) (f : Flag) (b : Bool) : (s.setFlag f b).cc = writeFlag s.cc f b := rfl
@[simp] theorem setFlag_mfr (s : State) (f : Flag) (b : Bool) : (s.setFlag f b).mfr = s.mfr := rfl
@[simp] theorem setFlag_mar (s : State) (f : Flag) (b : Bool) : (s.setFlag f b).mar = s.mar := rfl
@[simp] theorem setFlag_mbr (s : State) (f : Flag) (b : Bool) : (s.setFlag f b).mbr = s.mbr := rfl
@[simp] theorem setFlag_cache (s : State) (f : Flag) (b : Bool) : (s.setFlag f b).cache = s.cache := rfl
@[simp] theorem setFlag_runState (s : State) (f : Flag) (b : Bool) : (s.setFlag f b).runState = s.runState := rfl
@[simp] theorem setFlag_mem (s : State) (f : Flag) (b : Bool) : (s.setFlag f b).mem = s.mem := rfl
@[simp] theorem setFlag_dev (s : State) (f : Flag) (b : Bool) : (s.setFlag f b).dev = s.dev := rfl
@[simp] theorem setFlag_reg (s : State) (f : Flag) (b : Bool) (q : Reg) : (s.setFlag f b).reg q = s.reg q := rfl
@[simp] theorem setFlag_xreg (s : State) (f : Flag) (b : Bool) (y : XReg) : (s.setFlag f b).xreg y = s.xreg y := rfl

/-! `loadPc` -/

@[simp] theorem loadPc_gpr (s : State) (v : Word) : (s.loadPc v).gpr = s.gpr := rfl
@[simp] theorem loadPc_ixr (s : State) (v : Word) : (s.loadPc v).ixr = s.ixr := rfl
@[simp] theorem loadPc_pc (s : State) (v : Word) : (s.loadPc v).pc = addrPc (low11 v) := rfl
@[simp] theorem loadPc_ir (s : State) (v : Word) : (s.loadPc v).ir = s.ir := rfl
@[simp] theorem loadPc_cc (s : State) (v : Word) : (s.loadPc v).cc = s.cc := rfl
@[simp] theorem loadPc_mfr (s : State) (v : Word) : (s.loadPc v).mfr = s.mfr := rfl
@[simp] theorem loadPc_mar (s : State) (v : Word) : (s.loadPc v).mar = s.mar := rfl
@[simp] theorem loadPc_mbr (s : State) (v : Word) : (s.loadPc v).mbr = s.mbr := rfl
@[simp] theorem loadPc_cache (s : State) (v : Word) : (s.loadPc v).cache = s.cache := rfl
@[simp] theorem loadPc_runState (s : State) (v : Word) : (s.loadPc v).runState = s.runState := rfl
@[simp] theorem loadPc_mem (s : State) (v : Word) : (s.loadPc v).mem = s.mem := rfl
@[simp] theorem loadPc_dev (s : State) (v : Word) : (s.loadPc v).dev = s.dev := rfl
@[simp] theorem loadPc_reg (s : State) (v : Word) (q : Reg) : (s.loadPc v).reg q = s.reg q := rfl
@[simp] theorem loadPc_xreg (s : State) (v : Word) (y : XReg) : (s.loadPc v).xreg y = s.xreg y := rfl
@[simp] theorem loadPc_flag (s : State) (v : Word) (g : Flag) : (s.loadPc v).flag g = s.flag g := rfl

/-! `afterRead` -/

@[simp] theorem afterRead_gpr (s : State) (a : Addr) : (s.afterRead a).gpr = s.gpr := rfl
@[simp] theorem afterRead_ixr (s : State) (a : Addr) : (s.afterRead a).ixr = s.ixr := rfl
@[simp] theorem afterRead_pc (s : State) (a : Addr) : (s.afterRead a).pc = s.pc := rfl
@[simp] theorem afterRead_ir (s : State) (a : Addr) : (s.afterRead a).ir = s.ir := rfl
@[simp] theorem afterRead_cc (s : State) (a : Addr) : (s.afterRead a).cc = s.cc := rfl
@[simp] theorem afterRead_mfr (s : State) (a : Addr) : (s.afterRead a).mfr = s.mfr := rfl
@[simp] theorem afterRead_mar (s : State) (a : Addr) : (s.afterRead a).mar = a := rfl
@[simp] theorem afterRead_mbr (s : State) (a : Addr) : (s.afterRead a).mbr = s.readValue a := rfl
@[simp] theorem afterRead_cache (s : State) (a : Addr) : (s.afterRead a).cache = s.cache.afterRead a (s.mem.word a) := rfl
@[simp] theorem afterRead_runState (s : State) (a : Addr) : (s.afterRead a).runState = s.runState := rfl
@[simp] theorem afterRead_mem (s : State) (a : Addr) : (s.afterRead a).mem = s.mem := rfl
@[simp] theorem afterRead_dev (s : State) (a : Addr) : (s.afterRead a).dev = s.dev := rfl
@[simp] theorem afterRead_reg (s : State) (a : Addr) (q : Reg) : (s.afterRead a).reg q = s.reg q := rfl
@[simp] theorem afterRead_xreg (s : State) (a : Addr) (y : XReg) : (s.afterRead a).xreg y = s.xreg y := rfl
@[simp] theorem afterRead_flag (s : State) (a : Addr) (g : Flag) : (s.afterRead a).flag g = s.flag g := rfl

/-! `memWrite` -/

@[simp] theorem memWrite_gpr (s : State) (a : Addr) (v : Word) : (memWrite a v s).gpr = s.gpr := rfl
@[simp] theorem memWrite_ixr (s : State) (a : Addr) (v : Word) : (memWrite a v s).ixr = s.ixr := rfl
@[simp] theorem memWrite_pc (s : State) (a : Addr) (v : Word) : (memWrite a v s).pc = s.pc := rfl
@[simp] theorem memWrite_ir (s : State) (a : Addr) (v : Word) : (memWrite a v s).ir = s.ir := rfl
@[simp] theorem memWrite_cc (s : State) (a : Addr) (v : Word) : (memWrite a v s).cc = s.cc := rfl
@[simp] theorem memWrite_mfr (s : State) (a : Addr) (v : Word) : (memWrite a v s).mfr = s.mfr := rfl
@[simp] theorem memWrite_mar (s : State) (a : Addr) (v : Word) : (memWrite a v s).mar = a := rfl
@[simp] theorem memWrite_mbr (s : State) (a : Addr) (v : Word) : (memWrite a v s).mbr = s.mbr := rfl
@[simp] theorem memWrite_cache (s : State) (a : Addr) (v : Word) : (memWrite a v s).cache = s.cache.afterWrite a v := rfl
@[simp] theorem memWrite_runState (s : State) (a : Addr) (v : Word) : (memWrite a v s).runState = s.runState := rfl
@[simp] theorem memWrite_mem (s : State) (a : Addr) (v : Word) : (memWrite a v s).mem = s.mem.setWord a v := rfl
@[simp] theorem memWrite_dev (s : State) (a : Addr) (v : Word) : (memWrite a v s).dev = s.dev := rfl
@[simp] theorem memWrite_reg (s : State) (a : Addr) (v : Word) (q : Reg) : (memWrite a v s).reg q = s.reg q := rfl
@[simp] theorem memWrite_xreg (s : State) (a : Addr) (v : Word) (y : XReg) : (memWrite a v s).xreg y = s.xreg y := rfl
@[simp] theorem memWrite_flag (s : State) (a : Addr) (v : Word) (g : Flag) : (memWrite a v s).flag g = s.flag g := rfl

/-! `ready` -/

@[simp] theorem ready_gpr (s : State) : (s.ready).gpr = s.gpr := rfl
@[simp] theorem ready_ixr (s : State) : (s.ready).ixr = s.ixr := rfl
@[simp] theorem ready_pc (s : State) : (s.ready).pc = s.pc := rfl
@[simp] theorem ready_ir (s : State) : (s.ready).ir = s.ir := rfl
@[simp] theorem ready_cc (s : State) : (s.ready).cc = s.cc := rfl
@[simp] theorem ready_mfr (s : State) : (s.ready).mfr = s.mfr := rfl
@[simp] theorem ready_mar (s : State) : (s.ready).mar = s.mar := rfl
@[simp] theorem ready_mbr (s : State) : (s.ready).mbr = s.mbr := rfl
@[simp] theorem ready_cache (s : State) : (s.ready).cache = s.cache := rfl
@[simp] theorem ready_runState (s : State) : (s.ready).runState = .ready := rfl
@[simp] theorem ready_mem (s : State) : (s.ready).mem = s.mem := rfl
@[simp] theorem ready_dev (s : State) : (s.ready).dev = s.dev := rfl
@[simp] theorem ready_reg (s : State) (q : Reg) : (s.ready).reg q = s.reg q := rfl
@[simp] theorem ready_xreg (s : State) (y : XReg) : (s.ready).xreg y = s.xreg y := rfl
@[simp] theorem ready_flag (s : State) (g : Flag) : (s.ready).flag g = s.flag g := rfl

/-! Registers after a register write. -/

theorem regIdx_inj {p q : Reg} : regIdx p = regIdx q ↔ p = q := by
  cases p <;> cases q <;> decide

theorem xregIdx_inj {x y : XReg} : xregIdx x = xregIdx y ↔ x = y := by
  cases x <;> cases y <;> decide

theorem setReg_reg (s : State) (r : Reg) (v : Word) (q : Reg) :
    (s.setReg r v).reg q = if q = r then v else s.reg q := by
  cases r <;> cases q <;> simp [State.reg, State.setReg, regIdx]

@[simp] theorem setReg_reg_same (s : State) (r : Reg) (v : Word) : (s.setReg r v).reg r = v := by
  simp [setReg_reg]

theorem setReg_reg_other (s : State) {r q : Reg} (v : Word) (h : q ≠ r) :
    (s.setReg r v).reg q = s.reg q := by
  simp [setReg_reg, h]

theorem setXreg_xreg (s : State) (x : XReg) (v : Word) (y : XReg) :
    (s.setXreg x v).xreg y = if y = x then v else s.xreg y := by
  cases x <;> cases y <;> simp [State.xreg, State.setXreg, xregIdx]

@[simp] theorem setXreg_xreg_same (s : State) (x : XReg) (v : Word) : (s.setXreg x v).xreg x = v := by
  simp [setXreg_xreg]

theorem setXreg_xreg_other (s : State) {x y : XReg} (v : Word) (h : y ≠ x) :
    (s.setXreg x v).xreg y = s.xreg y := by
  simp [setXreg_xreg, h]

/-- Writing a register its own value changes nothing. -/
@[simp] theorem setReg_reg_self (s : State) (r : Reg) : s.setReg r (s.reg r) = s := by
  cases s
  cases r <;> simp [State.setReg, State.reg, regIdx]

/-- Equal general registers are equal register files. -/
theorem gpr_ext {s t : State} (h : ∀ q, t.reg q = s.reg q) : t.gpr = s.gpr := by
  apply Vector.ext
  intro i hi
  interval_cases i
  · exact h .r0
  · exact h .r1
  · exact h .r2
  · exact h .r3

/-- Equal index registers are equal register files. -/
theorem ixr_ext {s t : State} (h : ∀ y, t.xreg y = s.xreg y) : t.ixr = s.ixr := by
  apply Vector.ext
  intro i hi
  interval_cases i
  · exact h .x1
  · exact h .x2
  · exact h .x3

/-! Flags after a flag write. -/

/-- An assignment writes its flag and leaves the other three. -/
theorem flagOf_assignFlag (cc : BitVec 4) (f g : Flag) (b : Bool) :
    flagOf (assignFlag cc f b) g = if g = f then b else flagOf cc g := by
  revert cc b; cases f <;> cases g <;> decide

/-- At the spec's `CC_WRITE_POLICY` a flag write is an assignment (D7). -/
theorem writeFlag_eq (cc : BitVec 4) (f : Flag) (b : Bool) : writeFlag cc f b = assignFlag cc f b := rfl

theorem flag_eq (s : State) (f : Flag) : s.flag f = flagOf s.cc f := rfl

theorem setFlag_flag (s : State) (f g : Flag) (b : Bool) :
    (s.setFlag f b).flag g = if g = f then b else s.flag g :=
  flagOf_assignFlag s.cc f g b

@[simp] theorem setFlag_flag_same (s : State) (f : Flag) (b : Bool) : (s.setFlag f b).flag f = b := by
  simp [setFlag_flag]

theorem setFlag_flag_other (s : State) {f g : Flag} (b : Bool) (h : g ≠ f) :
    (s.setFlag f b).flag g = s.flag g := by
  simp [setFlag_flag, h]

end Sys2Proof.Laws
end

