-- ==== Sys2Proof/Laws/Ops.lean ====
section
/-! SUPPORT. Laws of the shared operations: what a memory access, the EA unit, fault entry and TRAP's entry do,
once each; provers cite these and unfold nothing. -/

namespace Sys2Proof.Laws

open Sys2Proof Sys2Proof.Machine

/-! CPU-side reads and writes (R83, R84, R89). -/

/-- "the cache never changes a value a program reads" (R89). -/
theorem readValue_eq {s : State} (a : Addr) (h : Coherent s.cache s.mem) : s.readValue a = s.mem.word a := by
  unfold State.readValue
  cases hh : s.cache.hit? a with
  | none => rfl
  | some k =>
    obtain ⟨hv, ht⟩ := hit_some hh
    simp only [← h k hv, ht]

@[simp] theorem memRead_fst (a : Addr) (s : State) : (memRead a s).1 = s.readValue a := rfl
@[simp] theorem memRead_snd (a : Addr) (s : State) : (memRead a s).2 = s.afterRead a := rfl

/-- A read keeps the cache invariants. -/
theorem cacheInv_memRead {s : State} (a : Addr) (h : CacheInv s.cache s.mem) :
    CacheInv (s.afterRead a).cache (s.afterRead a).mem :=
  cacheInv_afterRead a h

/-- A write keeps the cache invariants. -/
theorem cacheInv_memWrite {s : State} (a : Addr) (v : Word) (h : CacheInv s.cache s.mem) :
    CacheInv (memWrite a v s).cache (memWrite a v s).mem :=
  cacheInv_afterWrite a v h

/-- After a write the address reads as the word written (R84, R94). -/
theorem memWrite_word_same (s : State) (a : Addr) (v : Word) : (memWrite a v s).mem.word a = v := by
  simp

/-- A write leaves every other word alone. -/
theorem memWrite_word_other (s : State) {a b : Addr} (v : Word) (h : b ≠ a) :
    (memWrite a v s).mem.word b = s.mem.word b :=
  word_setWord_other s.mem v h

/-! The EA unit (R167): one lemma per field of the state after it. -/

@[simp] theorem effAddr_gpr (m : MemOperand) (s : State) : (effAddr m s).2.gpr = s.gpr := by
  unfold effAddr; split <;> rfl
@[simp] theorem effAddr_ixr (m : MemOperand) (s : State) : (effAddr m s).2.ixr = s.ixr := by
  unfold effAddr; split <;> rfl
@[simp] theorem effAddr_pc (m : MemOperand) (s : State) : (effAddr m s).2.pc = s.pc := by
  unfold effAddr; split <;> rfl
@[simp] theorem effAddr_ir (m : MemOperand) (s : State) : (effAddr m s).2.ir = s.ir := by
  unfold effAddr; split <;> rfl
@[simp] theorem effAddr_cc (m : MemOperand) (s : State) : (effAddr m s).2.cc = s.cc := by
  unfold effAddr; split <;> rfl
@[simp] theorem effAddr_mfr (m : MemOperand) (s : State) : (effAddr m s).2.mfr = s.mfr := by
  unfold effAddr; split <;> rfl
@[simp] theorem effAddr_mem (m : MemOperand) (s : State) : (effAddr m s).2.mem = s.mem := by
  unfold effAddr; split <;> rfl
@[simp] theorem effAddr_dev (m : MemOperand) (s : State) : (effAddr m s).2.dev = s.dev := by
  unfold effAddr; split <;> rfl
@[simp] theorem effAddr_runState (m : MemOperand) (s : State) : (effAddr m s).2.runState = s.runState := by
  unfold effAddr; split <;> rfl
@[simp] theorem effAddr_reg (m : MemOperand) (s : State) (q : Reg) : (effAddr m s).2.reg q = s.reg q := by
  unfold State.reg; simp
@[simp] theorem effAddr_xreg (m : MemOperand) (s : State) (y : XReg) : (effAddr m s).2.xreg y = s.xreg y := by
  unfold State.xreg; simp
@[simp] theorem effAddr_flag (m : MemOperand) (s : State) (g : Flag) : (effAddr m s).2.flag g = s.flag g := by
  unfold State.flag; simp
@[simp] theorem effAddr_cache (m : MemOperand) (s : State) : (effAddr m s).2.cache = eaCache m s := by
  unfold effAddr eaCache; split <;> rfl
@[simp] theorem effAddr_mar (m : MemOperand) (s : State) : (effAddr m s).2.mar = eaMar m s := by
  unfold effAddr eaMar; split <;> rfl

theorem effAddr_mbr (m : MemOperand) {s : State} (h : Coherent s.cache s.mem) :
    (effAddr m s).2.mbr = eaMbr m s := by
  unfold effAddr eaMbr
  split
  · exact readValue_eq _ h
  · rfl

/-- The EA is the one memory itself gives (R167, R89). -/
theorem effAddr_fst (m : MemOperand) {s : State} (h : Coherent s.cache s.mem) :
    (effAddr m s).1 = memEa m s := by
  unfold effAddr memEa
  split
  · exact readValue_eq _ h
  · rfl

/-- The EA unit keeps the cache invariants. -/
theorem cacheInv_effAddr (m : MemOperand) {s : State} (h : CacheInv s.cache s.mem) :
    CacheInv (eaCache m s) s.mem := by
  unfold eaCache
  split
  · exact cacheInv_afterRead _ h
  · exact h

/-- The operand read of a load gives the memory word at EA[10:0]. -/
theorem load_value (m : MemOperand) {s : State} (h : CacheInv s.cache s.mem) :
    (effAddr m s).2.readValue (low11 (effAddr m s).1) = s.mem.word (low11 (memEa m s)) := by
  rw [readValue_eq, effAddr_fst m h.coherent, effAddr_mem]
  simpa using (cacheInv_effAddr m h).coherent

/-! Fault entry and TRAP's entry (R401, R371). -/

@[simp] theorem faultEntry_gpr (c : FaultCode) (s : State) : (faultEntry c s).gpr = s.gpr := rfl
@[simp] theorem faultEntry_ixr (c : FaultCode) (s : State) : (faultEntry c s).ixr = s.ixr := rfl
@[simp] theorem faultEntry_pc (c : FaultCode) (s : State) : (faultEntry c s).pc = faultVector := rfl
@[simp] theorem faultEntry_ir (c : FaultCode) (s : State) : (faultEntry c s).ir = s.ir := rfl
@[simp] theorem faultEntry_cc (c : FaultCode) (s : State) : (faultEntry c s).cc = s.cc := rfl
@[simp] theorem faultEntry_mfr (c : FaultCode) (s : State) : (faultEntry c s).mfr = c.code := rfl
@[simp] theorem faultEntry_mar (c : FaultCode) (s : State) : (faultEntry c s).mar = savedPcAddr := rfl
@[simp] theorem faultEntry_mbr (c : FaultCode) (s : State) : (faultEntry c s).mbr = s.mbr := rfl
@[simp] theorem faultEntry_cache (c : FaultCode) (s : State) :
    (faultEntry c s).cache = s.cache.afterWrite savedPcAddr (pcWord s.pc) := rfl
@[simp] theorem faultEntry_runState (c : FaultCode) (s : State) : (faultEntry c s).runState = .faulted := rfl
@[simp] theorem faultEntry_mem (c : FaultCode) (s : State) :
    (faultEntry c s).mem = s.mem.setWord savedPcAddr (pcWord s.pc) := rfl
@[simp] theorem faultEntry_dev (c : FaultCode) (s : State) : (faultEntry c s).dev = s.dev := rfl

@[simp] theorem trapEntry_gpr (s : State) : (trapEntry s).gpr = s.gpr := rfl
@[simp] theorem trapEntry_ixr (s : State) : (trapEntry s).ixr = s.ixr := rfl
@[simp] theorem trapEntry_ir (s : State) : (trapEntry s).ir = s.ir := rfl
@[simp] theorem trapEntry_cc (s : State) : (trapEntry s).cc = s.cc := rfl
@[simp] theorem trapEntry_mfr (s : State) : (trapEntry s).mfr = s.mfr := rfl
@[simp] theorem trapEntry_mar (s : State) : (trapEntry s).mar = trapVectorAddr := rfl
@[simp] theorem trapEntry_runState (s : State) : (trapEntry s).runState = s.runState := rfl
@[simp] theorem trapEntry_dev (s : State) : (trapEntry s).dev = s.dev := rfl
@[simp] theorem trapEntry_mem (s : State) :
    (trapEntry s).mem = s.mem.setWord savedPcAddr (pcWord s.pc) := rfl
@[simp] theorem trapEntry_cache (s : State) :
    (trapEntry s).cache = (savePc s).cache.afterRead trapVectorAddr ((savePc s).mem.word trapVectorAddr) := rfl

theorem cacheInv_savePc {s : State} (h : CacheInv s.cache s.mem) : CacheInv (savePc s).cache (savePc s).mem :=
  cacheInv_memWrite _ _ h

/-- The vector TRAP loads is the memory word at address 0; the save at address 2 does not touch it. -/
theorem trap_vector {s : State} (h : CacheInv s.cache s.mem) :
    (savePc s).readValue trapVectorAddr = s.mem.word trapVectorAddr := by
  rw [readValue_eq _ (cacheInv_savePc h).coherent]
  exact memWrite_word_other s _ (by decide)

theorem trapEntry_pc {s : State} (h : CacheInv s.cache s.mem) :
    (trapEntry s).pc = addrPc (low11 (s.mem.word trapVectorAddr)) := by
  show addrPc (low11 ((savePc s).readValue trapVectorAddr)) = _
  rw [trap_vector h]

theorem trapEntry_mbr {s : State} (h : CacheInv s.cache s.mem) :
    (trapEntry s).mbr = s.mem.word trapVectorAddr :=
  trap_vector h

theorem cacheInv_faultEntry {s : State} (c : FaultCode) (h : CacheInv s.cache s.mem) :
    CacheInv (faultEntry c s).cache (faultEntry c s).mem :=
  cacheInv_afterWrite _ _ h

theorem cacheInv_trapEntry {s : State} (h : CacheInv s.cache s.mem) :
    CacheInv (trapEntry s).cache (trapEntry s).mem :=
  cacheInv_memRead _ (cacheInv_savePc h)

/-! The named parameters, at the spec's values (R11). -/

/-- `JCC_BIT_ORDER = lsb_first` (D35). -/
theorem jccBit_eq (cc : BitVec 4) (b : BitVec 2) : jccBit cc b = cc.getLsbD b.toNat := rfl

/-- `MLT_OVF_BOUND = 2^30 - 1` (D9). -/
theorem mltOverflows_eq (p : Int) :
    mltOverflows p = decide (p > 1073741823 ∨ p < -1073741824) := rfl

theorem branchIf_true (ea : Word) (s : State) : branchIf true ea s = s.loadPc ea := rfl
theorem branchIf_false (ea : Word) (s : State) : branchIf false ea s = s := rfl

end Sys2Proof.Laws
end

