-- ==== Sys2Proof/Laws/Exec.lean ====
section
/-! SUPPORT. One equation per instruction: the next state `exec` answers, written with the shared operations; and the
step in terms of `exec`. Provers cite these and unfold no meaning. -/

namespace Sys2Proof.Laws

open Sys2Proof Sys2Proof.Machine

theorem exec_hlt (s : State) : exec .hlt s = .next { s with runState := .halted } := rfl

theorem exec_ldr (r : Reg) (m : MemOperand) (s : State) : exec (.ldr r m) s =
    .next ((((effAddr m s).2.afterRead (low11 (effAddr m s).1)).setReg r
      ((effAddr m s).2.readValue (low11 (effAddr m s).1))).ready) := rfl

theorem exec_str (r : Reg) (m : MemOperand) (s : State) : exec (.str r m) s =
    .next ((memWrite (low11 (effAddr m s).1) (s.reg r) (effAddr m s).2).ready) := by
  rw [← effAddr_reg m s r]; rfl

theorem exec_lda (r : Reg) (m : MemOperand) (s : State) : exec (.lda r m) s =
    .next (((effAddr m s).2.setReg r (effAddr m s).1).ready) := rfl

theorem exec_amr (r : Reg) (m : MemOperand) (s : State) : exec (.amr r m) s =
    .next ((addTo r (signed ((effAddr m s).2.readValue (low11 (effAddr m s).1)))
      ((effAddr m s).2.afterRead (low11 (effAddr m s).1))).ready) := rfl

theorem exec_smr (r : Reg) (m : MemOperand) (s : State) : exec (.smr r m) s =
    .next ((subFrom r (signed ((effAddr m s).2.readValue (low11 (effAddr m s).1)))
      ((effAddr m s).2.afterRead (low11 (effAddr m s).1))).ready) := rfl

theorem exec_air (r : Reg) (imm : BitVec 5) (s : State) : exec (.air r imm) s =
    .next ((addTo r (immSigned imm) s).ready) := rfl

theorem exec_sir (r : Reg) (imm : BitVec 5) (s : State) : exec (.sir r imm) s =
    .next ((subFrom r (immSigned imm) s).ready) := rfl

theorem exec_jz (r : Reg) (m : MemOperand) (s : State) : exec (.jz r m) s =
    .next ((branchIf (s.reg r == 0) (effAddr m s).1 (effAddr m s).2).ready) := by
  rw [← effAddr_reg m s r]; rfl

theorem exec_jne (r : Reg) (m : MemOperand) (s : State) : exec (.jne r m) s =
    .next ((branchIf (s.reg r != 0) (effAddr m s).1 (effAddr m s).2).ready) := by
  rw [← effAddr_reg m s r]; rfl

theorem exec_jcc (b : BitVec 2) (m : MemOperand) (s : State) : exec (.jcc b m) s =
    .next ((branchIf (s.cc.getLsbD b.toNat) (effAddr m s).1 (effAddr m s).2).ready) := by
  rw [← effAddr_cc m s]; rfl

theorem exec_jma (m : MemOperand) (s : State) : exec (.jma m) s =
    .next (((effAddr m s).2.loadPc (effAddr m s).1).ready) := rfl

theorem exec_jsr (m : MemOperand) (s : State) : exec (.jsr m) s =
    .next ((((effAddr m s).2.setReg .r3 (pcWord s.pc)).loadPc (effAddr m s).1).ready) := by
  rw [← effAddr_pc m s]; rfl

theorem exec_rfs (imm : BitVec 5) (s : State) : exec (.rfs imm) s =
    .next (((s.setReg .r0 (zext5 imm)).loadPc (s.reg .r3)).ready) := rfl

theorem exec_sob (r : Reg) (m : MemOperand) (s : State) : exec (.sob r m) s =
    .next ((branchIf (decide (signed (s.reg r - 1) > 0)) (effAddr m s).1
      ((effAddr m s).2.setReg r (s.reg r - 1))).ready) := by
  have h : exec (.sob r m) s = .next ((branchIf
      (decide (signed (((effAddr m s).2.setReg r ((effAddr m s).2.reg r - 1)).reg r) > 0)) (effAddr m s).1
      ((effAddr m s).2.setReg r ((effAddr m s).2.reg r - 1))).ready) := rfl
  rw [h, setReg_reg_same, effAddr_reg]

theorem exec_jge (r : Reg) (m : MemOperand) (s : State) : exec (.jge r m) s =
    .next ((branchIf (decide (signed (s.reg r) ≥ 0)) (effAddr m s).1 (effAddr m s).2).ready) := by
  rw [← effAddr_reg m s r]; rfl

theorem exec_mlt {rx rx1 : Reg} (ry : Reg) (s : State) (h : pairLow? rx = some rx1) : exec (.mlt rx ry) s =
    .next ((((s.setReg rx ((product32 (signed (s.reg rx) * signed (s.reg ry))).extractLsb' 16 16)).setReg rx1
      ((product32 (signed (s.reg rx) * signed (s.reg ry))).extractLsb' 0 16)).setFlag .overflow
      (mltOverflows (signed (s.reg rx) * signed (s.reg ry)))).ready) := by
  simp only [exec, execMlt, h, completed]

theorem exec_mlt_illegal {rx : Reg} (ry : Reg) (s : State) (h : pairLow? rx = none) : exec (.mlt rx ry) s =
    .next (faultEntry .illegalOperationCode s) := by
  simp only [exec, execMlt, h, raiseFault]

theorem exec_dvd_zero {rx rx1 ry : Reg} (s : State) (h : pairLow? rx = some rx1) (hb : signed (s.reg ry) = 0) :
    exec (.dvd rx ry) s = .next ((s.setFlag .divzero true).ready) := by
  simp only [exec, execDvd, h, hb, completed, if_true]

theorem exec_dvd {rx rx1 ry : Reg} (s : State) (h : pairLow? rx = some rx1) (hb : signed (s.reg ry) ≠ 0) :
    exec (.dvd rx ry) s =
    .next ((((s.setReg rx (trunc16 (quotient (signed (s.reg rx)) (signed (s.reg ry))))).setReg rx1
      (trunc16 (remainder (signed (s.reg rx)) (signed (s.reg ry))))).setFlag .divzero false).ready) := by
  simp only [exec, execDvd, h, hb, completed, if_false]

theorem exec_dvd_illegal {rx : Reg} (ry : Reg) (s : State) (h : pairLow? rx = none) : exec (.dvd rx ry) s =
    .next (faultEntry .illegalOperationCode s) := by
  simp only [exec, execDvd, h, raiseFault]

theorem exec_trr (rx ry : Reg) (s : State) : exec (.trr rx ry) s =
    .next ((s.setFlag .equal (s.reg rx == s.reg ry)).ready) := rfl

theorem exec_andr (rx ry : Reg) (s : State) : exec (.andr rx ry) s =
    .next ((s.setReg rx (s.reg rx &&& s.reg ry)).ready) := rfl

theorem exec_orr (rx ry : Reg) (s : State) : exec (.orr rx ry) s =
    .next ((s.setReg rx (s.reg rx ||| s.reg ry)).ready) := rfl

theorem exec_notr (rx : Reg) (s : State) : exec (.notr rx) s =
    .next ((s.setReg rx (~~~(s.reg rx))).ready) := rfl

theorem exec_trap (code : BitVec 4) (s : State) : exec (.trap code) s = .next ((trapEntry s).ready) := rfl

theorem exec_src (r : Reg) (count : BitVec 4) (dir : ShiftDir) (kind : ShiftKind) (s : State) :
    exec (.src r count dir kind) s = .next ((s.setReg r (shifted (s.reg r) count dir kind)).ready) := rfl

theorem exec_rrc (r : Reg) (count : BitVec 4) (dir : ShiftDir) (s : State) :
    exec (.rrc r count dir) s = .next ((s.setReg r (rotated (s.reg r) count dir)).ready) := rfl

theorem exec_ldx {x : IxSel} {k : XReg} (i : Bool) (a : BitVec 5) (s : State) (h : IxSel.xreg? x = some k) :
    exec (.ldx x i a) s =
    .next ((((effAddr (plainOperand i a) s).2.afterRead (low11 (effAddr (plainOperand i a) s).1)).setXreg k
      ((effAddr (plainOperand i a) s).2.readValue (low11 (effAddr (plainOperand i a) s).1))).ready) := by
  simp only [exec, execLdx, h, completed, memRead]

theorem exec_ldx_illegal {x : IxSel} (i : Bool) (a : BitVec 5) (s : State) (h : IxSel.xreg? x = none) :
    exec (.ldx x i a) s = .next (faultEntry .illegalOperationCode s) := by
  simp only [exec, execLdx, h, raiseFault]

theorem exec_stx {x : IxSel} {k : XReg} (i : Bool) (a : BitVec 5) (s : State) (h : IxSel.xreg? x = some k) :
    exec (.stx x i a) s =
    .next ((memWrite (low11 (effAddr (plainOperand i a) s).1) (s.xreg k) (effAddr (plainOperand i a) s).2).ready) := by
  simp only [exec, execStx, h, completed, effAddr_xreg]

theorem exec_stx_illegal {x : IxSel} (i : Bool) (a : BitVec 5) (s : State) (h : IxSel.xreg? x = none) :
    exec (.stx x i a) s = .next (faultEntry .illegalOperationCode s) := by
  simp only [exec, execStx, h, raiseFault]

theorem exec_inp_ready {r : Reg} {dev : DevNum} {s : State} {v : Word} {d : Devices}
    (h : s.dev.devIn dev = (.ready v, d)) :
    exec (.inp r dev) s = .next (({ s with dev := d }.setReg r v).ready) := by
  simp only [exec, execInp, h, completed]

theorem exec_inp_notReady {r : Reg} {dev : DevNum} {s : State} {d : Devices}
    (h : s.dev.devIn dev = (.notReady, d)) :
    exec (.inp r dev) s = .next { s with dev := d, pc := s.pc - 1, runState := .waiting } := by
  simp only [exec, execInp, h, suspend]

theorem exec_out (r : Reg) (dev : DevNum) (s : State) : exec (.out r dev) s =
    .next ({ s with dev := s.dev.devOut dev (s.reg r) }.ready) := rfl

theorem exec_chk (r : Reg) (dev : DevNum) (s : State) : exec (.chk r dev) s =
    .next ((s.setReg r 1).ready) := rfl

/-! The step (R166). -/

theorem step_running {s : State} (h : s.runState = .ready ∨ s.runState = .waiting) : step s = cycle s := by
  unfold step
  rcases h with h | h <;> rw [h]

theorem step_halted {s : State} (h : s.runState = .halted) : step s = .refused .haltedUntilReset := by
  unfold step; rw [h]

theorem step_faulted {s : State} (h : s.runState = .faulted) : step s = .refused .faultedUntilReset := by
  unfold step; rw [h]

/-- A step that answers a next state was taken in READY or WAITING, and is the cycle. -/
theorem step_next {s t : State} (h : step s = .next t) :
    (s.runState = .ready ∨ s.runState = .waiting) ∧ cycle s = .next t := by
  cases hr : s.runState with
  | ready => exact ⟨.inl rfl, by rwa [step_running (.inl hr)] at h⟩
  | waiting => exact ⟨.inr rfl, by rwa [step_running (.inr hr)] at h⟩
  | halted => rw [step_halted hr] at h; cases h
  | faulted => rw [step_faulted hr] at h; cases h

/-- The outcome of a step that executed is the one its run state stands for (log 5). -/
theorem hostStep_next {s t : State} (h : step s = .next t) : hostStep s = (t.runState.outcome, t) := by
  simp [hostStep, h]

theorem cycle_outOfRange {s : State} (h : 2048 ≤ s.pc.toNat) :
    cycle s = .next (faultEntry .illegalMemoryAddress s) := by
  simp [cycle, pcOutOfRange, h, raiseFault]

theorem cycle_inRange {s : State} (h : s.pc.toNat < 2048) : cycle s = executeFetched (fetch s) := by
  simp [cycle, pcOutOfRange, Nat.not_le.mpr h]

theorem executeFetched_ok {s : State} {i : Instr} (h : decode s.ir = .ok i) : executeFetched s = exec i s := by
  simp [executeFetched, h]

theorem executeFetched_error {s : State} {e : Reject} (h : decode s.ir = .error e) :
    executeFetched s = .next (faultEntry .illegalOperationCode s) := by
  simp [executeFetched, h, raiseFault]

/-! The fetch (R162). -/

@[simp] theorem fetch_gpr (s : State) : (fetch s).gpr = s.gpr := rfl
@[simp] theorem fetch_ixr (s : State) : (fetch s).ixr = s.ixr := rfl
@[simp] theorem fetch_pc (s : State) : (fetch s).pc = s.pc + 1 := rfl
@[simp] theorem fetch_ir (s : State) : (fetch s).ir = s.readValue (pcAddr s.pc) := rfl
@[simp] theorem fetch_cc (s : State) : (fetch s).cc = s.cc := rfl
@[simp] theorem fetch_mfr (s : State) : (fetch s).mfr = s.mfr := rfl
@[simp] theorem fetch_mar (s : State) : (fetch s).mar = pcAddr s.pc := rfl
@[simp] theorem fetch_mbr (s : State) : (fetch s).mbr = s.readValue (pcAddr s.pc) := rfl
@[simp] theorem fetch_cache (s : State) :
    (fetch s).cache = s.cache.afterRead (pcAddr s.pc) (s.mem.word (pcAddr s.pc)) := rfl
@[simp] theorem fetch_runState (s : State) : (fetch s).runState = s.runState := rfl
@[simp] theorem fetch_mem (s : State) : (fetch s).mem = s.mem := rfl
@[simp] theorem fetch_dev (s : State) : (fetch s).dev = s.dev := rfl

theorem cacheInv_fetch {s : State} (h : CacheInv s.cache s.mem) : CacheInv (fetch s).cache (fetch s).mem :=
  cacheInv_afterRead _ h

/-- The word fetched is the memory word at PC (R89, R94). -/
theorem fetch_word {s : State} (h : Coherent s.cache s.mem) : (fetch s).ir = s.mem.word (pcAddr s.pc) :=
  readValue_eq _ h

end Sys2Proof.Laws
end

