-- ==== Sys2Proof/Laws/Frames.lean ====
section
/-! SUPPORT. Frame lemmas for the claims of Safety.lean, and what every meaning does to the cache and to memory:
reads and writes through the cache, nothing else. -/

namespace Sys2Proof.Laws

open Sys2Proof Sys2Proof.Machine

theorem gprKept_of_eq {s t : State} (h : t.gpr = s.gpr) (ds : List Reg) : GprKept ds s t :=
  fun q _ => by simp only [State.reg, h]

theorem ixrKept_of_eq {s t : State} (h : t.ixr = s.ixr) (ds : List XReg) : IxrKept ds s t :=
  fun y _ => by simp only [State.xreg, h]

theorem flagsKept_of_eq {s t : State} (h : t.cc = s.cc) (fs : List Flag) : FlagsKept fs s t :=
  fun g _ => by simp only [State.flag, h]

theorem bytesKept_of_eq {s t : State} (h : t.mem = s.mem) : BytesKept s t :=
  fun k => by rw [h]

theorem gprKept_setReg {s t : State} {r : Reg} (v : Word) (h : t.gpr = (s.setReg r v).gpr) : GprKept [r] s t := by
  intro q hq
  have e : t.reg q = (s.setReg r v).reg q := by simp only [State.reg, h]
  rw [e, setReg_reg_other _ _ (by simpa using hq)]

theorem gprKept_setReg_setReg {s t : State} {r r' : Reg} (v v' : Word)
    (h : t.gpr = ((s.setReg r v).setReg r' v').gpr) : GprKept [r, r'] s t := by
  intro q hq
  simp only [List.mem_cons, List.not_mem_nil, or_false, not_or] at hq
  have e : t.reg q = ((s.setReg r v).setReg r' v').reg q := by simp only [State.reg, h]
  rw [e, setReg_reg_other _ _ hq.2, setReg_reg_other _ _ hq.1]

theorem ixrKept_setXreg {s t : State} {x : XReg} (v : Word) (h : t.ixr = (s.setXreg x v).ixr) :
    IxrKept [x] s t := by
  intro y hy
  have e : t.xreg y = (s.setXreg x v).xreg y := by simp only [State.xreg, h]
  rw [e, setXreg_xreg_other _ _ (by simpa using hy)]

theorem flagsKept_setFlag {s t : State} {f : Flag} (b : Bool) (h : t.cc = (s.setFlag f b).cc) :
    FlagsKept [f] s t := by
  intro g hg
  have e : t.flag g = (s.setFlag f b).flag g := by simp only [State.flag, h]
  rw [e, setFlag_flag_other _ _ (by simpa using hg)]

theorem bytesKeptBut_setWord {s t : State} {a : Addr} (v : Word) (h : t.mem = s.mem.setWord a v) :
    BytesKeptBut a s t := by
  intro k h0 h1
  rw [h, read_setWord_other _ _ _ h0 h1]

/-! A branch touches PC alone. -/

@[simp] theorem branchIf_gpr (b : Bool) (ea : Word) (s : State) : (branchIf b ea s).gpr = s.gpr := by
  cases b <;> rfl
@[simp] theorem branchIf_ixr (b : Bool) (ea : Word) (s : State) : (branchIf b ea s).ixr = s.ixr := by
  cases b <;> rfl
@[simp] theorem branchIf_ir (b : Bool) (ea : Word) (s : State) : (branchIf b ea s).ir = s.ir := by
  cases b <;> rfl
@[simp] theorem branchIf_cc (b : Bool) (ea : Word) (s : State) : (branchIf b ea s).cc = s.cc := by
  cases b <;> rfl
@[simp] theorem branchIf_mfr (b : Bool) (ea : Word) (s : State) : (branchIf b ea s).mfr = s.mfr := by
  cases b <;> rfl
@[simp] theorem branchIf_mar (b : Bool) (ea : Word) (s : State) : (branchIf b ea s).mar = s.mar := by
  cases b <;> rfl
@[simp] theorem branchIf_mbr (b : Bool) (ea : Word) (s : State) : (branchIf b ea s).mbr = s.mbr := by
  cases b <;> rfl
@[simp] theorem branchIf_cache (b : Bool) (ea : Word) (s : State) : (branchIf b ea s).cache = s.cache := by
  cases b <;> rfl
@[simp] theorem branchIf_mem (b : Bool) (ea : Word) (s : State) : (branchIf b ea s).mem = s.mem := by
  cases b <;> rfl
@[simp] theorem branchIf_dev (b : Bool) (ea : Word) (s : State) : (branchIf b ea s).dev = s.dev := by
  cases b <;> rfl
@[simp] theorem branchIf_reg (b : Bool) (ea : Word) (s : State) (q : Reg) : (branchIf b ea s).reg q = s.reg q := by
  cases b <;> rfl

theorem branchIf_pc (b : Bool) (ea : Word) (s : State) :
    (branchIf b ea s).pc = if b = true then addrPc (low11 ea) else s.pc := by
  cases b <;> rfl

/-! Operands. -/

theorem immSigned_eq (imm : BitVec 5) : immSigned imm = imm.toInt :=
  BitVec.toInt_signExtend_of_le (by omega)

theorem signed_eq_min (w : Word) : signed w = -32768 ↔ w = 0x8000 := by
  constructor
  · intro h
    rw [← trunc16_signed w, h]
    rfl
  · rintro rfl
    rfl

/-- The pair Rx:Rx+1 of MLT and DVD. -/
theorem pairLow_cases (r : Reg) :
    (r = .r0 ∧ pairLow? r = some .r1) ∨ (r = .r2 ∧ pairLow? r = some .r3) ∨
    ((r = .r1 ∨ r = .r3) ∧ pairLow? r = none) := by
  cases r <;> simp [pairLow?]

/-! The devices (R345 to R348). -/

theorem devIn_keyboard_nil {d : Devices} (h : d.keyboard = []) : d.devIn 0 = (.notReady, d) := by
  simp [Devices.devIn, keyboardDev, Devices.readKeyboard, h]

theorem devIn_keyboard_cons {d : Devices} {v : Word} {rest : List Word} (h : d.keyboard = v :: rest) :
    d.devIn 0 = (.ready v, { d with keyboard := rest }) := by
  simp [Devices.devIn, keyboardDev, Devices.readKeyboard, h]

theorem devIn_file_nil {d : Devices} (h : d.fileReader = []) : d.devIn 2 = (.ready 0, d) := by
  simp [Devices.devIn, keyboardDev, fileReaderDev, Devices.readFile, h]

theorem devIn_file_cons {d : Devices} {v : Word} {rest : List Word} (h : d.fileReader = v :: rest) :
    d.devIn 2 = (.ready v, { d with fileReader := rest }) := by
  simp [Devices.devIn, keyboardDev, fileReaderDev, Devices.readFile, h]

theorem devIn_other {d : Devices} {dev : DevNum} (h0 : dev ≠ 0) (h2 : dev ≠ 2) :
    d.devIn dev = (Config.inOther dev d.otherReads, { d with otherReads := d.otherReads + 1 }) := by
  unfold Devices.devIn
  rw [if_neg (show ¬ dev = keyboardDev from h0), if_neg (show ¬ dev = fileReaderDev from h2)]
  rfl

/-! Every meaning reaches the cache and memory through reads and writes alone. -/

/-- A property of the cache and memory that every CPU-side access keeps. -/
structure AccessClosed (P : Cache → Memory → Prop) : Prop where
  read  : ∀ (c : Cache) (m : Memory) (a : Addr), P c m → P (c.afterRead a (m.word a)) m
  write : ∀ (c : Cache) (m : Memory) (a : Addr) (v : Word), P c m → P (c.afterWrite a v) (m.setWord a v)

theorem AccessClosed.effAddr {P : Cache → Memory → Prop} (hP : AccessClosed P) (m : MemOperand) {s : State}
    (h : P s.cache s.mem) : P (eaCache m s) s.mem := by
  unfold eaCache
  split
  · exact hP.read _ _ _ h
  · exact h

theorem AccessClosed.faultEntry {P : Cache → Memory → Prop} (hP : AccessClosed P) (c : FaultCode) {s : State}
    (h : P s.cache s.mem) : P (faultEntry c s).cache (faultEntry c s).mem :=
  hP.write _ _ _ _ h

theorem AccessClosed.trapEntry {P : Cache → Memory → Prop} (hP : AccessClosed P) {s : State}
    (h : P s.cache s.mem) : P (trapEntry s).cache (trapEntry s).mem :=
  hP.read _ _ _ (hP.write _ _ _ _ h)

/-- Every instruction keeps a property that every access keeps. -/
theorem AccessClosed.exec {P : Cache → Memory → Prop} (hP : AccessClosed P) {i : Instr} {s t : State}
    (h : exec i s = .next t) (h0 : P s.cache s.mem) : P t.cache t.mem := by
  have hr : ∀ (m : MemOperand) (a : Addr), P ((eaCache m s).afterRead a (s.mem.word a)) s.mem :=
    fun m a => hP.read _ _ a (hP.effAddr m h0)
  have hw : ∀ (m : MemOperand) (a : Addr) (v : Word),
      P ((eaCache m s).afterWrite a v) (s.mem.setWord a v) := fun m a v => hP.write _ _ a v (hP.effAddr m h0)
  cases i with
  | hlt => cases h; exact h0
  | ldr r m => rw [exec_ldr] at h; cases h; simpa using hr m _
  | str r m => rw [exec_str] at h; cases h; simpa using hw m _ _
  | lda r m => rw [exec_lda] at h; cases h; simpa using hP.effAddr m h0
  | amr r m => rw [exec_amr] at h; cases h; simpa [addTo] using hr m _
  | smr r m => rw [exec_smr] at h; cases h; simpa [subFrom] using hr m _
  | air r imm => rw [exec_air] at h; cases h; simpa [addTo] using h0
  | sir r imm => rw [exec_sir] at h; cases h; simpa [subFrom] using h0
  | jz r m => rw [exec_jz] at h; cases h; simpa using hP.effAddr m h0
  | jne r m => rw [exec_jne] at h; cases h; simpa using hP.effAddr m h0
  | jcc b m => rw [exec_jcc] at h; cases h; simpa using hP.effAddr m h0
  | jma m => rw [exec_jma] at h; cases h; simpa using hP.effAddr m h0
  | jsr m => rw [exec_jsr] at h; cases h; simpa using hP.effAddr m h0
  | rfs imm => rw [exec_rfs] at h; cases h; simpa using h0
  | sob r m => rw [exec_sob] at h; cases h; simpa using hP.effAddr m h0
  | jge r m => rw [exec_jge] at h; cases h; simpa using hP.effAddr m h0
  | mlt rx ry =>
    obtain ⟨_, hp⟩ | ⟨_, hp⟩ | ⟨_, hp⟩ := pairLow_cases rx
    · rw [exec_mlt ry s hp] at h; cases h; simpa using h0
    · rw [exec_mlt ry s hp] at h; cases h; simpa using h0
    · rw [exec_mlt_illegal ry s hp] at h; cases h; exact hP.faultEntry _ h0
  | dvd rx ry =>
    by_cases hb : signed (s.reg ry) = 0 <;> obtain ⟨_, hp⟩ | ⟨_, hp⟩ | ⟨_, hp⟩ := pairLow_cases rx
    · rw [exec_dvd_zero s hp hb] at h; cases h; simpa using h0
    · rw [exec_dvd_zero s hp hb] at h; cases h; simpa using h0
    · rw [exec_dvd_illegal ry s hp] at h; cases h; exact hP.faultEntry _ h0
    · rw [exec_dvd s hp hb] at h; cases h; simpa using h0
    · rw [exec_dvd s hp hb] at h; cases h; simpa using h0
    · rw [exec_dvd_illegal ry s hp] at h; cases h; exact hP.faultEntry _ h0
  | trr rx ry => rw [exec_trr] at h; cases h; simpa using h0
  | andr rx ry => rw [exec_andr] at h; cases h; simpa using h0
  | orr rx ry => rw [exec_orr] at h; cases h; simpa using h0
  | notr rx => rw [exec_notr] at h; cases h; simpa using h0
  | trap code => rw [exec_trap] at h; cases h; exact hP.trapEntry h0
  | src r count dir kind => rw [exec_src] at h; cases h; simpa using h0
  | rrc r count dir => rw [exec_rrc] at h; cases h; simpa using h0
  | ldx x i a =>
    cases hx : IxSel.xreg? x with
    | none => rw [exec_ldx_illegal i a s hx] at h; cases h; exact hP.faultEntry _ h0
    | some k => rw [exec_ldx i a s hx] at h; cases h; simpa using hr _ _
  | stx x i a =>
    cases hx : IxSel.xreg? x with
    | none => rw [exec_stx_illegal i a s hx] at h; cases h; exact hP.faultEntry _ h0
    | some k => rw [exec_stx i a s hx] at h; cases h; simpa using hw _ _ _
  | inp r dev =>
    rcases hd : s.dev.devIn dev with ⟨resp, d⟩
    cases resp with
    | ready v => rw [exec_inp_ready hd] at h; cases h; simpa using h0
    | notReady => rw [exec_inp_notReady hd] at h; cases h; exact h0
  | out r dev => rw [exec_out] at h; cases h; exact h0
  | chk r dev => rw [exec_chk] at h; cases h; simpa using h0

/-- So does every cycle. -/
theorem AccessClosed.cycle {P : Cache → Memory → Prop} (hP : AccessClosed P) {s t : State}
    (h : cycle s = .next t) (h0 : P s.cache s.mem) : P t.cache t.mem := by
  by_cases hpc : s.pc.toNat < 2048
  · have hf : P (fetch s).cache (fetch s).mem := hP.read _ _ _ h0
    rw [cycle_inRange hpc] at h
    cases hd : decode (fetch s).ir with
    | error e => rw [executeFetched_error hd] at h; cases h; exact hP.faultEntry _ hf
    | ok i => rw [executeFetched_ok hd] at h; exact hP.exec h hf
  · rw [cycle_outOfRange (by omega)] at h
    cases h
    exact hP.faultEntry _ h0

theorem accessClosed_cacheInv : AccessClosed CacheInv :=
  ⟨fun _ _ a h => cacheInv_afterRead a h, fun _ _ a v h => cacheInv_afterWrite a v h⟩

theorem accessClosed_fillOrder : AccessClosed fun c _ => FillOrder c :=
  ⟨fun _ m a h => fillOrder_afterRead a (m.word a) h, fun _ _ a v h => fillOrder_afterWrite a v h⟩

theorem accessClosed_wf : AccessClosed fun _ m => m.wf = true :=
  ⟨fun _ _ _ h => h, fun _ _ a v h => wf_setWord a v h⟩

end Sys2Proof.Laws
end

