-- ==== Sys2Proof/Laws/PerInstr.lean ====
section
/-! SUPPORT. Statements about every instruction as syntax. Family EncodedOpcode: the word the encoder writes carries
the instruction's opcode of the opcode map (spec/30_encoding.md R133) in bits 15..10 (R121). -/

namespace Sys2Proof.Laws.EncodedOpcode

open Sys2Proof

/-- The opcode of the opcode map, in octal (R133). -/
def opcode : Instr → BitVec 6
  | .hlt => 0o00
  | .ldr _ _ => 0o01
  | .str _ _ => 0o02
  | .lda _ _ => 0o03
  | .amr _ _ => 0o04
  | .smr _ _ => 0o05
  | .air _ _ => 0o06
  | .sir _ _ => 0o07
  | .jz _ _ => 0o10
  | .jne _ _ => 0o11
  | .jcc _ _ => 0o12
  | .jma _ => 0o13
  | .jsr _ => 0o14
  | .rfs _ => 0o15
  | .sob _ _ => 0o16
  | .jge _ _ => 0o17
  | .mlt _ _ => 0o20
  | .dvd _ _ => 0o21
  | .trr _ _ => 0o22
  | .andr _ _ => 0o23
  | .orr _ _ => 0o24
  | .notr _ => 0o25
  | .trap _ => 0o30
  | .src _ _ _ _ => 0o31
  | .rrc _ _ _ => 0o32
  | .ldx _ _ _ => 0o41
  | .stx _ _ _ => 0o42
  | .inp _ _ => 0o61
  | .out _ _ => 0o62
  | .chk _ _ => 0o63

/-- The encoded word's opcode field is the instruction's opcode (R121, R133). -/
def Statement (i : Instr) : Prop := opcodeOf (encode i) = opcode i

theorem hlt : Statement (.hlt) := rfl
theorem ldr (r : Reg) (m : MemOperand) : Statement (.ldr r m) := packMem_opcode _ _ _
theorem str (r : Reg) (m : MemOperand) : Statement (.str r m) := packMem_opcode _ _ _
theorem lda (r : Reg) (m : MemOperand) : Statement (.lda r m) := packMem_opcode _ _ _
theorem amr (r : Reg) (m : MemOperand) : Statement (.amr r m) := packMem_opcode _ _ _
theorem smr (r : Reg) (m : MemOperand) : Statement (.smr r m) := packMem_opcode _ _ _
theorem air (r : Reg) (imm : BitVec 5) : Statement (.air r imm) := packImm_opcode _ _ _
theorem sir (r : Reg) (imm : BitVec 5) : Statement (.sir r imm) := packImm_opcode _ _ _
theorem jz (r : Reg) (m : MemOperand) : Statement (.jz r m) := packMem_opcode _ _ _
theorem jne (r : Reg) (m : MemOperand) : Statement (.jne r m) := packMem_opcode _ _ _
theorem jcc (b : BitVec 2) (m : MemOperand) : Statement (.jcc b m) := packMem_opcode _ _ _
theorem jma (m : MemOperand) : Statement (.jma m) := packMem_opcode _ _ _
theorem jsr (m : MemOperand) : Statement (.jsr m) := packMem_opcode _ _ _
theorem rfs (imm : BitVec 5) : Statement (.rfs imm) := packMem_opcode _ _ _
theorem sob (r : Reg) (m : MemOperand) : Statement (.sob r m) := packMem_opcode _ _ _
theorem jge (r : Reg) (m : MemOperand) : Statement (.jge r m) := packMem_opcode _ _ _
theorem mlt (rx : Reg) (ry : Reg) : Statement (.mlt rx ry) := packRegReg_opcode _ _ _
theorem dvd (rx : Reg) (ry : Reg) : Statement (.dvd rx ry) := packRegReg_opcode _ _ _
theorem trr (rx : Reg) (ry : Reg) : Statement (.trr rx ry) := packRegReg_opcode _ _ _
theorem andr (rx : Reg) (ry : Reg) : Statement (.andr rx ry) := packRegReg_opcode _ _ _
theorem orr (rx : Reg) (ry : Reg) : Statement (.orr rx ry) := packRegReg_opcode _ _ _
theorem notr (rx : Reg) : Statement (.notr rx) := packRegReg_opcode _ _ _
theorem trap (code : BitVec 4) : Statement (.trap code) := packTrap_opcode _ _
theorem src (r : Reg) (count : BitVec 4) (dir : ShiftDir) (kind : ShiftKind) : Statement (.src r count dir kind) := packShift_opcode _ _ _ _ _
theorem rrc (r : Reg) (count : BitVec 4) (dir : ShiftDir) : Statement (.rrc r count dir) := packShift_opcode _ _ _ _ _
theorem ldx (x : IxSel) (i : Bool) (a : BitVec 5) : Statement (.ldx x i a) := packMem_opcode _ _ _
theorem stx (x : IxSel) (i : Bool) (a : BitVec 5) : Statement (.stx x i a) := packMem_opcode _ _ _
theorem inp (r : Reg) (dev : DevNum) : Statement (.inp r dev) := packImm_opcode _ _ _
theorem out (r : Reg) (dev : DevNum) : Statement (.out r dev) := packImm_opcode _ _ _
theorem chk (r : Reg) (dev : DevNum) : Statement (.chk r dev) := packImm_opcode _ _ _

end Sys2Proof.Laws.EncodedOpcode
end

