-- ==== Sys2Proof/Laws/Text.lean ====
section
/-! SUPPORT. Laws of decimal text and of the keyboard's text (spec/47_io.md R345). -/

namespace Sys2Proof.Laws

open Sys2Proof Sys2Proof.Machine

theorem readDecimal_digit (acc : Nat) {c : Char} (rest : List Char) (h : c.isDigit = true) :
    readDecimal acc (c :: rest) = readDecimal (10 * acc + (c.toNat - 48)) rest := by
  simp [readDecimal, h]

theorem readDecimal_other (acc : Nat) {c : Char} (rest : List Char) (h : c.isDigit = false) :
    readDecimal acc (c :: rest) = none := by
  simp [readDecimal, h]

theorem digitChar_isDigit {d : Nat} (h : d < 10) : (Nat.digitChar d).isDigit = true := by
  interval_cases d <;> decide

theorem digitChar_value {d : Nat} (h : d < 10) : (Nat.digitChar d).toNat - 48 = d := by
  interval_cases d <;> decide

theorem digitChar_ne_minus {d : Nat} (h : d < 10) : Nat.digitChar d ≠ '-' := by
  interval_cases d <;> decide

/-- A list of decimal digits reads as its value. -/
theorem readDecimal_digits (acc : Nat) (ds : List Nat) (h : ∀ d ∈ ds, d < 10) :
    readDecimal acc (ds.map Nat.digitChar) = some (ds.foldl (fun v d => 10 * v + d) acc) := by
  induction ds generalizing acc with
  | nil => rfl
  | cons d rest ih =>
    have hd : d < 10 := h d (by simp)
    rw [List.map_cons, readDecimal_digit _ _ (digitChar_isDigit hd), digitChar_value hd, List.foldl_cons]
    exact ih _ fun e he => h e (List.mem_cons_of_mem _ he)

/-- A text that starts with neither a digit nor a minus sign is no integer. -/
theorem readInteger_other {c : Char} (rest : List Char) (hd : c.isDigit = false) (hm : c ≠ '-') :
    readInteger (c :: rest) = none := by
  simp [readInteger, hm, readDigits, readDecimal_other _ _ hd]

/-- Trimming keeps a first character that is no whitespace. -/
theorem trim_cons {c : Char} (rest : List Char) (h : isSpace c = false) :
    trim (c :: rest) = c :: trimEnd rest := by
  have hs : trimStart (c :: rest) = c :: rest := by simp [trimStart, h]
  rw [trim, hs, trimEnd]
  cases trimEnd rest with
  | nil => simp [h]
  | cons d ds => rfl

end Sys2Proof.Laws
end

