-- ==== Sys2Proof/Tests/Slice0.lean ====
section
/-! SUPPORT. Tests: ill-formed terms refused, words written out from spec/30_encoding.md R123 to R133, one step of
chosen rows of spec/95_test_vectors.md, and a witness for the hypotheses of every statement that has some. -/

namespace Sys2Proof.Tests

open Sys2Proof Sys2Proof.Machine Sys2Proof.Laws

/-! WellFormed (R136): an ill-formed term for each check. -/

theorem test_wf_mlt_odd_pair_refused : (Instr.mlt .r1 .r0).wellFormed = false ∧ (Instr.mlt .r3 .r0).wellFormed = false := by decide
theorem test_wf_dvd_odd_pair_refused : (Instr.dvd .r1 .r0).wellFormed = false ∧ (Instr.dvd .r3 .r0).wellFormed = false := by decide
theorem test_wf_ldx_ix0_refused : (Instr.ldx .off false 20).wellFormed = false := by decide
theorem test_wf_stx_ix0_refused : (Instr.stx .off true 20).wellFormed = false := by decide
theorem test_wf_legal_accepted : (Instr.mlt .r2 .r3).wellFormed = true ∧ (Instr.dvd .r0 .r0).wellFormed = true ∧
    (Instr.ldx .x1 false 20).wellFormed = true ∧ (Instr.stx .x3 true 20).wellFormed = true := by decide

/-! Decoding: each word is written out bit by bit, opcode first, from R123 to R133. -/

/-- An operand `ix`, `i`, `address` of the Memory format. -/
def op (x : IxSel) (i : Bool) (a : BitVec 5) : MemOperand := { ix := x, indirect := i, address := a }

theorem test_decode_hlt : decode 0b0000000000000000 = .ok (.hlt) := by decide
theorem test_decode_ldr : decode 0b0000010110010101 = .ok (.ldr .r1 (op .x2 false 0b10101)) := by decide
theorem test_decode_str : decode 0b0000101100100001 = .ok (.str .r3 (op .off true 1)) := by decide
theorem test_decode_lda : decode 0b0000110100001000 = .ok (.lda .r1 (op .off false 8)) := by decide
theorem test_decode_amr : decode 0b0001001001100100 = .ok (.amr .r2 (op .x1 true 4)) := by decide
theorem test_decode_smr : decode 0b0001010111010100 = .ok (.smr .r1 (op .x3 false 20)) := by decide
theorem test_decode_air : decode 0b0001101000011111 = .ok (.air .r2 0b11111) := by decide
theorem test_decode_sir : decode 0b0001111100001111 = .ok (.sir .r3 15) := by decide
theorem test_decode_jz : decode 0b0010000100110100 = .ok (.jz .r1 (op .off true 20)) := by decide
theorem test_decode_jne : decode 0b0010011001010100 = .ok (.jne .r2 (op .x1 false 20)) := by decide
theorem test_decode_jcc : decode 0b0010101001000100 = .ok (.jcc 2 (op .x1 false 4)) := by decide
theorem test_decode_jma : decode 0b0010110000100010 = .ok (.jma (op .off true 2)) := by decide
theorem test_decode_jsr : decode 0b0011001001000000 = .ok (.jsr (op .x1 false 0)) := by decide
theorem test_decode_rfs : decode 0b0011010000000101 = .ok (.rfs 5) := by decide
theorem test_decode_sob : decode 0b0011100100001000 = .ok (.sob .r1 (op .off false 8)) := by decide
theorem test_decode_jge : decode 0b0011111011010100 = .ok (.jge .r2 (op .x3 false 20)) := by decide
theorem test_decode_mlt : decode 0b0100001001000000 = .ok (.mlt .r2 .r1) := by decide
theorem test_decode_dvd : decode 0b0100011011000000 = .ok (.dvd .r2 .r3) := by decide
theorem test_decode_trr : decode 0b0100100110000000 = .ok (.trr .r1 .r2) := by decide
theorem test_decode_and : decode 0b0100110001000000 = .ok (.andr .r0 .r1) := by decide
theorem test_decode_orr : decode 0b0101001101000000 = .ok (.orr .r3 .r1) := by decide
theorem test_decode_not : decode 0b0101011100000000 = .ok (.notr .r3) := by decide
theorem test_decode_trap : decode 0b0110000000001101 = .ok (.trap 13) := by decide
theorem test_decode_src : decode 0b0110010010000100 = .ok (.src .r0 4 .right .arithmetic) := by decide
theorem test_decode_src_left : decode 0b0110010101000011 = .ok (.src .r1 3 .left .logical) := by decide
theorem test_decode_rrc : decode 0b0110100101000100 = .ok (.rrc .r1 4 .left) := by decide
theorem test_decode_ldx : decode 0b1000010001010100 = .ok (.ldx .x1 false 20) := by decide
theorem test_decode_stx : decode 0b1000100010110101 = .ok (.stx .x2 true 21) := by decide
theorem test_decode_in : decode 0b1100010100000010 = .ok (.inp .r1 2) := by decide
theorem test_decode_out : decode 0b1100100100000001 = .ok (.out .r1 1) := by decide
theorem test_decode_chk : decode 0b1100111000000101 = .ok (.chk .r2 5) := by decide

/-- R131, R135: the ignored bits of RFS, JMA, NOT and RRC change nothing. -/
theorem test_decode_ignores_unnamed_bits : decode 0b0011011111100101 = .ok (.rfs 5) ∧
    decode 0b0010111100000010 = .ok (.jma (op .off false 2)) ∧ decode 0b0101011111111111 = .ok (.notr .r3) ∧
    decode 0b0110100111110100 = .ok (.rrc .r1 4 .left) := by decide

/-- R134: the neighbours 0o26 and 0o40 of listed opcodes are rejected by name. -/
theorem test_decode_rejects_unlisted : decode 0b0101100000000000 = .error (.unlistedOpcode 0o26) ∧
    decode 0b1000000000000000 = .error (.unlistedOpcode 0o40) := by decide

/-- R149: an immediate of -1 is the field 11111. Words of spec/95_test_vectors.md, rows AR7, SH9, RR19, IX2. -/
theorem test_assemble : assemble "AIR" [2, -1] = .ok 0o015037 ∧ assemble "RRC" [1, 4, 1, 0] = .ok 0o064504 ∧
    assemble "NOT" [3] = .ok 0o053400 ∧ assemble "STX" [2, 21, 1] = .ok 0o104265 ∧
    assemble "DATA" [65534] = .ok 0o177776 ∧ assemble "RFS" [-1] = .ok 0o032037 := by decide

/-- S4 of spec/95_test_vectors.md: the corrected load file of the source's example. -/
theorem test_assemble_source : assembleRecords "LOC 6\nStart: LDA 1,0,End\nDATA 0\nEnd:   HLT\n".toList =
    .ok [(6, 0o006410), (7, 0), (8, 0)] := by decide

/-- R144: empty lines and comments leave the location counter, a line with a label alone moves it on. -/
theorem test_assemble_label_only : assembleRecords "HLT\n\n; c\nL:\nDATA L\n".toList = .ok [(0, 0), (2, 1)] := by
  decide

/-! One step. The rows are those of spec/95_test_vectors.md section 2; the instruction stands at address 10. -/

/-- The start state of a vector: the word at address 10, PC = 10, everything else as after reset. -/
def at10 (w : Word) : State := { State.reset with pc := 10, mem := Memory.setWord [] 10 w }

/-- The state with a word in memory. -/
def put (a : Addr) (v : Word) (s : State) : State := { s with mem := s.mem.setWord a v }

/-- The state with a CC. -/
def withCc (c : BitVec 4) (s : State) : State := { s with cc := c }

/-- One step has the outcome o and its state passes the check. -/
def stepTo (s : State) (o : StepOutcome) (check : State → Bool) : Bool :=
  decide ((hostStep s).1 = o) && check (hostStep s).2

/-- SY2: `(word)`. -/
theorem test_hlt_ignores_low_bits : stepTo (at10 0o001777) .halt fun t =>
    t.pc = 11 := by decide

/-- LS2: `LDR 0,1,5,1`. -/
theorem test_ldr_indexed_indirect : stepTo (put 42 0x0007 (put 8 0x002A ((at10 0o002145).setXreg .x1 0x0003))) .continue fun t =>
    t.reg .r0 = 0x0007 ∧ t.pc = 11 := by decide

/-- LS4: `LDR 2,3,31`. -/
theorem test_ldr_index_wraps : stepTo (put 30 0x00AA ((at10 0o003337).setXreg .x3 0xFFFF)) .continue fun t =>
    t.reg .r2 = 0x00AA ∧ t.pc = 11 := by decide

/-- LS6: `STR 0,1,0,1`. -/
theorem test_str_indexed_indirect : stepTo (put 7 0x012C (((at10 0o004140).setReg .r0 0x0055).setXreg .x1 0x0007)) .continue fun t =>
    t.pc = 11 ∧ t.mem.word 300 = 0x0055 ∧ t.mar = 300 := by decide

/-- LS11: `STR 1,0,10`. -/
theorem test_str_own_word : stepTo ((at10 0o004412).setReg .r1 0x0000) .continue fun t =>
    t.pc = 11 ∧ t.mem.word 10 = 0x0000 := by decide

/-- LS7: `LDA 3,2,31`. -/
theorem test_lda_wraps_in_16_bits : stepTo ((at10 0o007637).setXreg .x2 0xFFF0) .continue fun t =>
    t.reg .r3 = 0x000F ∧ t.pc = 11 := by decide

/-- LS8: `LDA 0,0,8,1`. -/
theorem test_lda_indirect_keeps_16_bits : stepTo (put 8 0xFFFF (at10 0o006050)) .continue fun t =>
    t.reg .r0 = 0xFFFF ∧ t.pc = 11 := by decide

/-- AR1: `AMR 0,0,20`. -/
theorem test_amr_overflow : stepTo (put 20 0x0001 ((at10 0o010024).setReg .r0 0x7FFF)) .continue fun t =>
    t.reg .r0 = 0x8000 ∧ t.pc = 11 ∧ t.cc = 0b0001 := by decide

/-- AR14: `AMR 2,1,4,1`. -/
theorem test_amr_indexed_indirect : stepTo (put 30 0xFFF6 (put 8 0x001E (((at10 0o011144).setReg .r2 0x000A).setXreg .x1 0x0004))) .continue fun t =>
    t.reg .r2 = 0x0000 ∧ t.pc = 11 := by decide

/-- AR4: `SMR 1,0,20`. -/
theorem test_smr_underflow : stepTo (put 20 0x0001 ((at10 0o012424).setReg .r1 0x8000)) .continue fun t =>
    t.reg .r1 = 0x7FFF ∧ t.pc = 11 ∧ t.cc = 0b0010 := by decide

/-- AR5: `SMR 1,0,20`. -/
theorem test_smr_above_range_clears_underflow : stepTo (withCc 0b0010 (put 20 0xFFFF ((at10 0o012424).setReg .r1 0x7FFF))) .continue fun t =>
    t.reg .r1 = 0x8000 ∧ t.pc = 11 ∧ t.cc = 0b0000 := by decide

/-- AR8: `AIR 0,15`. -/
theorem test_air_overflow : stepTo ((at10 0o014017).setReg .r0 0x7FFF) .continue fun t =>
    t.reg .r0 = 0x800E ∧ t.pc = 11 ∧ t.cc = 0b0001 := by decide

/-- AR9: `AIR 0,-16`. -/
theorem test_air_negative_immediate : stepTo ((at10 0o014020).setReg .r0 0x0000) .continue fun t =>
    t.reg .r0 = 0xFFF0 ∧ t.pc = 11 := by decide

/-- AR12: `SIR 0,-16`. -/
theorem test_sir_negative_immediate : stepTo ((at10 0o016020).setReg .r0 0x7FF0) .continue fun t =>
    t.reg .r0 = 0x8000 ∧ t.pc = 11 := by decide

/-- AR13: `SIR 0,1`. -/
theorem test_sir_underflow : stepTo ((at10 0o016001).setReg .r0 0x8000) .continue fun t =>
    t.reg .r0 = 0x7FFF ∧ t.pc = 11 ∧ t.cc = 0b0010 := by decide

/-- TR1: `JZ 0,0,20`. -/
theorem test_jz_taken : stepTo ((at10 0o020024).setReg .r0 0x0000) .continue fun t =>
    t.pc = 20 := by decide

/-- TR3: `JZ 0,0,20,1`. -/
theorem test_jz_not_taken_reads_pointer : stepTo (put 20 0x0019 ((at10 0o020064).setReg .r0 0x0001)) .continue fun t =>
    t.pc = 11 ∧ t.mar = 20 := by decide

/-- TR4: `JNE 1,0,20`. -/
theorem test_jne_taken : stepTo ((at10 0o022424).setReg .r1 0xFFFF) .continue fun t =>
    t.pc = 20 := by decide

/-- TR5: `JNE 1,0,20`. -/
theorem test_jne_not_taken : stepTo ((at10 0o022424).setReg .r1 0x0000) .continue fun t =>
    t.pc = 11 := by decide

/-- TR7: `JCC 0,0,20`. -/
theorem test_jcc_bit0_not_taken : stepTo (withCc 0b1000 (at10 0o024024)) .continue fun t =>
    t.pc = 11 := by decide

/-- TR8: `JCC 2,1,4`. -/
theorem test_jcc_bit2_indexed : stepTo (withCc 0b0100 ((at10 0o025104).setXreg .x1 0x07F0)) .continue fun t =>
    t.pc = 2036 := by decide

/-- TR10: `JMA 0,0,2,1`. -/
theorem test_jma_through_saved_pc : stepTo (put 2 0x0805 (at10 0o026042)) .continue fun t =>
    t.pc = 5 := by decide

/-- TR22: `JMA 0,3,0`. -/
theorem test_jma_target_masked : stepTo ((at10 0o026300).setXreg .x3 0xFFFF) .continue fun t =>
    t.pc = 2047 := by decide

/-- TR12: `JSR 2,1,0`. -/
theorem test_jsr_links_r3 : stepTo (((at10 0o031100).setReg .r3 0x7777).setXreg .x1 0x01F4) .continue fun t =>
    t.reg .r3 = 0x000B ∧ t.pc = 500 := by decide

/-- TR13: `RFS 5`. -/
theorem test_rfs_returns : stepTo (((at10 0o032005).setReg .r0 0x1234).setReg .r3 0x000B) .continue fun t =>
    t.reg .r0 = 0x0005 ∧ t.pc = 11 := by decide

/-- TR14: `RFS 0`. -/
theorem test_rfs_target_masked : stepTo ((at10 0o032000).setReg .r3 0x0800) .continue fun t =>
    t.pc = 0 := by decide

/-- TR17: `SOB 1,0,8`. -/
theorem test_sob_zero_wraps : stepTo ((at10 0o034410).setReg .r1 0x0000) .continue fun t =>
    t.reg .r1 = 0xFFFF ∧ t.pc = 11 := by decide

/-- TR18: `SOB 1,0,8`. -/
theorem test_sob_min_becomes_positive : stepTo ((at10 0o034410).setReg .r1 0x8000) .continue fun t =>
    t.reg .r1 = 0x7FFF ∧ t.pc = 8 := by decide

/-- TR19: `JGE 2,0,20`. -/
theorem test_jge_min_not_taken : stepTo ((at10 0o037024).setReg .r2 0x8000) .continue fun t =>
    t.pc = 11 := by decide

/-- TR20: `JGE 2,0,20`. -/
theorem test_jge_zero_taken : stepTo ((at10 0o037024).setReg .r2 0x0000) .continue fun t =>
    t.pc = 20 := by decide

/-- RR3: `MLT 2,0`. -/
theorem test_mlt_overflow : stepTo (((at10 0o041000).setReg .r0 0x8000).setReg .r2 0x8000) .continue fun t =>
    t.reg .r2 = 0x4000 ∧ t.pc = 11 ∧ t.cc = 0b0001 := by decide

/-- RR6: `MLT 0,1`. -/
theorem test_mlt_low_word_over_multiplier : stepTo (((at10 0o040100).setReg .r0 0x0007).setReg .r1 0x0006) .continue fun t =>
    t.reg .r0 = 0x0000 ∧ t.reg .r1 = 0x002A ∧ t.pc = 11 := by decide

/-- RR8: `DVD 2,3`. -/
theorem test_dvd_by_zero : stepTo (((at10 0o043300).setReg .r2 0x0064).setReg .r3 0x0000) .continue fun t =>
    t.pc = 11 ∧ t.cc = 0b0100 := by decide

/-- RR9: `DVD 0,1`. -/
theorem test_dvd_truncates_toward_zero : stepTo (((at10 0o042100).setReg .r0 0xFFF9).setReg .r1 0x0002) .continue fun t =>
    t.reg .r0 = 0xFFFD ∧ t.reg .r1 = 0xFFFF ∧ t.pc = 11 := by decide

/-- RR15: `TRR 1,2`. -/
theorem test_trr_equal : stepTo (((at10 0o044600).setReg .r1 0x0007).setReg .r2 0x0007) .continue fun t =>
    t.pc = 11 ∧ t.cc = 0b1000 := by decide

/-- RR16: `TRR 1,2`. -/
theorem test_trr_unequal_clears : stepTo (withCc 0b1000 (((at10 0o044600).setReg .r1 0x0000).setReg .r2 0x8000)) .continue fun t =>
    t.pc = 11 ∧ t.cc = 0b0000 := by decide

/-- RR17: `AND 0,1`. -/
theorem test_and : stepTo (((at10 0o046100).setReg .r0 0x0F0F).setReg .r1 0x00FF) .continue fun t =>
    t.reg .r0 = 0x000F ∧ t.pc = 11 := by decide

/-- RR18: `ORR 0,1`. -/
theorem test_orr : stepTo (((at10 0o050100).setReg .r0 0x0F0F).setReg .r1 0x00FF) .continue fun t =>
    t.reg .r0 = 0x0FFF ∧ t.pc = 11 := by decide

/-- RR19: `NOT 3`. -/
theorem test_not : stepTo ((at10 0o053400).setReg .r3 0x00FF) .continue fun t =>
    t.reg .r3 = 0xFF00 ∧ t.pc = 11 := by decide

/-- SY3: `TRAP 5`. -/
theorem test_trap_vector : stepTo (put 0 0x0064 (at10 0o060005)) .continue fun t =>
    t.pc = 100 ∧ t.mem.word 2 = 0x000B ∧ t.mar = 0 := by decide

/-- SH2: `SRC 0,4,0,1`. -/
theorem test_src_arithmetic_right : stepTo ((at10 0o062204).setReg .r0 0x8000) .continue fun t =>
    t.reg .r0 = 0xF800 ∧ t.pc = 11 := by decide

/-- SH6: `SRC 0,4,1,1`. -/
theorem test_src_arithmetic_left_is_logical : stepTo ((at10 0o062304).setReg .r0 0x1234) .continue fun t =>
    t.reg .r0 = 0x2340 ∧ t.pc = 11 := by decide

/-- SH9: `RRC 1,4,1,0`. -/
theorem test_rrc_left : stepTo ((at10 0o064504).setReg .r1 0x1234) .continue fun t =>
    t.reg .r1 = 0x2341 ∧ t.pc = 11 := by decide

/-- SH13: `RRC 1,15,1,1`. -/
theorem test_rrc_ignores_al : stepTo ((at10 0o064717).setReg .r1 0x0001) .continue fun t =>
    t.reg .r1 = 0x8000 ∧ t.pc = 11 := by decide

/-- IX1: `LDX 1,20`. -/
theorem test_ldx : stepTo (put 20 0x03E8 (at10 0o102124)) .continue fun t =>
    t.xreg .x1 = 0x03E8 ∧ t.pc = 11 := by decide

/-- IX5: `LDX 0,20`. -/
theorem test_ldx_ix0_faults : stepTo (put 20 0x0005 (at10 0o102024)) .fault fun t =>
    t.pc = 1 ∧ t.mfr = 4 ∧ t.mem.word 2 = 0x000B ∧ t.mar = 2 := by decide

/-- IX2: `STX 2,21,1`. -/
theorem test_stx_indirect : stepTo (put 21 0x0028 ((at10 0o104265).setXreg .x2 0x1234)) .continue fun t =>
    t.pc = 11 ∧ t.mem.word 40 = 0x1234 ∧ t.mar = 40 := by decide

/-- IX6: `STX 0,20`. -/
theorem test_stx_ix0_faults : stepTo (at10 0o104024) .fault fun t =>
    t.pc = 1 ∧ t.mfr = 4 ∧ t.mem.word 2 = 0x000B ∧ t.mar = 2 := by decide

/-- IO1: `IN 1,2`. -/
theorem test_in_file_reader : stepTo (hostPreloadFile [72, 105] (at10 0o142402)) .continue fun t =>
    t.reg .r1 = 0x0048 ∧ t.pc = 11 ∧ t.dev.fileReader = [105] := by decide

/-- IO3: `IN 0,0`. -/
theorem test_in_empty_keyboard_waits : stepTo ((at10 0o142000).setReg .r0 0x0009) .wait fun t =>
    t.pc = 10 := by decide

/-- IO5: `OUT 1,1`. -/
theorem test_out_printer_low_byte : stepTo ((at10 0o144401).setReg .r1 0x0141) .continue fun t =>
    t.pc = 11 ∧ t.dev.printer = [0x41] := by decide

/-- IO6: `CHK 2,5`. -/
theorem test_chk : stepTo (at10 0o147005) .continue fun t =>
    t.reg .r2 = 0x0001 ∧ t.pc = 11 := by decide

/-- SY5: `(word)`. -/
theorem test_illegal_026 : stepTo (at10 0o054000) .fault fun t =>
    t.pc = 1 ∧ t.mfr = 4 ∧ t.mem.word 2 = 0x000B := by decide

/-- SY6: `(word)`. -/
theorem test_illegal_077 : stepTo (at10 0o177777) .fault fun t =>
    t.pc = 1 ∧ t.mfr = 4 ∧ t.mem.word 2 = 0x000B := by decide

/-- M1: at PC = 2048 the step faults before any fetch. -/
theorem test_fetch_past_end : stepTo { State.reset with pc := 2048 } .fault fun t =>
    t.pc = 1 ∧ t.mfr = 1 ∧ t.mem.word 2 = 0x0800 ∧ t.mar = 2 := by decide

/-- R345: a signed decimal, a character, and a lone minus sign, which is no decimal. -/
theorem test_keyboard_text : keyboardWord "-5".toList = 0xFFFB ∧ keyboardWord "65535".toList = 0xFFFF ∧
    keyboardWord "A1".toList = 65 ∧ keyboardWord "-".toList = 45 := by decide

/-- The texts whose reading the spec leaves open (log 10). -/
theorem test_keyboard_text_unstated : readKeyboardText [] = .unstated ∧ readKeyboardText "+5".toList = .unstated ∧
    readKeyboardText " 5".toList = .unstated ∧ readKeyboardText " x".toList = .characters 32 := by decide

/-- The host's questions: the first step after reset runs the word placed. -/
theorem test_withFetchWord : step (State.reset.withFetchWord 16 0o014017) =
    exec (.air .r0 15) (fetch (State.reset.withFetchWord 16 0o014017)) ∧
    decodeTableWord 16 0o014017 = some (.air .r0 15) := ⟨rfl, by decide⟩

/-! Witnesses: concrete states that meet the hypotheses of the statements. `witness_X` is about Obligations.X. -/

/-- A state whose line 0 caches Mem[10]. -/
def warm : State := fetch (at10 0o002424)

theorem warm_cacheInv : CacheInv warm.cache warm.mem := cacheInv_fetch (cacheInv_reset _)

theorem at10_cacheInv (w : Word) : CacheInv (at10 w).cache (at10 w).mem := cacheInv_reset _

theorem at10_fetches (w : Word) : Fetches (at10 w) := ⟨.inl rfl, show (10 : PcVal).toNat < 2048 by decide⟩

theorem at10_inv (w : Word) : Inv (at10 w) :=
  ⟨wf_setWord 10 w rfl, at10_cacheInv w, show (10 : PcVal).toNat ≤ 2048 by decide, .inl rfl,
   show RunState.ready = .faulted ↔ (0 : BitVec 4) ≠ 0 by decide⟩

/-- The cache after sixteen installs: every line valid. -/
def fullCache : Cache :=
  lineIdxs.foldl (fun c k => c.install (BitVec.ofNat 11 k.val) 7) Cache.reset

/-- The match patterns of `DecodesAs` in the statements, each met by the word with every low bit set. -/
theorem witness_DecodesAs :
    (([0x0000, 0x0400, 0x0800, 0x0C00, 0x1000, 0x1400, 0x1800, 0x1C00, 0x2000, 0x2400] ++
      [0x2800, 0x2C00, 0x3000, 0x3400, 0x3800, 0x3C00, 0x4000, 0x4400, 0x4800, 0x4C00, 0x5000, 0x5400, 0x6000] ++
      [0x6400, 0x6800, 0x8400, 0x8800, 0xC400, 0xC800, 0xCC00] : List Word).all
      fun p => (p ||| 0x03FF) &&& 0xFC00 == p) = true := by decide

theorem witness_StepKeepsTheInvariants : Inv (at10 0) ∧ ∃ t, step (at10 0) = .next t := ⟨at10_inv 0, _, rfl⟩

theorem witness_HostSessionsKeepTheInvariants : Inv (at10 0) := at10_inv 0

theorem witness_InstallsFillTheLinesInTurn :
    16 ≤ (List.replicate 16 ((3 : Addr), (9 : Word))).length ∧ FillOrder Cache.reset := ⟨by decide, fillOrder_reset⟩

/-- First clause, at line 0 of the empty cache and at line 15; second clause, at the full cache. -/
theorem witness_InstallTakesTheLowestInvalidLineElseTheOldest :
    ((Cache.reset.line 0).valid = false ∧ ∀ j : LineIdx, j < 0 → (Cache.reset.line j).valid = true) ∧
    (∃ c : Cache, (c.line 15).valid = false ∧ ∀ j : LineIdx, j < 15 → (c.line j).valid = true) ∧
    ((∀ j : LineIdx, (fullCache.line j).valid = true) ∧ fullCache.queue = 0 :: lineIdxs.tail) :=
  ⟨by decide, ⟨(lineIdxs.take 15).foldl (fun c k => c.install (BitVec.ofNat 11 k.val) 7) Cache.reset, by decide⟩,
   by decide⟩

theorem witness_ReadGoesThroughTheCache :
    (UniqueTags warm.cache ∧ (warm.cache.line 0).valid = true ∧ (warm.cache.line 0).tag = 10) ∧
    (∀ k : LineIdx, (warm.cache.line k).valid = true → (warm.cache.line k).tag ≠ 11) :=
  ⟨⟨warm_cacheInv.unique, by decide⟩, by decide⟩

theorem witness_WriteGoesThroughAndAllocates :
    (UniqueTags warm.cache ∧ (warm.cache.line 0).valid = true ∧ (warm.cache.line 0).tag = 10) ∧
    (∀ k : LineIdx, (warm.cache.line k).valid = true → (warm.cache.line k).tag ≠ 2047) :=
  ⟨⟨warm_cacheInv.unique, by decide⟩, by decide⟩

theorem witness_CacheIsTransparent : CacheInv warm.cache warm.mem ∧
    ((memWrite 10 5 warm).cache.line 0).valid = true ∧ ((memWrite 10 5 warm).cache.line 0).tag = 10 :=
  ⟨warm_cacheInv, by decide⟩

/-- Two states that differ in IR, MAR, MBR and the cache alone. -/
theorem witness_ProgramsCannotObserveTheCache :
    Coherent warm.cache warm.mem ∧ Coherent Cache.reset warm.mem ∧
    programView warm = programView { warm with cache := Cache.reset, ir := 0, mar := 0, mbr := 0 } ∧
    warm.cache ≠ Cache.reset ∧ (CacheInv warm.cache warm.mem ∧ CacheInv Cache.reset warm.mem) ∧
    ∃ t, step warm = .next t :=
  ⟨warm_cacheInv.coherent, (cacheInv_reset _).coherent, rfl, by decide, ⟨warm_cacheInv, cacheInv_reset _⟩, _, rfl⟩

theorem witness_DecoderReadsExactlyTheNamedBits : decode 0x3405 = .ok (.rfs 5) ∧
    (0x37E5 : Word) &&& namedBits (.rfs 5) = 0x3405 &&& namedBits (.rfs 5) := by decide

/-- Second clause, at the lowest and the highest unlisted opcode. -/
theorem witness_UnlistedOpcodesRaiseIllegalOperationCode :
    ∀ w : Word, (w = 0o054000 ∨ w = 0o177777) → Fetches (at10 w) ∧ Coherent (at10 w).cache (at10 w).mem ∧
      (((at10 w).mem.word (pcAddr (at10 w).pc)).extractLsb' 10 6).toNat ∈ unlistedOpcodes := by
  rintro w (rfl | rfl)
  · exact ⟨at10_fetches _, (at10_cacheInv _).coherent, by decide⟩
  · exact ⟨at10_fetches _, (at10_cacheInv _).coherent, by decide⟩

theorem witness_IllegalFieldValuesRaiseIllegalOperationCode :
    (Instr.mlt .r2 .r2).wellFormed = true ∧ ∃ t, exec (.mlt .r2 .r2) (at10 0) = .next t := ⟨rfl, _, rfl⟩

theorem witness_StepRunsTheDecodedInstruction : Fetches (at10 0o002424) ∧
    Coherent (at10 0o002424).cache (at10 0o002424).mem ∧
    decode ((at10 0o002424).mem.word (pcAddr (at10 0o002424).pc)) = .ok (.ldr .r1 (op .off false 20)) :=
  ⟨at10_fetches _, (at10_cacheInv _).coherent, by decide⟩

theorem witness_FetchLoadsIrAndAdvancesPc :
    (0 : PcVal).toNat < 2048 ∧ (2047 : PcVal).toNat < 2048 ∧ Coherent State.reset.cache State.reset.mem :=
  ⟨by decide, by decide, (cacheInv_reset _).coherent⟩

theorem witness_FetchAt2048RaisesIllegalMemoryAddress : ∃ s : State, s.runState = .ready ∧ s.pc.toNat = 2048 :=
  ⟨{ State.reset with pc := 2048 }, rfl, by decide⟩

theorem witness_StoppedBlockRefusesUntilReset :
    (∃ s : State, s.runState = .halted) ∧ (∃ s : State, s.runState = .faulted) ∧
    HostOp.reset ∉ [HostOp.step, .load 0 1, .ipl [(6, 0)]] :=
  ⟨⟨(hostStep (at10 0)).2, by decide⟩, ⟨(hostStep (at10 0o177777)).2, by decide⟩, by decide⟩

theorem witness_RunningBlockAlwaysSteps :
    State.reset.runState = .ready ∧ (hostStep (at10 0o142000)).2.runState = .waiting ∧
    ({ State.reset with pc := 2048 } : State).pc.toNat = 2048 := by decide

/-- The clauses about outcomes, one word for each: unlisted, HLT, illegal field, IN on the empty keyboard, IN on the
empty file reader, AIR. -/
theorem witness_RunningBlockAlwaysSteps_outcomes : (∀ w, Fetches (at10 w) ∧ Coherent (at10 w).cache (at10 w).mem) ∧
    decode ((at10 0o054000).mem.word (pcAddr 10)) = .error (.unlistedOpcode 0o26) ∧
    decode ((at10 0).mem.word (pcAddr 10)) = .ok .hlt ∧
    decode ((at10 0o040600).mem.word (pcAddr 10)) = .ok (.mlt .r1 .r2) ∧ (Instr.mlt .r1 .r2).wellFormed = false ∧
    decode ((at10 0o142000).mem.word (pcAddr 10)) = .ok (.inp .r0 0) ∧
    ((at10 0o142000).dev.devIn 0).1 = .notReady ∧
    decode ((at10 0o142402).mem.word (pcAddr 10)) = .ok (.inp .r1 2) ∧
    ((at10 0o142402).dev.devIn 2).1 ≠ .notReady ∧
    decode ((at10 0o014017).mem.word (pcAddr 10)) = .ok (.air .r0 15) :=
  ⟨fun w => ⟨at10_fetches w, (at10_cacheInv w).coherent⟩, by decide⟩

/-- Digits at both bounds of their clauses (65535 and 32768), and a text of characters. -/
theorem witness_HostFeedsAndEmptiesTheDevices :
    (∀ d ∈ [6, 5, 5, 3, 5], d < 10) ∧ [6, 5, 5, 3, 5].foldl (fun v d => 10 * v + d) 0 = 65535 ∧
    [3, 2, 7, 6, 8].foldl (fun v d => 10 * v + d) 0 = 32768 ∧
    'A'.isDigit = false ∧ 'A' ≠ '-' ∧ 'A' ≠ '+' ∧ isSpace 'A' = false := by decide

/-- Both faults: the unlisted opcode at address 10, and PC = 2048. -/
theorem witness_FaultsArePrecise :
    (∃ t, step (at10 0o177777) = .next t ∧ t.runState = .faulted) ∧
    (∃ t, step { State.reset with pc := 2048 } = .next t ∧ t.runState = .faulted) := ⟨⟨_, rfl, rfl⟩, ⟨_, rfl, rfl⟩⟩

theorem witness_EffectiveAddressUnit : Coherent warm.cache warm.mem ∧
    (op .x3 false 31).indirect = false ∧ (op .x1 true 0).indirect = true := ⟨warm_cacheInv.coherent, rfl, rfl⟩

theorem witness_LdrLoadsTheWordAtEa : CacheInv warm.cache warm.mem := warm_cacheInv
theorem witness_StrStoresTheRegisterAtEa : CacheInv warm.cache warm.mem := warm_cacheInv
theorem witness_LdaLoadsTheWholeEa : CacheInv warm.cache warm.mem := warm_cacheInv
theorem witness_AmrAddsTheWordAtEa : CacheInv warm.cache warm.mem := warm_cacheInv
theorem witness_SmrSubtractsTheWordAtEa : CacheInv warm.cache warm.mem := warm_cacheInv
theorem witness_JsrLinksInR3 : CacheInv warm.cache warm.mem := warm_cacheInv

/-- JZ, JNE, JCC and JGE taken and not taken, JGE at 0 and at -1. -/
theorem witness_JumpsGoToEaWhenTaken : CacheInv warm.cache warm.mem ∧
    (warm.reg .r0).toNat = 0 ∧ ((warm.setReg .r0 1).reg .r0).toNat ≠ 0 ∧
    (withCc 8 warm).cc.getLsbD (3 : BitVec 2).toNat = true ∧ ¬ (withCc 8 warm).cc.getLsbD (2 : BitVec 2).toNat = true ∧
    (warm.reg .r0).toInt ≥ 0 ∧ ¬ ((warm.setReg .r0 0xFFFF).reg .r0).toInt ≥ 0 := ⟨warm_cacheInv, by decide⟩

/-- Taken from 2 and not taken from 1. -/
theorem witness_SobDecrementsAndBranchesWhilePositive : CacheInv warm.cache warm.mem ∧
    ((2 : Word) - 1).toInt > 0 ∧ ¬ ((1 : Word) - 1).toInt > 0 := ⟨warm_cacheInv, by decide⟩

/-- Both pairs, and operands of the one overflowing product. -/
theorem witness_MltLeavesTheExactProduct :
    (∃ rx rx1 : Reg, rx ≠ .r2 ∧ (rx = .r0 ∧ rx1 = .r1 ∨ rx = .r2 ∧ rx1 = .r3)) ∧
    (∃ rx rx1 : Reg, rx ≠ .r0 ∧ (rx = .r0 ∧ rx1 = .r1 ∨ rx = .r2 ∧ rx1 = .r3)) ∧
    (0x8000 : Word).toInt * (0x8000 : Word).toInt > 2 ^ 30 - 1 :=
  ⟨⟨.r0, .r1, by decide⟩, ⟨.r2, .r3, by decide⟩, by decide⟩

/-- A nonzero and a zero divisor, at each of the two pairs. -/
theorem witness_DvdTruncatesTowardZero :
    (∃ (rx rx1 ry : Reg) (s : State), (rx = .r0 ∧ rx1 = .r1 ∨ rx = .r2 ∧ rx1 = .r3) ∧ (s.reg ry).toInt ≠ 0) ∧
    (∃ (rx rx1 ry : Reg) (s : State), (rx = .r0 ∧ rx1 = .r1 ∨ rx = .r2 ∧ rx1 = .r3) ∧ (s.reg ry).toInt = 0) :=
  ⟨⟨.r0, .r1, .r1, warm.setReg .r1 0xFFFF, by decide⟩, ⟨.r2, .r3, .r1, warm, by decide⟩⟩

theorem witness_LogicWorksBitByBit : 0 < 16 ∧ 15 < 16 := by decide

/-- The three modes of the clauses, at the smallest and the largest count; left is arithmetic too. -/
theorem witness_SrcShiftsInFourModes :
    stepTo ((at10 0o062200).setReg .r0 0x8000) .continue (fun t => t.reg .r0 = 0x8000) ∧
    stepTo ((at10 0o062017).setReg .r0 0x8000) .continue (fun t => t.reg .r0 = 1) := by decide

theorem witness_RrcRotatesEveryBit :
    stepTo ((at10 0o064500).setReg .r1 0xABCD) .continue (fun t => t.reg .r1 = 0xABCD) ∧
    stepTo ((at10 0o064401).setReg .r1 1) .continue (fun t => t.reg .r1 = 0x8000) := by decide

/-- X1 and X3, the ends of the range. -/
theorem witness_LdxLoadsTheIndexRegister : CacheInv warm.cache warm.mem ∧
    (∀ sel x, (sel = IxSel.x1 ∧ x = XReg.x1) ∨ (sel = .x3 ∧ x = .x3) →
      (sel = .x1 ∧ x = .x1 ∨ sel = .x2 ∧ x = .x2 ∨ sel = .x3 ∧ x = .x3)) :=
  ⟨warm_cacheInv, fun _ _ h => h.elim .inl fun h => .inr (.inr h)⟩

/-- X1 and X3, the ends of the range. -/
theorem witness_StxStoresTheIndexRegister : CacheInv warm.cache warm.mem ∧
    (∀ sel x, (sel = IxSel.x1 ∧ x = XReg.x1) ∨ (sel = .x3 ∧ x = .x3) →
      (sel = .x1 ∧ x = .x1 ∨ sel = .x2 ∧ x = .x2 ∨ sel = .x3 ∧ x = .x3)) :=
  ⟨warm_cacheInv, fun _ _ h => h.elim .inl fun h => .inr (.inr h)⟩

/-- Each clause: the keyboard with a word and without, the file reader with one and without, and device 31. -/
theorem witness_InReadsEachDevice :
    (hostSubmitKeyboard 65 warm).dev.keyboard = [65] ∧ warm.dev.keyboard = [] ∧
    (hostPreloadFile [72] warm).dev.fileReader = [72] ∧ warm.dev.fileReader = [] ∧
    (31 : DevNum) ≠ 0 ∧ (31 : DevNum) ≠ 2 := by decide

theorem witness_SuspendedInWaitsForTheKeyboard : Fetches (at10 0o142000) ∧
    CacheInv (at10 0o142000).cache (at10 0o142000).mem ∧ (at10 0o142000).dev.keyboard = [] ∧
    decode ((at10 0o142000).mem.word (pcAddr (at10 0o142000).pc)) = .ok (.inp .r0 0) :=
  ⟨at10_fetches _, at10_cacheInv _, rfl, by decide⟩

theorem witness_OutHandsTheWordToThePort : (1 : DevNum) = 1 ∧ (0 : DevNum) ≠ 1 ∧ (31 : DevNum) ≠ 1 := by decide

theorem witness_HltHaltsTheBlock : ∃ t, exec .hlt (at10 0) = .next t := ⟨_, rfl⟩

theorem witness_TrapVectorsThroughAddress0 : CacheInv warm.cache warm.mem := warm_cacheInv

/-- The handler's state is the one TRAP leaves. -/
theorem witness_JmaThroughAddress2ReturnsFromTrap : CacheInv warm.cache warm.mem ∧ warm.pc.toNat < 2048 ∧
    ∃ t, exec (.trap 5) warm = .next t ∧ CacheInv t.cache t.mem :=
  ⟨warm_cacheInv, by decide, _, rfl, cacheInv_trapEntry (s := warm) warm_cacheInv⟩

theorem witness_OnlyTheNamedInstructionsWriteFlags : ∃ t, exec (.air .r0 15) warm = .next t := ⟨_, rfl⟩

theorem witness_OnlyTheNamedRegistersAreWritten : ∃ t, exec (.mlt .r0 .r2) warm = .next t := ⟨_, rfl⟩

/-- A well-formed and an ill-formed instruction, neither of them an LDX. -/
theorem witness_SpecialRegistersHaveOneWriter :
    (∃ t, exec (.mlt .r0 .r2) warm = .next t) ∧ (Instr.mlt .r0 .r2).wellFormed = true ∧
    (∃ t, exec (.mlt .r1 .r2) warm = .next t) ∧ (Instr.mlt .r1 .r2).wellFormed = false :=
  ⟨⟨_, rfl⟩, rfl, ⟨_, rfl⟩, rfl⟩

theorem witness_OnlyStoresAndTrapWriteMemory : (Instr.ldr .r0 (op .x1 true 5)).wellFormed = true ∧
    (∃ t, exec (.ldr .r0 (op .x1 true 5)) warm = .next t) ∧ (∀ r m, Instr.ldr .r0 (op .x1 true 5) ≠ .str r m) :=
  ⟨rfl, ⟨_, rfl⟩, fun _ _ => nofun⟩

theorem witness_StoredWordIsFetchedNext : CacheInv warm.cache warm.mem ∧ warm.pc.toNat < 2048 :=
  ⟨warm_cacheInv, by decide⟩

theorem witness_WaitingBlockStandsAtAnIn : Inv (at10 0o142000) ∧
    ∃ t, step (at10 0o142000) = .next t ∧ t.runState = .waiting := ⟨at10_inv _, _, rfl, rfl⟩

/-- First clause at 2047, second at 2048. -/
theorem witness_HostLoadBypassesTheCache : 2047 < 2048 ∧ UniqueTags warm.cache ∧ 2048 ≤ 2048 :=
  ⟨by decide, warm_cacheInv.unique, by decide⟩

/-- First clause with records at 0 and 2047, second with one at 2048. -/
theorem witness_IplLoadsTheImage :
    (([(2047, 1), (0, 2)] : List (Nat × Word)).map Prod.fst).Nodup ∧
    (∀ e ∈ ([(2047, 1), (0, 2)] : List (Nat × Word)), e.1 < 2048) ∧
    (∃ e ∈ ([(6, 1), (2048, 2)] : List (Nat × Word)), 2048 ≤ e.1) := by decide

/-- The largest six-digit octal address. -/
theorem witness_LoadFileRecordsReadBack : ∀ e ∈ ([(262143, 0xFFFF)] : List (Nat × Word)), e.1 < 8 ^ 6 := by decide

end Sys2Proof.Tests
end

section
/-! PROOFS (spec/10_state.md R48, R89): a program cannot observe IR, MAR, MBR, MFR or the cache. Two states of one
program view stay of one view under every named operation; the values a program reads, through the cache or not,
are functions of the view where both caches are coherent; so every instruction, and with it every step, agrees. -/

namespace Sys2Proof.Proofs

open Sys2Proof Sys2Proof.Machine Sys2Proof.Laws

/-! Coherence alone, without unique tags, is enough for what one instruction reads. -/

theorem coherent_afterRead {c : Cache} {m : Memory} (a : Addr) (h : Coherent c m) :
    Coherent (c.afterRead a (m.word a)) m := by
  unfold Cache.afterRead
  split
  · exact h
  · obtain ⟨k, _, e⟩ | ⟨_, e⟩ := install_cases c a (m.word a) <;> rw [e] <;> exact coherent_fill _ _ h rfl

theorem coherent_fetch {s : State} (h : Coherent s.cache s.mem) : Coherent (fetch s).cache (fetch s).mem :=
  coherent_afterRead _ h

/-- A line a fill left with another tag is the old line. -/
theorem line_fill_of_tag_ne {c : Cache} {j k : LineIdx} {q : List LineIdx} {a : Addr} {w : Word}
    (h : ((c.fill j q a w).line k).tag ≠ a) : (c.fill j q a w).line k = c.line k := by
  rw [line_fill] at h ⊢
  split at h
  · exact absurd rfl h
  · next hk => rw [if_neg hk]

/-- A write touches lines of its own address alone (R84). -/
theorem line_afterWrite_of_tag_ne {c : Cache} {a : Addr} {v : Word} {k : LineIdx}
    (h : ((c.afterWrite a v).line k).tag ≠ a) : (c.afterWrite a v).line k = c.line k := by
  unfold Cache.afterWrite at h ⊢
  cases hh : c.hit? a with
  | some j =>
    simp only [hh, tag_setData] at h
    have hkj : k ≠ j := fun e => h (e ▸ (hit_some hh).2)
    simp only [line_setData, hkj, if_false]
  | none =>
    simp only [hh] at h
    obtain ⟨j, _, e⟩ | ⟨_, e⟩ := install_cases c a v <;> rw [e] at h <;> simp only [e] <;>
      exact line_fill_of_tag_ne h

/-- A read of another address after a write gives the memory word (R89). -/
theorem readValue_memWrite_other {s : State} {a b : Addr} (v : Word) (hs : Coherent s.cache s.mem) (hb : b ≠ a) :
    (memWrite a v s).readValue b = s.mem.word b := by
  unfold State.readValue
  cases hh : (memWrite a v s).cache.hit? b with
  | none => exact memWrite_word_other s v hb
  | some k =>
    obtain ⟨hv, ht⟩ := hit_some hh
    have hl : (memWrite a v s).cache.line k = s.cache.line k := line_afterWrite_of_tag_ne (ht ▸ hb)
    rw [hl] at hv ht
    simp only [hl, ← hs k hv, ht]

/-- TRAP loads the memory word at address 0 (R371). -/
theorem trapEntry_pc_of_coherent {s : State} (hs : Coherent s.cache s.mem) :
    (trapEntry s).pc = addrPc (low11 (s.mem.word trapVectorAddr)) :=
  congrArg (fun v => addrPc (low11 v)) (readValue_memWrite_other _ hs (by decide))

theorem coherent_effAddr (m : MemOperand) {s : State} (h : Coherent s.cache s.mem) :
    Coherent (effAddr m s).2.cache (effAddr m s).2.mem := by
  unfold effAddr
  split
  · exact coherent_afterRead _ h
  · exact h

/-- The operand of a load is the memory word at EA[10:0] (R171, R89). -/
theorem load_value_of_coherent (m : MemOperand) {s : State} (h : Coherent s.cache s.mem) :
    (effAddr m s).2.readValue (low11 (effAddr m s).1) = s.mem.word (low11 (memEa m s)) := by
  rw [readValue_eq _ (coherent_effAddr m h), effAddr_fst m h, effAddr_mem]

/-! One view: what it fixes, and the operations that keep it, each a function of the view (`SameView.map`). -/

/-- A program cannot tell the two states apart (R48). -/
def SameView (s t : State) : Prop := programView s = programView t

namespace SameView

variable {s t : State}

theorem reg (h : SameView s t) (r : Reg) : s.reg r = t.reg r := congrArg (fun p => p.gpr[regIdx r]) h
theorem xreg (h : SameView s t) (x : XReg) : s.xreg x = t.xreg x := congrArg (fun p => p.ixr[xregIdx x]) h
theorem cc (h : SameView s t) : s.cc = t.cc := congrArg ProgramView.cc h
theorem pc (h : SameView s t) : s.pc = t.pc := congrArg ProgramView.pc h
theorem mem (h : SameView s t) : s.mem = t.mem := congrArg ProgramView.mem h
theorem dev (h : SameView s t) : s.dev = t.dev := congrArg ProgramView.dev h
theorem runState (h : SameView s t) : s.runState = t.runState := congrArg ProgramView.runState h

/-- States whose views are one function of two equal views have equal views. -/
theorem map (h : SameView s t) (f : ProgramView → ProgramView) {s' t' : State}
    (hs : programView s' = f (programView s)) (ht : programView t' = f (programView t)) : SameView s' t' :=
  hs.trans ((congrArg f h).trans ht.symm)

theorem setReg (h : SameView s t) (r : Reg) (v : Word) : SameView (s.setReg r v) (t.setReg r v) :=
  h.map (fun p => { p with gpr := p.gpr.set (regIdx r) v }) rfl rfl

theorem setXreg (h : SameView s t) (x : XReg) (v : Word) : SameView (s.setXreg x v) (t.setXreg x v) :=
  h.map (fun p => { p with ixr := p.ixr.set (xregIdx x) v }) rfl rfl

theorem setFlag (h : SameView s t) (f : Flag) (b : Bool) : SameView (s.setFlag f b) (t.setFlag f b) :=
  h.map (fun p => { p with cc := writeFlag p.cc f b }) rfl rfl

theorem loadPc (h : SameView s t) (v : Word) : SameView (s.loadPc v) (t.loadPc v) :=
  h.map (fun p => { p with pc := addrPc (low11 v) }) rfl rfl

theorem branchIf (h : SameView s t) (b : Bool) (ea : Word) : SameView (branchIf b ea s) (branchIf b ea t) := by
  cases b with
  | false => exact h
  | true => exact h.loadPc ea

theorem memWrite (h : SameView s t) (a : Addr) (v : Word) : SameView (memWrite a v s) (memWrite a v t) :=
  h.map (fun p => { p with mem := p.mem.setWord a v }) rfl rfl

theorem setDev (h : SameView s t) (d : Devices) : SameView { s with dev := d } { t with dev := d } :=
  h.map (fun p => { p with dev := d }) rfl rfl

theorem ready (h : SameView s t) : SameView s.ready t.ready :=
  h.map (fun p => { p with runState := .ready }) rfl rfl

theorem halted (h : SameView s t) : SameView { s with runState := .halted } { t with runState := .halted } :=
  h.map (fun p => { p with runState := .halted }) rfl rfl

theorem suspended (h : SameView s t) :
    SameView { s with pc := s.pc - 1, runState := .waiting } { t with pc := t.pc - 1, runState := .waiting } :=
  h.map (fun p => { p with pc := p.pc - 1, runState := .waiting }) rfl rfl

theorem fetch (h : SameView s t) : SameView (fetch s) (fetch t) :=
  h.map (fun p => { p with pc := p.pc + 1 }) rfl rfl

theorem faultEntry (h : SameView s t) (c : FaultCode) : SameView (faultEntry c s) (faultEntry c t) :=
  h.map (fun p =>
    { p with mem := p.mem.setWord savedPcAddr (pcWord p.pc), pc := faultVector, runState := .faulted }) rfl rfl

/-- A read leaves the view as it was, whichever address each side reads. -/
theorem afterRead (h : SameView s t) (a b : Addr) : SameView (s.afterRead a) (t.afterRead b) := h

theorem effAddr (h : SameView s t) (m : MemOperand) : SameView (effAddr m s).2 (effAddr m t).2 := by
  unfold Machine.effAddr
  split <;> exact h

theorem addTo (h : SameView s t) (r : Reg) (b : Int) : SameView (addTo r b s) (addTo r b t) := by
  unfold Machine.addTo
  rw [h.reg r]
  exact (h.setReg _ _).setFlag _ _

theorem subFrom (h : SameView s t) (r : Reg) (b : Int) : SameView (subFrom r b s) (subFrom r b t) := by
  unfold Machine.subFrom
  rw [h.reg r]
  exact (h.setReg _ _).setFlag _ _

theorem eaBase (h : SameView s t) (m : MemOperand) : eaBase m s = eaBase m t := by
  unfold Machine.eaBase
  cases IxSel.xreg? m.ix with
  | none => rfl
  | some x => simp only [h.xreg x]

theorem memEa (h : SameView s t) (m : MemOperand) : memEa m s = memEa m t := by
  unfold Machine.memEa
  rw [h.eaBase m, h.mem]

end SameView

/-- Two states of one view, each with a coherent cache: what they read agrees. -/
structure Twins (s t : State) : Prop where
  view  : SameView s t
  left  : Coherent s.cache s.mem
  right : Coherent t.cache t.mem

namespace Twins

variable {s t : State}

theorem ea (h : Twins s t) (m : MemOperand) : (effAddr m s).1 = (effAddr m t).1 := by
  rw [effAddr_fst m h.left, effAddr_fst m h.right, h.view.memEa m]

theorem operand (h : Twins s t) (m : MemOperand) :
    (effAddr m s).2.readValue (low11 (effAddr m s).1) = (effAddr m t).2.readValue (low11 (effAddr m t).1) := by
  rw [load_value_of_coherent m h.left, load_value_of_coherent m h.right, h.view.memEa m, h.view.mem]

theorem trapEntry (h : Twins s t) : SameView (trapEntry s) (trapEntry t) := by
  have hw : SameView (savePc s) (savePc t) :=
    h.view.map (fun p => { p with mem := p.mem.setWord savedPcAddr (pcWord p.pc) }) rfl rfl
  have hpc : (Machine.trapEntry s).pc = (Machine.trapEntry t).pc := by
    rw [trapEntry_pc_of_coherent h.left, trapEntry_pc_of_coherent h.right, h.view.mem]
  exact congrArg₂ (fun (p : ProgramView) (pc : PcVal) => { p with pc := pc }) hw hpc

theorem fetch (h : Twins s t) : Twins (fetch s) (fetch t) :=
  ⟨h.view.fetch, coherent_fetch h.left, coherent_fetch h.right⟩

theorem fetch_ir (h : Twins s t) : (Machine.fetch s).ir = (Machine.fetch t).ir := by
  rw [fetch_word h.left, fetch_word h.right, h.view.pc, h.view.mem]

end Twins

/-! Instructions and steps. -/

/-- Both answer a next state, and a program cannot tell which is which. -/
def AgreeNext (p q : Result) : Prop := ∃ s t, p = .next s ∧ q = .next t ∧ SameView s t

theorem execInp_agree {s t : State} (h : SameView s t) (r : Reg) (dev : DevNum) :
    AgreeNext (exec (.inp r dev) s) (exec (.inp r dev) t) := by
  rcases hd : t.dev.devIn dev with ⟨resp, d⟩
  have hd' : s.dev.devIn dev = (resp, d) := by rw [h.dev, hd]
  cases resp with
  | ready v => exact ⟨_, _, exec_inp_ready hd', exec_inp_ready hd, ((h.setDev d).setReg r v).ready⟩
  | notReady => exact ⟨_, _, exec_inp_notReady hd', exec_inp_notReady hd, (h.setDev d).suspended⟩

/-- Every instruction gives twins one view again. -/
theorem exec_agree {s t : State} (h : Twins s t) (i : Instr) : AgreeNext (exec i s) (exec i t) := by
  have v := h.view
  cases i with
  | hlt => exact ⟨_, _, exec_hlt s, exec_hlt t, v.halted⟩
  | ldr r m =>
    refine ⟨_, _, exec_ldr r m s, exec_ldr r m t, ?_⟩
    rw [h.operand m]
    exact (((v.effAddr m).afterRead _ _).setReg r _).ready
  | str r m =>
    refine ⟨_, _, exec_str r m s, exec_str r m t, ?_⟩
    rw [h.ea m, v.reg r]
    exact ((v.effAddr m).memWrite _ _).ready
  | lda r m =>
    refine ⟨_, _, exec_lda r m s, exec_lda r m t, ?_⟩
    rw [h.ea m]
    exact ((v.effAddr m).setReg r _).ready
  | amr r m =>
    refine ⟨_, _, exec_amr r m s, exec_amr r m t, ?_⟩
    rw [h.operand m]
    exact (((v.effAddr m).afterRead _ _).addTo r _).ready
  | smr r m =>
    refine ⟨_, _, exec_smr r m s, exec_smr r m t, ?_⟩
    rw [h.operand m]
    exact (((v.effAddr m).afterRead _ _).subFrom r _).ready
  | air r imm => exact ⟨_, _, exec_air r imm s, exec_air r imm t, (v.addTo r _).ready⟩
  | sir r imm => exact ⟨_, _, exec_sir r imm s, exec_sir r imm t, (v.subFrom r _).ready⟩
  | jz r m =>
    refine ⟨_, _, exec_jz r m s, exec_jz r m t, ?_⟩
    rw [h.ea m, v.reg r]
    exact ((v.effAddr m).branchIf _ _).ready
  | jne r m =>
    refine ⟨_, _, exec_jne r m s, exec_jne r m t, ?_⟩
    rw [h.ea m, v.reg r]
    exact ((v.effAddr m).branchIf _ _).ready
  | jcc b m =>
    refine ⟨_, _, exec_jcc b m s, exec_jcc b m t, ?_⟩
    rw [h.ea m, v.cc]
    exact ((v.effAddr m).branchIf _ _).ready
  | jma m =>
    refine ⟨_, _, exec_jma m s, exec_jma m t, ?_⟩
    rw [h.ea m]
    exact ((v.effAddr m).loadPc _).ready
  | jsr m =>
    refine ⟨_, _, exec_jsr m s, exec_jsr m t, ?_⟩
    rw [h.ea m, v.pc]
    exact (((v.effAddr m).setReg _ _).loadPc _).ready
  | rfs imm =>
    refine ⟨_, _, exec_rfs imm s, exec_rfs imm t, ?_⟩
    rw [v.reg .r3]
    exact ((v.setReg _ _).loadPc _).ready
  | sob r m =>
    refine ⟨_, _, exec_sob r m s, exec_sob r m t, ?_⟩
    rw [h.ea m, v.reg r]
    exact (((v.effAddr m).setReg _ _).branchIf _ _).ready
  | jge r m =>
    refine ⟨_, _, exec_jge r m s, exec_jge r m t, ?_⟩
    rw [h.ea m, v.reg r]
    exact ((v.effAddr m).branchIf _ _).ready
  | mlt rx ry =>
    cases hp : pairLow? rx with
    | none => exact ⟨_, _, exec_mlt_illegal ry s hp, exec_mlt_illegal ry t hp, v.faultEntry _⟩
    | some rx1 =>
      refine ⟨_, _, exec_mlt ry s hp, exec_mlt ry t hp, ?_⟩
      rw [v.reg rx, v.reg ry]
      exact (((v.setReg _ _).setReg _ _).setFlag _ _).ready
  | dvd rx ry =>
    cases hp : pairLow? rx with
    | none => exact ⟨_, _, exec_dvd_illegal ry s hp, exec_dvd_illegal ry t hp, v.faultEntry _⟩
    | some rx1 =>
      by_cases hb : signed (t.reg ry) = 0
      · exact ⟨_, _, exec_dvd_zero s hp (v.reg ry ▸ hb), exec_dvd_zero t hp hb, (v.setFlag _ _).ready⟩
      · refine ⟨_, _, exec_dvd s hp (v.reg ry ▸ hb), exec_dvd t hp hb, ?_⟩
        rw [v.reg rx, v.reg ry]
        exact (((v.setReg _ _).setReg _ _).setFlag _ _).ready
  | trr rx ry =>
    refine ⟨_, _, exec_trr rx ry s, exec_trr rx ry t, ?_⟩
    rw [v.reg rx, v.reg ry]
    exact (v.setFlag _ _).ready
  | andr rx ry =>
    refine ⟨_, _, exec_andr rx ry s, exec_andr rx ry t, ?_⟩
    rw [v.reg rx, v.reg ry]
    exact (v.setReg _ _).ready
  | orr rx ry =>
    refine ⟨_, _, exec_orr rx ry s, exec_orr rx ry t, ?_⟩
    rw [v.reg rx, v.reg ry]
    exact (v.setReg _ _).ready
  | notr rx =>
    refine ⟨_, _, exec_notr rx s, exec_notr rx t, ?_⟩
    rw [v.reg rx]
    exact (v.setReg _ _).ready
  | trap code => exact ⟨_, _, exec_trap code s, exec_trap code t, h.trapEntry.ready⟩
  | src r count dir kind =>
    refine ⟨_, _, exec_src r count dir kind s, exec_src r count dir kind t, ?_⟩
    rw [v.reg r]
    exact (v.setReg _ _).ready
  | rrc r count dir =>
    refine ⟨_, _, exec_rrc r count dir s, exec_rrc r count dir t, ?_⟩
    rw [v.reg r]
    exact (v.setReg _ _).ready
  | ldx x i a =>
    cases hx : IxSel.xreg? x with
    | none => exact ⟨_, _, exec_ldx_illegal i a s hx, exec_ldx_illegal i a t hx, v.faultEntry _⟩
    | some k =>
      refine ⟨_, _, exec_ldx i a s hx, exec_ldx i a t hx, ?_⟩
      rw [h.operand]
      exact (((v.effAddr _).afterRead _ _).setXreg k _).ready
  | stx x i a =>
    cases hx : IxSel.xreg? x with
    | none => exact ⟨_, _, exec_stx_illegal i a s hx, exec_stx_illegal i a t hx, v.faultEntry _⟩
    | some k =>
      refine ⟨_, _, exec_stx i a s hx, exec_stx i a t hx, ?_⟩
      rw [h.ea, v.xreg k]
      exact ((v.effAddr _).memWrite _ _).ready
  | inp r dev => exact execInp_agree v r dev
  | out r dev =>
    refine ⟨_, _, exec_out r dev s, exec_out r dev t, ?_⟩
    rw [v.reg r, v.dev]
    exact (v.setDev _).ready
  | chk r dev => exact ⟨_, _, exec_chk r dev s, exec_chk r dev t, (v.setReg _ _).ready⟩

theorem executeFetched_agree {s t : State} (h : Twins s t) (hir : s.ir = t.ir) :
    AgreeNext (executeFetched s) (executeFetched t) := by
  cases hd : decode t.ir with
  | error e =>
    exact ⟨_, _, executeFetched_error (hir ▸ hd), executeFetched_error hd, h.view.faultEntry _⟩
  | ok i =>
    rw [executeFetched_ok hd, executeFetched_ok (hir ▸ hd)]
    exact exec_agree h i

theorem cycle_agree {s t : State} (h : Twins s t) : AgreeNext (cycle s) (cycle t) := by
  by_cases hpc : t.pc.toNat < 2048
  · rw [cycle_inRange hpc, cycle_inRange (h.view.pc ▸ hpc)]
    exact executeFetched_agree h.fetch h.fetch_ir
  · have hpc : 2048 ≤ t.pc.toNat := by omega
    exact ⟨_, _, cycle_outOfRange (h.view.pc ▸ hpc), cycle_outOfRange hpc, h.view.faultEntry _⟩

/-- A step from one of two twins is matched by a step from the other. -/
theorem step_agree {s t s' : State} (h : Twins s t) (hstep : step s = .next s') :
    ∃ t', step t = .next t' ∧ programView s' = programView t' := by
  obtain ⟨hrun, hcycle⟩ := step_next hstep
  obtain ⟨u, t', hu, ht, hv⟩ := cycle_agree h
  rw [hcycle] at hu
  cases hu
  exact ⟨t', (step_running (h.view.runState ▸ hrun)).trans ht, hv⟩

theorem step_cacheInv {s t : State} (hs : CacheInv s.cache s.mem) (hstep : step s = .next t) :
    CacheInv t.cache t.mem :=
  accessClosed_cacheInv.cycle (step_next hstep).2 hs

/-- Settles O10: a step is a function of the view, `step_agree`; the cache invariants are those every access keeps. -/
theorem programsCannotObserveTheCache : Obligations.ProgramsCannotObserveTheCache := by
  refine ⟨fun s t s' hs ht hv hstep => step_agree ⟨hv, hs, ht⟩ hstep, fun s t s' hs ht hv hstep => ?_⟩
  obtain ⟨t', ht', hv'⟩ := step_agree ⟨hv, hs.coherent, ht.coherent⟩ hstep
  exact ⟨t', ht', hv', step_cacheInv hs hstep, step_cacheInv ht ht'⟩

end Sys2Proof.Proofs
end

section
/-! PROOFS (spec/10_state.md R32, R34, R39, R41 to R43): what an instruction may write. One rule per named operation
says that it stays within an instruction's named writes; each well-formed instruction is a chain of those rules, an
ill-formed one is fault entry. -/

namespace Sys2Proof.Proofs

open Sys2Proof Sys2Proof.Machine Sys2Proof.Laws

/-- The index registers an instruction may write: LDX's own (R34). -/
def ixrWrites : Instr → List XReg
  | .ldx x _ _ => (IxSel.xreg? x).toList
  | _ => []

/-- The instructions that write memory (R43, R78). -/
def writesMem : Instr → Bool
  | .str _ _ | .stx _ _ _ | .trap _ => true
  | _ => false

/-- From s to t nothing changed but what i names as its writes, PC, MAR, MBR, the cache, the devices and the run
state. -/
structure WritesOnly (i : Instr) (s t : State) : Prop where
  gpr   : GprKept (gprWrites i) s t
  ixr   : IxrKept (ixrWrites i) s t
  flags : FlagsKept (flagWrites i) s t
  ir    : t.ir = s.ir
  mfr   : t.mfr = s.mfr
  mem   : writesMem i = false → t.mem = s.mem

namespace WritesOnly

variable {i : Instr} {s t : State}

theorem refl : WritesOnly i s s :=
  ⟨fun _ _ => rfl, fun _ _ => rfl, fun _ _ => rfl, rfl, rfl, fun _ => rfl⟩

theorem setReg (h : WritesOnly i s t) {r : Reg} (v : Word) (hr : r ∈ gprWrites i) :
    WritesOnly i s (t.setReg r v) :=
  { h with gpr := fun q hq => (setReg_reg_other t v (ne_of_mem_of_not_mem hr hq).symm).trans (h.gpr q hq) }

theorem setXreg (h : WritesOnly i s t) {x : XReg} (v : Word) (hx : x ∈ ixrWrites i) :
    WritesOnly i s (t.setXreg x v) :=
  { h with ixr := fun y hy => (setXreg_xreg_other t v (ne_of_mem_of_not_mem hx hy).symm).trans (h.ixr y hy) }

theorem setFlag (h : WritesOnly i s t) {f : Flag} (b : Bool) (hf : f ∈ flagWrites i) :
    WritesOnly i s (t.setFlag f b) :=
  { h with flags := fun g hg => (setFlag_flag_other t b (ne_of_mem_of_not_mem hf hg).symm).trans (h.flags g hg) }

theorem memWrite (h : WritesOnly i s t) (a : Addr) (v : Word) (hi : writesMem i = true) :
    WritesOnly i s (memWrite a v t) :=
  { h with mem := fun hf => absurd (hi.symm.trans hf) nofun }

theorem afterRead (h : WritesOnly i s t) (a : Addr) : WritesOnly i s (t.afterRead a) := { h with }

theorem loadPc (h : WritesOnly i s t) (v : Word) : WritesOnly i s (t.loadPc v) := { h with }

theorem ready (h : WritesOnly i s t) : WritesOnly i s t.ready := { h with }

theorem setDev (h : WritesOnly i s t) (d : Devices) : WritesOnly i s { t with dev := d } := { h with }

theorem effAddr (h : WritesOnly i s t) (m : MemOperand) : WritesOnly i s (effAddr m t).2 := by
  unfold Machine.effAddr
  split
  · exact h.afterRead _
  · exact h

theorem branchIf (h : WritesOnly i s t) (b : Bool) (ea : Word) : WritesOnly i s (branchIf b ea t) := by
  cases b with
  | false => exact h
  | true => exact h.loadPc ea

theorem addTo (h : WritesOnly i s t) {r : Reg} (b : Int) (hr : r ∈ gprWrites i) (hf : .overflow ∈ flagWrites i) :
    WritesOnly i s (addTo r b t) :=
  (h.setReg _ hr).setFlag _ hf

theorem subFrom (h : WritesOnly i s t) {r : Reg} (b : Int) (hr : r ∈ gprWrites i)
    (hf : .underflow ∈ flagWrites i) : WritesOnly i s (subFrom r b t) :=
  (h.setReg _ hr).setFlag _ hf

theorem trapEntry (h : WritesOnly i s t) (hi : writesMem i = true) : WritesOnly i s (trapEntry t) :=
  ((h.memWrite savedPcAddr (pcWord t.pc) hi).afterRead _).loadPc _

theorem halted (h : WritesOnly i s t) : WritesOnly i s { t with runState := .halted } := { h with }

theorem suspended (h : WritesOnly i s t) : WritesOnly i s { t with pc := t.pc - 1, runState := .waiting } :=
  { h with }

end WritesOnly

open WritesOnly

theorem xreg_of_ne_off {x : IxSel} (hx : (x != .off) = true) : ∃ k, IxSel.xreg? x = some k := by
  cases x with
  | off => cases hx
  | x1 => exact ⟨.x1, rfl⟩
  | x2 => exact ⟨.x2, rfl⟩
  | x3 => exact ⟨.x3, rfl⟩

theorem execInp_writesOnly (r : Reg) (dev : DevNum) (s : State) :
    ∃ t, exec (.inp r dev) s = .next t ∧ WritesOnly (.inp r dev) s t := by
  rcases hd : s.dev.devIn dev with ⟨resp, d⟩
  cases resp with
  | ready v => exact ⟨_, exec_inp_ready hd, ((refl.setDev d).setReg v (.head _)).ready⟩
  | notReady => exact ⟨_, exec_inp_notReady hd, (refl.setDev d).suspended⟩

/-- The pair Rx:Rx+1 of a well-formed MLT or DVD is the one `gprWrites` names (R270, R271). -/
theorem pair_writes {rx : Reg} (ry : Reg) (h : (Instr.mlt rx ry).wellFormed = true) :
    ∃ rx1, pairLow? rx = some rx1 ∧ gprWrites (.mlt rx ry) = [rx, rx1] ∧ gprWrites (.dvd rx ry) = [rx, rx1] := by
  cases rx with
  | r0 => exact ⟨.r1, rfl, rfl, rfl⟩
  | r2 => exact ⟨.r3, rfl, rfl, rfl⟩
  | r1 | r3 => cases h

theorem execDvd_writesOnly {rx : Reg} (ry : Reg) (s : State) (hwf : (Instr.dvd rx ry).wellFormed = true) :
    ∃ t, exec (.dvd rx ry) s = .next t ∧ WritesOnly (.dvd rx ry) s t := by
  obtain ⟨rx1, hp, -, hw⟩ := pair_writes ry hwf
  by_cases hb : signed (s.reg ry) = 0
  · exact ⟨_, exec_dvd_zero s hp hb, (refl.setFlag _ (.head _)).ready⟩
  · exact ⟨_, exec_dvd s hp hb,
      (((refl.setReg _ (by simp [hw])).setReg _ (by simp [hw])).setFlag _ (.head _)).ready⟩

/-- A well-formed instruction writes what the tables of R32, R34, R41 and R43 name and nothing else. -/
theorem exec_writesOnly {i : Instr} (s : State) (hwf : i.wellFormed = true) :
    ∃ t, exec i s = .next t ∧ WritesOnly i s t := by
  cases i with
  | hlt => exact ⟨_, exec_hlt s, refl.halted⟩
  | ldr r m => exact ⟨_, exec_ldr r m s, (((refl.effAddr m).afterRead _).setReg _ (.head _)).ready⟩
  | str r m => exact ⟨_, exec_str r m s, ((refl.effAddr m).memWrite _ _ rfl).ready⟩
  | lda r m => exact ⟨_, exec_lda r m s, ((refl.effAddr m).setReg _ (.head _)).ready⟩
  | amr r m =>
    exact ⟨_, exec_amr r m s, (((refl.effAddr m).afterRead _).addTo _ (.head _) (.head _)).ready⟩
  | smr r m =>
    exact ⟨_, exec_smr r m s, (((refl.effAddr m).afterRead _).subFrom _ (.head _) (.head _)).ready⟩
  | air r imm => exact ⟨_, exec_air r imm s, (refl.addTo _ (.head _) (.head _)).ready⟩
  | sir r imm => exact ⟨_, exec_sir r imm s, (refl.subFrom _ (.head _) (.head _)).ready⟩
  | jz r m => exact ⟨_, exec_jz r m s, ((refl.effAddr m).branchIf _ _).ready⟩
  | jne r m => exact ⟨_, exec_jne r m s, ((refl.effAddr m).branchIf _ _).ready⟩
  | jcc b m => exact ⟨_, exec_jcc b m s, ((refl.effAddr m).branchIf _ _).ready⟩
  | jma m => exact ⟨_, exec_jma m s, ((refl.effAddr m).loadPc _).ready⟩
  | jsr m => exact ⟨_, exec_jsr m s, (((refl.effAddr m).setReg _ (.head _)).loadPc _).ready⟩
  | rfs imm => exact ⟨_, exec_rfs imm s, ((refl.setReg _ (.head _)).loadPc _).ready⟩
  | sob r m => exact ⟨_, exec_sob r m s, (((refl.effAddr m).setReg _ (.head _)).branchIf _ _).ready⟩
  | jge r m => exact ⟨_, exec_jge r m s, ((refl.effAddr m).branchIf _ _).ready⟩
  | mlt rx ry =>
    obtain ⟨rx1, hp, hw, -⟩ := pair_writes ry hwf
    exact ⟨_, exec_mlt ry s hp,
      (((refl.setReg _ (by simp [hw])).setReg _ (by simp [hw])).setFlag _ (.head _)).ready⟩
  | dvd rx ry => exact execDvd_writesOnly ry s hwf
  | trr rx ry => exact ⟨_, exec_trr rx ry s, (refl.setFlag _ (.head _)).ready⟩
  | andr rx ry => exact ⟨_, exec_andr rx ry s, (refl.setReg _ (.head _)).ready⟩
  | orr rx ry => exact ⟨_, exec_orr rx ry s, (refl.setReg _ (.head _)).ready⟩
  | notr rx => exact ⟨_, exec_notr rx s, (refl.setReg _ (.head _)).ready⟩
  | trap code => exact ⟨_, exec_trap code s, (refl.trapEntry rfl).ready⟩
  | src r count dir kind => exact ⟨_, exec_src r count dir kind s, (refl.setReg _ (.head _)).ready⟩
  | rrc r count dir => exact ⟨_, exec_rrc r count dir s, (refl.setReg _ (.head _)).ready⟩
  | ldx x i a =>
    obtain ⟨k, hk⟩ := xreg_of_ne_off hwf
    exact ⟨_, exec_ldx i a s hk,
      (((refl.effAddr _).afterRead _).setXreg _ (by simp [ixrWrites, hk])).ready⟩
  | stx x i a =>
    obtain ⟨k, hk⟩ := xreg_of_ne_off hwf
    exact ⟨_, exec_stx i a s hk, ((refl.effAddr _).memWrite _ _ rfl).ready⟩
  | inp r dev => exact execInp_writesOnly r dev s
  | out r dev => exact ⟨_, exec_out r dev s, (refl.setDev _).ready⟩
  | chk r dev => exact ⟨_, exec_chk r dev s, (refl.setReg _ (.head _)).ready⟩

/-- An ill-formed instruction is fault entry with code 4 (R136). -/
theorem exec_illFormed {i : Instr} (s : State) (hwf : i.wellFormed = false) :
    exec i s = .next (faultEntry .illegalOperationCode s) := by
  cases i with
  | mlt rx ry =>
    obtain ⟨rfl, _⟩ | ⟨rfl, _⟩ | ⟨_, hp⟩ := pairLow_cases rx
    · cases hwf
    · cases hwf
    · exact exec_mlt_illegal ry s hp
  | dvd rx ry =>
    obtain ⟨rfl, _⟩ | ⟨rfl, _⟩ | ⟨_, hp⟩ := pairLow_cases rx
    · cases hwf
    · cases hwf
    · exact exec_dvd_illegal ry s hp
  | ldx x i a =>
    cases x with
    | off => exact exec_ldx_illegal i a s rfl
    | x1 | x2 | x3 => cases hwf
  | stx x i a =>
    cases x with
    | off => exact exec_stx_illegal i a s rfl
    | x1 | x2 | x3 => cases hwf
  | _ => cases hwf

/-- What an instruction can do: its named writes, or fault entry where it is ill-formed. -/
theorem exec_cases {i : Instr} {s t : State} (h : exec i s = .next t) :
    (i.wellFormed = true ∧ WritesOnly i s t) ∨
    (i.wellFormed = false ∧ t = faultEntry .illegalOperationCode s) := by
  cases hwf : i.wellFormed with
  | true =>
    obtain ⟨u, hu, hw⟩ := exec_writesOnly s hwf
    rw [h] at hu
    cases hu
    exact .inl ⟨rfl, hw⟩
  | false =>
    rw [exec_illFormed s hwf] at h
    cases h
    exact .inr ⟨rfl, rfl⟩

/-- Settles O52: CC is written under `flagWrites`, and fault entry keeps CC. -/
theorem onlyTheNamedInstructionsWriteFlags : Obligations.OnlyTheNamedInstructionsWriteFlags := by
  intro i s t h
  obtain ⟨_, hw⟩ | ⟨_, rfl⟩ := exec_cases h
  · exact hw.flags
  · exact flagsKept_of_eq (faultEntry_cc _ s) _

/-- Settles O53: general registers are written under `gprWrites`, and fault entry keeps them. -/
theorem onlyTheNamedRegistersAreWritten : Obligations.OnlyTheNamedRegistersAreWritten := by
  intro i s t h
  obtain ⟨_, hw⟩ | ⟨_, rfl⟩ := exec_cases h
  · exact hw.gpr
  · exact gprKept_of_eq (faultEntry_gpr _ s) _

theorem ixrWrites_of_ne_ldx {i : Instr} (hi : ∀ x ind a, i ≠ .ldx x ind a) : ixrWrites i = [] := by
  cases i with
  | ldx x ind a => exact absurd rfl (hi x ind a)
  | _ => rfl

/-- Settles O54: of the named writes only LDX's hold an index register, and none is IR or MFR; fault entry writes
MFR alone of the three. -/
theorem specialRegistersHaveOneWriter : Obligations.SpecialRegistersHaveOneWriter := by
  intro i s t h
  obtain ⟨hwf, hw⟩ | ⟨hwf, rfl⟩ := exec_cases h
  · refine ⟨fun hi => ixr_ext fun y => hw.ixr y ?_, hw.ir, fun _ => hw.mfr, fun hf => ?_⟩
    · simp [ixrWrites_of_ne_ldx hi]
    · simp [hwf] at hf
  · refine ⟨fun _ => rfl, rfl, fun ht => ?_, fun _ => rfl⟩
    simp [hwf] at ht

theorem writesMem_eq_false {i : Instr} (hstr : ∀ r m, i ≠ .str r m) (hstx : ∀ x ind a, i ≠ .stx x ind a)
    (htrap : ∀ code, i ≠ .trap code) : writesMem i = false := by
  cases i with
  | str r m => exact absurd rfl (hstr r m)
  | stx x ind a => exact absurd rfl (hstx x ind a)
  | trap code => exact absurd rfl (htrap code)
  | _ => rfl

/-- Settles O55: memory is written under `writesMem` alone, and a well-formed instruction raises no fault. -/
theorem onlyStoresAndTrapWriteMemory : Obligations.OnlyStoresAndTrapWriteMemory := by
  intro i s t hwf h hstr hstx htrap
  obtain ⟨_, hw⟩ | ⟨hf, _⟩ := exec_cases h
  · exact bytesKept_of_eq (hw.mem (writesMem_eq_false hstr hstx htrap))
  · simp [hwf] at hf

end Sys2Proof.Proofs
end

section
/-! PROOFS (spec/10_state.md R40, R46, R50, spec/70_reset_and_hazards.md R450): the reset state and the places of the
flags. -/

namespace Sys2Proof.Proofs

open Sys2Proof Sys2Proof.Machine Sys2Proof.Laws

/-- Power-on reset is the operator's reset of a machine whose counter of answers is 0. -/
theorem reset_eq_hostReset : State.reset = hostReset State.reset := rfl

theorem atReset_hostReset (s : State) : AtReset (hostReset s) where
  gpr r := by cases r <;> rfl
  ixr x := by cases x <;> rfl
  pc := rfl
  ir := rfl
  cc := rfl
  flags _ := BitVec.getLsbD_zero
  mfr := rfl
  mar := rfl
  mbr := rfl
  lines := line_reset
  queue := rfl
  runState := rfl
  mem := word_nil
  keyboard := rfl
  fileReader := rfl
  printer := rfl

/-- Settles O1: power-on reset is an operator's reset, and every field of an operator's reset is a literal. -/
theorem resetLeavesTheSpecsValues : Obligations.ResetLeavesTheSpecsValues :=
  ⟨reset_eq_hostReset ▸ atReset_hostReset State.reset, atReset_hostReset⟩

theorem inv_hostReset (s : State) : Inv (hostReset s) where
  memWf := wf_nil
  cache := cacheInv_reset []
  pc := Nat.zero_le 2048
  mfr := .inl rfl
  faulted := ⟨nofun, fun h => absurd rfl h⟩

/-- Settles O2, from the invariants of the empty memory and the empty cache. -/
theorem resetMeetsTheInvariants : Obligations.ResetMeetsTheInvariants :=
  ⟨reset_eq_hostReset ▸ inv_hostReset State.reset, fillOrder_reset,
    fun s => ⟨inv_hostReset s, fillOrder_reset, rfl, rfl⟩⟩

/-- Settles O32: a flag is read at its position (`Flag.pos`). -/
theorem ccFlagsStandAtTheirPositions : Obligations.CcFlagsStandAtTheirPositions :=
  fun s => ⟨flag_eq s .overflow, flag_eq s .underflow, flag_eq s .divzero, flag_eq s .equal⟩

end Sys2Proof.Proofs
end

section
/-! PROOFS (spec/20_memory.md R85, R88): the installs. Which line an install fills and what it does to the queue, the
shape n installs after reset leave, and the properties of cache and memory that every host operation keeps. -/

namespace Sys2Proof.Proofs

open Sys2Proof Sys2Proof.Machine Sys2Proof.Laws

/-! One install (R85). -/

theorem free_eq {c : Cache} {k : LineIdx} (hk : (c.line k).valid = false)
    (hlt : ∀ j : LineIdx, j < k → (c.line j).valid = true) : c.free? = some k := by
  cases hf : c.free? with
  | none => simp [free_none.mp hf k] at hk
  | some i =>
    obtain ⟨hi, hlti⟩ := free_some hf
    have hik : ¬ i < k := fun h => by simp [hlt i h] at hi
    have hki : ¬ k < i := fun h => by simp [hlti k h] at hk
    rw [le_antisymm (not_lt.mp hki) (not_lt.mp hik)]

theorem install_lowestInvalid {c : Cache} {k : LineIdx} (a : Addr) (w : Word) (hk : (c.line k).valid = false)
    (hlt : ∀ j : LineIdx, j < k → (c.line j).valid = true) : c.install a w = c.fill k c.queue a w := by
  simp only [Cache.install, free_eq hk hlt]

theorem install_oldest {c : Cache} {k : LineIdx} {rest : List LineIdx} (a : Addr) (w : Word)
    (hall : ∀ j : LineIdx, (c.line j).valid = true) (hq : c.queue = k :: rest) :
    c.install a w = c.fill k rest a w := by
  simp only [Cache.install, free_none.mpr hall, hq, List.headD_cons, List.tail_cons]

/-- Settles O6: either way the install is one `fill`. -/
theorem installTakesTheLowestInvalidLineElseTheOldest :
    Obligations.InstallTakesTheLowestInvalidLineElseTheOldest := by
  refine ⟨fun c a w k hk hlt => ?_, fun c a w k rest hall hq => ?_⟩
  · rw [install_lowestInvalid a w hk hlt]
    exact ⟨rfl, line_fill c k c.queue a w⟩
  · rw [install_oldest a w hall hq]
    exact ⟨rfl, line_fill c k rest a w⟩

/-! The installs after reset (R88). -/

/-- The line the install after n installs fills. -/
def nextLine (n : Nat) : LineIdx := Fin.ofNat 16 n

/-- The queue after n installs. -/
def fillQueue (n : Nat) : List LineIdx :=
  if n < 16 then lineIdxs.take n else lineIdxs.rotate (n % 16)

/-- The cache is as n installs after reset leave it: the lines below n valid, their indices queued in turn. -/
structure FilledInTurn (n : Nat) (c : Cache) : Prop where
  valid : ∀ k : LineIdx, (c.line k).valid = true ↔ k.val < n
  queue : c.queue = fillQueue n

theorem filledInTurn_reset : FilledInTurn 0 Cache.reset where
  valid k := by simp [line_reset]
  queue := rfl

theorem nextLine_val (n : Nat) : (nextLine n).val = n % 16 := rfl

theorem eq_nextLine_iff {j : LineIdx} {n : Nat} : j = nextLine n ↔ j.val = n % 16 := Fin.ext_iff

theorem fillQueue_succ_of_lt {n : Nat} (hn : n < 16) : fillQueue n ++ [nextLine n] = fillQueue (n + 1) := by
  revert n
  decide

theorem rotate_lineIdxs (r : Fin 16) : ∃ rest, lineIdxs.rotate r.val = r :: rest ∧
    rest ++ [r] = lineIdxs.rotate ((r.val + 1) % 16) := by
  refine ⟨(lineIdxs.rotate r.val).tail, ?_⟩
  revert r
  decide

/-- Once the cache is full the queue's head moves to its tail. -/
theorem fillQueue_succ_of_le {n : Nat} (hn : 16 ≤ n) :
    ∃ rest, fillQueue n = nextLine n :: rest ∧ rest ++ [nextLine n] = fillQueue (n + 1) := by
  have hn' : ¬ n < 16 := by omega
  have hs : ¬ n + 1 < 16 := by omega
  simpa [fillQueue, hn', hs, nextLine_val] using rotate_lineIdxs (nextLine n)

/-- The install after n installs fills the next line in turn. -/
theorem FilledInTurn.install_eq_fill {n : Nat} {c : Cache} (h : FilledInTurn n c) (a : Addr) (w : Word) :
    ∃ q, c.install a w = c.fill (nextLine n) q a w ∧ q ++ [nextLine n] = fillQueue (n + 1) := by
  by_cases hn : n < 16
  · have hv : (nextLine n).val = n := Nat.mod_eq_of_lt hn
    refine ⟨c.queue, install_lowestInvalid a w ?_ fun j hj => ?_, h.queue ▸ fillQueue_succ_of_lt hn⟩
    · simp [← Bool.not_eq_true, h.valid, hv]
    · exact (h.valid j).mpr (hv ▸ hj)
  · obtain ⟨rest, hq, hrest⟩ := fillQueue_succ_of_le (not_lt.mp hn)
    have hall (j : LineIdx) : (c.line j).valid = true := (h.valid j).mpr (by omega)
    exact ⟨rest, install_oldest a w hall (h.queue.trans hq), hrest⟩

theorem FilledInTurn.install {n : Nat} {c : Cache} (h : FilledInTurn n c) (a : Addr) (w : Word) :
    FilledInTurn (n + 1) (c.install a w) := by
  obtain ⟨q, e, hq⟩ := h.install_eq_fill a w
  refine e ▸ ⟨fun j => ?_, hq⟩
  rw [line_fill]
  split
  · next hj =>
    have : j.val = n % 16 := eq_nextLine_iff.mp hj
    simp only [true_iff]
    omega
  · next hj =>
    have : j.val ≠ n % 16 := mt eq_nextLine_iff.mpr hj
    rw [h.valid j]
    omega

theorem FilledInTurn.installs {n : Nat} {c : Cache} (h : FilledInTurn n c) (ins : List (Addr × Word)) :
    FilledInTurn (n + ins.length) (ins.foldl (fun c e => Cache.install c e.1 e.2) c) := by
  induction ins generalizing n c with
  | nil => exact h
  | cons e ins ih =>
    rw [List.length_cons, Nat.add_comm ins.length, ← Nat.add_assoc]
    exact ih (h.install e.1 e.2)

theorem filter_lt_lineIdxs (n : Nat) : (lineIdxs.filter fun k => k.val < n) = lineIdxs.take n := by
  by_cases hn : n < 16
  · revert n
    decide
  · rw [List.filter_eq_self.mpr fun k _ => decide_eq_true (by omega),
      List.take_of_length_le (show lineIdxs.length ≤ n from not_lt.mp hn)]

theorem FilledInTurn.count {n : Nat} {c : Cache} (h : FilledInTurn n c) :
    (lineIdxs.filter fun k => (c.line k).valid).length = min 16 n := by
  have hv : (fun k : LineIdx => (c.line k).valid) = fun k => decide (k.val < n) :=
    funext fun k => Bool.eq_iff_iff.mpr ((h.valid k).trans decide_eq_true_iff.symm)
  rw [hv, filter_lt_lineIdxs, List.length_take, Nat.min_comm]
  rfl

/-! What every host operation keeps (R415 to R417). -/

/-- A property of the cache and memory that every access, every host load and a reset keep or establish. -/
structure HostClosed (P : Cache → Memory → Prop) : Prop extends AccessClosed P where
  load  : ∀ (c : Cache) (m : Memory) (a : Addr) (w : Word), P c m → P (c.afterLoad a w) (m.setWord a w)
  reset : P Cache.reset []

/-- An operation that may be refused keeps a property where its accepted outcome has it. -/
theorem keeps_getD {P : Cache → Memory → Prop} {s : State} (h : P s.cache s.mem) {o : Option State}
    (ho : ∀ t, o = some t → P t.cache t.mem) : P (o.getD s).cache (o.getD s).mem := by
  cases o with
  | none => exact h
  | some t => exact ho t rfl

namespace HostClosed

variable {P : Cache → Memory → Prop} {s t : State}

theorem hostStep (hP : HostClosed P) (h : P s.cache s.mem) : P (hostStep s).2.cache (hostStep s).2.mem := by
  unfold Machine.hostStep
  split
  · next t ht => exact hP.cycle (step_next ht).2 h
  · exact h
  · next r _ => exact nomatch r

theorem hostLoad (hP : HostClosed P) {addr : Nat} {w : Word} (ht : hostLoad addr w s = some t)
    (h : P s.cache s.mem) : P t.cache t.mem := by
  unfold Machine.hostLoad at ht
  split at ht
  · cases ht
    exact hP.load _ _ _ _ h
  · cases ht

theorem loadRecords (hP : HostClosed P) {records : List (Nat × Word)} (ht : loadRecords records s = some t)
    (h : P s.cache s.mem) : P t.cache t.mem := by
  induction records generalizing s with
  | nil => cases ht; exact h
  | cons e rest ih =>
    simp only [Machine.loadRecords] at ht
    split at ht
    · cases ht
    · next s' hs' => exact ih ht (hP.hostLoad hs' h)

theorem hostIpl (hP : HostClosed P) {records : List (Nat × Word)} (ht : hostIpl records s = some t)
    (h : P s.cache s.mem) : P t.cache t.mem := by
  unfold Machine.hostIpl at ht
  split at ht
  · cases ht; exact h
  · split at ht
    · cases ht
    · next s' hs' =>
      cases ht
      exact (hP.loadRecords hs' h : P s'.cache s'.mem)

theorem applyHost (hP : HostClosed P) (op : HostOp) (h : P s.cache s.mem) :
    P (applyHost op s).cache (applyHost op s).mem := by
  cases op with
  | reset => exact hP.reset
  | step => exact hP.hostStep h
  | load addr w => exact keeps_getD h fun _ ht => hP.hostLoad ht h
  | ipl records => exact keeps_getD h fun _ ht => hP.hostIpl ht h
  | inspect _ | cacheView | submitKeyboard _ | takePrinter | preloadFile _ | observe => exact h

theorem session (hP : HostClosed P) (ops : List HostOp) (h : P s.cache s.mem) :
    P (session ops s).cache (session ops s).mem := by
  induction ops generalizing s with
  | nil => exact h
  | cons op rest ih => exact ih (hP.applyHost op h)

end HostClosed

theorem hostClosed_fillOrder : HostClosed fun c _ => FillOrder c :=
  { accessClosed_fillOrder with
    load := fun _ _ a w h => fillOrder_afterLoad a w h
    reset := fillOrder_reset }

/-- Settles O5: n installs after reset leave `FilledInTurn n`, by induction on the installs, and the fill order is a
property every host operation keeps. -/
theorem installsFillTheLinesInTurn : Obligations.InstallsFillTheLinesInTurn := by
  refine ⟨fun ins => ?_, fun ops s h => hostClosed_fillOrder.session ops h⟩
  intro c
  have hc : FilledInTurn ins.length c := by simpa using filledInTurn_reset.installs ins
  refine ⟨hc.count, fun hn => hc.queue.trans (if_neg (not_lt.mpr hn)), fun a w j => ?_⟩
  obtain ⟨q, e, _⟩ := hc.install_eq_fill a w
  rw [e, line_fill]
  simp only [eq_nextLine_iff]

end Sys2Proof.Proofs
end

section
/-! PROOFS (spec/20_memory.md R83, R84, R89, R94, R97): reads and writes through the cache and the host's load past it.
One rule per access on a hit and one on a miss; the value a program reads is the memory word by coherence. -/

namespace Sys2Proof.Proofs

open Sys2Proof Sys2Proof.Machine Sys2Proof.Laws

/-! Each access on a hit and on a miss (R82). -/

theorem memRead_hit {s : State} {a : Addr} {k : LineIdx} (hk : s.cache.hit? a = some k) :
    memRead a s = ((s.cache.line k).data, { s with mar := a, mbr := (s.cache.line k).data }) := by
  simp only [memRead, State.afterRead, State.readValue, Cache.afterRead, hk]

theorem memRead_miss {s : State} {a : Addr} (hm : s.cache.hit? a = none) :
    memRead a s =
      (s.mem.word a, { s with mar := a, mbr := s.mem.word a, cache := s.cache.install a (s.mem.word a) }) := by
  simp only [memRead, State.afterRead, State.readValue, Cache.afterRead, hm]

theorem afterWrite_hit {c : Cache} {a : Addr} {k : LineIdx} (w : Word) (hk : c.hit? a = some k) :
    c.afterWrite a w = c.setData k w := by
  simp only [Cache.afterWrite, hk]

theorem afterWrite_miss {c : Cache} {a : Addr} (w : Word) (hm : c.hit? a = none) :
    c.afterWrite a w = c.install a w := by
  simp only [Cache.afterWrite, hm]

theorem afterLoad_hit {c : Cache} {a : Addr} {k : LineIdx} (w : Word) (hk : c.hit? a = some k) :
    c.afterLoad a w = c.setData k w := by
  simp only [Cache.afterLoad, hk]

theorem afterLoad_miss {c : Cache} {a : Addr} (w : Word) (hm : c.hit? a = none) : c.afterLoad a w = c := by
  simp only [Cache.afterLoad, hm]

/-- The line updated in place stays valid under its tag (R84). -/
theorem line_setData_hit {c : Cache} {a : Addr} {k : LineIdx} (w : Word) (hk : c.hit? a = some k) (j : LineIdx) :
    (c.setData k w).line j = if j = k then { valid := true, tag := a, data := w } else c.line j := by
  obtain ⟨hv, ht⟩ := hit_some hk
  simp only [line_setData, hv, ht]

/-- Settles O7: with unique tags the valid line of the address is the hit; without one the read misses. -/
theorem readGoesThroughTheCache : Obligations.ReadGoesThroughTheCache :=
  ⟨fun _ _ _ hu hv ht => memRead_hit (hit_eq hu hv ht), fun _ _ hm => memRead_miss (hit_none.mpr hm)⟩

/-- Settles O8: the memory word by a read after a write, the cache by the hit and the miss of `afterWrite`. -/
theorem writeGoesThroughAndAllocates : Obligations.WriteGoesThroughAndAllocates := by
  intro s a v t
  refine ⟨rfl, memWrite_word_same s a v, bytesKeptBut_setWord v rfl, rfl, fun k hu hv ht => ?_, fun hm => ?_⟩
  · have hk := hit_eq hu hv ht
    have hc : t.cache = s.cache.setData k v := afterWrite_hit v hk
    exact hc ▸ ⟨rfl, line_setData_hit v hk⟩
  · exact afterWrite_miss v (hit_none.mpr hm)

/-! What a program reads (R89, R94). -/

/-- A read of the address just written gives the word written. -/
theorem readValue_memWrite_same {s : State} (a : Addr) (v : Word) (h : CacheInv s.cache s.mem) :
    (memWrite a v s).readValue a = v :=
  (readValue_eq a (cacheInv_memWrite a v h).coherent).trans (memWrite_word_same s a v)

/-- Settles O9: before and after the write the cache is coherent with memory. -/
theorem cacheIsTransparent : Obligations.CacheIsTransparent := by
  intro s a v h
  refine ⟨readValue_eq a h.coherent, memWrite_word_same s a v, fun k hv ht => ?_, readValue_memWrite_same a v h⟩
  rw [← (cacheInv_memWrite a v h).coherent k hv, ht, memWrite_word_same]

/-- Settles O56: the fetch reads the address just written. -/
theorem storedWordIsFetchedNext : Obligations.StoredWordIsFetchedNext :=
  fun _ v h _ => readValue_memWrite_same _ v h

/-! The host's load (R97). -/

theorem hostLoad_inRange {addr : Nat} (w : Word) (s : State) (h : addr < 2048) :
    hostLoad addr w s = some (deposit (BitVec.ofNat 11 addr) w s) := if_pos h

theorem hostLoad_outOfRange {addr : Nat} (w : Word) (s : State) (h : 2048 ≤ addr) :
    hostLoad addr w s = none := if_neg (not_lt.mpr h)

theorem hostInspect_inRange {addr : Nat} (s : State) (h : addr < 2048) :
    hostInspect addr s = some (s.mem.word (BitVec.ofNat 11 addr)) := if_pos h

theorem hostInspect_outOfRange {addr : Nat} (s : State) (h : 2048 ≤ addr) :
    hostInspect addr s = none := if_neg (not_lt.mpr h)

theorem queue_afterLoad (c : Cache) (a : Addr) (w : Word) : (c.afterLoad a w).queue = c.queue := by
  cases hh : c.hit? a with
  | none => rw [afterLoad_miss w hh]
  | some k => rw [afterLoad_hit w hh, queue_setData]

/-- A host load updates the valid line of its address and no other. -/
theorem line_afterLoad {c : Cache} (a : Addr) (w : Word) (hu : UniqueTags c) (j : LineIdx) :
    (c.afterLoad a w).line j =
      if (c.line j).valid = true ∧ (c.line j).tag = a then { valid := true, tag := a, data := w }
      else c.line j := by
  cases hh : c.hit? a with
  | none =>
    rw [afterLoad_miss w hh, if_neg fun h => hit_none.mp hh j h.1 h.2]
  | some k =>
    have hjk : j = k ↔ (c.line j).valid = true ∧ (c.line j).tag = a := by
      refine ⟨fun e => e ▸ hit_some hh, fun ⟨hv, ht⟩ => ?_⟩
      exact Option.some.inj ((hit_eq hu hv ht).symm.trans hh)
    rw [afterLoad_hit w hh, line_setData_hit w hh]
    simp only [hjk]

/-- Settles O58: an accepted load is the deposit of the word, whose cache is `afterLoad`. -/
theorem hostLoadBypassesTheCache : Obligations.HostLoadBypassesTheCache := by
  refine ⟨fun addr w s h hu => ?_, fun addr w s h => ⟨hostLoad_outOfRange w s h, hostInspect_outOfRange s h⟩,
    fun _ => rfl⟩
  exact ⟨_, hostLoad_inRange w s h, word_setWord_same _ _ _, bytesKeptBut_setWord w rfl, rfl,
    queue_afterLoad _ _ _, line_afterLoad _ w hu, hostInspect_inRange s h⟩

end Sys2Proof.Proofs
end

section
/-! PROOFS (spec/30_encoding.md R121 to R136): the decoder against the encoder. A word's opcode selects the instruction
whose fields are read; `encode` writes those fields back and 0 elsewhere. -/

namespace Sys2Proof.Proofs

open Sys2Proof Sys2Proof.Machine Sys2Proof.Laws
open Sys2Proof.Laws.EncodedOpcode (opcode)

/-- The instruction of i's mnemonic whose operands are the fields of w (R122 to R133). -/
def readFields : Instr → Word → Instr
  | .hlt, _ => .hlt
  | .ldr _ _, w => .ldr (regField w) (memField w)
  | .str _ _, w => .str (regField w) (memField w)
  | .lda _ _, w => .lda (regField w) (memField w)
  | .amr _ _, w => .amr (regField w) (memField w)
  | .smr _ _, w => .smr (regField w) (memField w)
  | .air _ _, w => .air (regField w) (low5Field w)
  | .sir _ _, w => .sir (regField w) (low5Field w)
  | .jz _ _, w => .jz (regField w) (memField w)
  | .jne _ _, w => .jne (regField w) (memField w)
  | .jcc _ _, w => .jcc (w.extractLsb' 8 2) (memField w)
  | .jma _, w => .jma (memField w)
  | .jsr _, w => .jsr (memField w)
  | .rfs _, w => .rfs (low5Field w)
  | .sob _ _, w => .sob (regField w) (memField w)
  | .jge _ _, w => .jge (regField w) (memField w)
  | .mlt _ _, w => .mlt (regField w) (ryField w)
  | .dvd _ _, w => .dvd (regField w) (ryField w)
  | .trr _ _, w => .trr (regField w) (ryField w)
  | .andr _ _, w => .andr (regField w) (ryField w)
  | .orr _ _, w => .orr (regField w) (ryField w)
  | .notr _, w => .notr (regField w)
  | .trap _, w => .trap (low4Field w)
  | .src _ _ _ _, w => .src (regField w) (low4Field w) (dirField w) (kindField w)
  | .rrc _ _ _, w => .rrc (regField w) (low4Field w) (dirField w)
  | .ldx _ _ _, w => .ldx (ixField w) (indirectField w) (low5Field w)
  | .stx _ _ _, w => .stx (ixField w) (indirectField w) (low5Field w)
  | .inp _ _, w => .inp (regField w) (low5Field w)
  | .out _ _, w => .out (regField w) (low5Field w)
  | .chk _ _, w => .chk (regField w) (low5Field w)

/-- A word with i's opcode decodes to i's mnemonic with the word's fields (R121, R135). -/
theorem decode_of_opcode {w : Word} {i : Instr} (h : opcodeOf w = opcode i) : decode w = .ok (readFields i w) := by
  unfold decode
  rw [h]
  cases i <;> rfl

theorem mem_unlistedOpcodes_of_not_listed : ∀ op : BitVec 6,
    op.toNat ∉ List.range 0o26 ++ [0o30, 0o31, 0o32, 0o41, 0o42, 0o61, 0o62, 0o63] →
    op.toNat ∈ unlistedOpcodes := by
  decide

/-- What the decoder can do: read the fields of the listed opcode's instruction, or reject an unlisted opcode. -/
theorem decode_cases (w : Word) :
    (∃ i, decode w = .ok i ∧ opcodeOf w = opcode i ∧ readFields i w = i) ∨
    (decode w = .error (.unlistedOpcode (opcodeOf w)) ∧ (opcodeOf w).toNat ∈ unlistedOpcodes) := by
  unfold decode
  split
  case h_31 =>
    refine .inr ⟨rfl, mem_unlistedOpcodes_of_not_listed _ ?_⟩
    simp_all [List.range, List.range.loop]
  all_goals exact .inl ⟨_, rfl, BitVec.eq_of_toNat_eq ‹_›, rfl⟩

/-- A decoded instruction carries the word's opcode and the word's fields. -/
theorem decode_ok {w : Word} {i : Instr} (h : decode w = .ok i) : opcodeOf w = opcode i ∧ readFields i w = i := by
  obtain ⟨j, hj, hop, hf⟩ | ⟨he, _⟩ := decode_cases w
  · cases hj.symm.trans h
    exact ⟨hop, hf⟩
  · cases he.symm.trans h

/-! The encoder, then the decoder. -/

theorem opcodeOf_encode (i : Instr) : opcodeOf (encode i) = opcode i := by
  cases i with
  | hlt => rfl
  | ldr | str | lda | amr | smr | jz | jne | jcc | jma | jsr | rfs | sob | jge | ldx | stx =>
    exact packMem_opcode _ _ _
  | air | sir | inp | out | chk => exact packImm_opcode _ _ _
  | mlt | dvd | trr | andr | orr | notr => exact packRegReg_opcode _ _ _
  | trap => exact packTrap_opcode _ _
  | src | rrc => exact packShift_opcode _ _ _ _ _

/-- Each field of an encoded instruction reads back as its operand. -/
theorem readFields_encode (i : Instr) : readFields i (encode i) = i := by
  cases i with
  | hlt => rfl
  | ldr | str | lda | amr | smr | jz | jne | sob | jge =>
    simp [readFields, encode, regField, packMem_r, memField_packMem]
  | jcc | jma | jsr => simp [readFields, encode, packMem_r, memField_packMem]
  | rfs | ldx | stx =>
    simp only [readFields, encode, ixField, indirectField, low5Field, packMem_ix, packMem_indirect, packMem_address,
      IxSel_ofBits_bits]
  | air | sir | inp | out | chk => simp [readFields, encode, regField, low5Field, packImm_r, packImm_low5]
  | mlt | dvd | trr | andr | orr | notr =>
    simp [readFields, encode, regField, ryField, packRegReg_rx, packRegReg_ry]
  | trap => simp [readFields, encode, low4Field, packTrap_code]
  | src | rrc =>
    simp [readFields, encode, regField, low4Field, packShift_r, packShift_count,
      dirField_of_bit (packShift_lr _ _ _ _ _), kindField_of_bit (packShift_al _ _ _ _ _)]

/-- Settles O11: the encoded word has the instruction's opcode, and its fields are the operands. -/
theorem decodeInvertsEncode : Obligations.DecodeInvertsEncode := fun i =>
  (decode_of_opcode (opcodeOf_encode i)).trans (congrArg Except.ok (readFields_encode i))

theorem encode_injective : Function.Injective encode := fun i j h =>
  Except.ok.inj (((decodeInvertsEncode i).symm.trans (congrArg decode h)).trans (decodeInvertsEncode j))

/-! The decoder, then the encoder: each field is written back to the bits it was read from. -/

/-- A field written back where it was read is the word under the field's mask. -/
theorem fieldAt_extractLsb' (w : Word) (k n : Nat) :
    fieldAt k (w.extractLsb' k n) = w &&& fieldAt k (BitVec.allOnes n) := by
  apply BitVec.eq_of_getLsbD_eq
  intro j hj
  by_cases hk : j < k
  · simp [fieldAt, hk]
  · simp [fieldAt, hk, hj, Nat.add_sub_of_le (not_lt.mp hk), Bool.and_comm]

/-- A one-bit field written back where it was read. -/
theorem fieldAt_getLsbD (w : Word) (k : Nat) :
    fieldAt k (BitVec.ofBool (w.getLsbD k)) = w &&& fieldAt k (BitVec.allOnes 1) := by
  rw [← fieldAt_extractLsb']
  congr 1
  apply BitVec.eq_of_getLsbD_eq
  intro j hj
  obtain rfl : j = 0 := by omega
  simp

theorem Reg_bits_ofBits : ∀ b : BitVec 2, (Reg.ofBits b).bits = b := by decide

theorem IxSel_bits_ofBits : ∀ b : BitVec 2, (IxSel.ofBits b).bits = b := by decide

@[simp] theorem fieldAt_zero (k n : Nat) : fieldAt k 0#n = 0#16 := by simp [fieldAt]

@[simp] theorem fieldAt_opcodeOf (w : Word) : fieldAt 10 (opcodeOf w) = w &&& 0xFC00 := fieldAt_extractLsb' w 10 6

@[simp] theorem fieldAt_regField (w : Word) : fieldAt 8 (regField w).bits = w &&& 0x0300 := by
  rw [regField, Reg_bits_ofBits]; exact fieldAt_extractLsb' w 8 2

@[simp] theorem fieldAt_ryField (w : Word) : fieldAt 6 (ryField w).bits = w &&& 0x00C0 := by
  rw [ryField, Reg_bits_ofBits]; exact fieldAt_extractLsb' w 6 2

@[simp] theorem fieldAt_ixField (w : Word) : fieldAt 6 (ixField w).bits = w &&& 0x00C0 := by
  rw [ixField, IxSel_bits_ofBits]; exact fieldAt_extractLsb' w 6 2

@[simp] theorem fieldAt_indirectField (w : Word) : fieldAt 5 (BitVec.ofBool (indirectField w)) = w &&& 0x0020 :=
  fieldAt_getLsbD w 5

@[simp] theorem fieldAt_low5Field (w : Word) : fieldAt 0 (low5Field w) = w &&& 0x001F := fieldAt_extractLsb' w 0 5

@[simp] theorem fieldAt_low4Field (w : Word) : fieldAt 0 (low4Field w) = w &&& 0x000F := fieldAt_extractLsb' w 0 4

@[simp] theorem fieldAt_dirField (w : Word) : fieldAt 6 (BitVec.ofBool (dirField w).isLeft) = w &&& 0x0040 := by
  have h : (dirField w).isLeft = w.getLsbD 6 := by unfold dirField; cases w.getLsbD 6 <;> rfl
  rw [h]; exact fieldAt_getLsbD w 6

@[simp] theorem fieldAt_kindField (w : Word) : fieldAt 7 (BitVec.ofBool (kindField w).isArithmetic) = w &&& 0x0080 := by
  have h : (kindField w).isArithmetic = w.getLsbD 7 := by unfold kindField; cases w.getLsbD 7 <;> rfl
  rw [h]; exact fieldAt_getLsbD w 7

/-! One rule per format: the word packed from a word's fields is the word under the format's mask. The mask of the
field that some mnemonics of the format leave unnamed is a parameter. -/

section
variable {w : Word} {op : BitVec 6} (hop : fieldAt 10 op = w &&& 0xFC00)
include hop

theorem packMem_fields {r : BitVec 2} {rMask : Word} (hr : fieldAt 8 r = w &&& rMask) :
    packMem op r (memField w) = w &&& (0xFC00 ||| rMask ||| 0x00C0 ||| 0x0020 ||| 0x001F) := by
  simp only [packMem, memField, hop, hr, fieldAt_ixField, fieldAt_indirectField, fieldAt_low5Field,
    BitVec.and_or_distrib_left]

theorem packImm_fields : packImm op (regField w).bits (low5Field w) = w &&& (0xFC00 ||| 0x0300 ||| 0x001F) := by
  simp only [packImm, hop, fieldAt_regField, fieldAt_low5Field, BitVec.and_or_distrib_left]

theorem packRegReg_fields {ry : BitVec 2} {ryMask : Word} (hry : fieldAt 6 ry = w &&& ryMask) :
    packRegReg op (regField w).bits ry = w &&& (0xFC00 ||| 0x0300 ||| ryMask) := by
  simp only [packRegReg, hop, hry, fieldAt_regField, BitVec.and_or_distrib_left]

theorem packShift_fields {al : Bool} {alMask : Word} (hal : fieldAt 7 (BitVec.ofBool al) = w &&& alMask) :
    packShift op (regField w).bits al (dirField w).isLeft (low4Field w) =
      w &&& (0xFC00 ||| 0x0300 ||| alMask ||| 0x0040 ||| 0x000F) := by
  simp only [packShift, hop, hal, fieldAt_regField, fieldAt_dirField, fieldAt_low4Field, BitVec.and_or_distrib_left]

theorem packTrap_fields : packTrap op (low4Field w) = w &&& (0xFC00 ||| 0x000F) := by
  simp only [packTrap, hop, fieldAt_low4Field, BitVec.and_or_distrib_left]

/-- RFS names its opcode and ADDR alone (R131). -/
theorem packMem_addressOnly :
    packMem op 0 { ix := .off, indirect := false, address := low5Field w } = w &&& (0xFC00 ||| 0x001F) := by
  simp [packMem, IxSel.bits, hop, ← BitVec.and_or_distrib_left]

end

/-- An operand written as 0 is the word under the empty mask. -/
theorem fieldAt_zero_and (w : Word) (k n : Nat) : fieldAt k (0 : BitVec n) = w &&& 0 :=
  (fieldAt_zero k n).trans BitVec.and_zero.symm

/-- The instruction read from a word of its opcode is encoded as the word under the format's mask (R122, R135). -/
theorem encode_readFields {w : Word} {i : Instr} (h : opcodeOf w = opcode i) :
    encode (readFields i w) = w &&& namedBits i := by
  have hop : fieldAt 10 (opcode i) = w &&& 0xFC00 := h ▸ fieldAt_opcodeOf w
  cases i with
  | hlt => exact hop
  | ldr | str | lda | amr | smr | jz | jne | sob | jge => exact packMem_fields hop (fieldAt_regField w)
  | jcc => exact packMem_fields hop (fieldAt_extractLsb' w 8 2)
  | jma | jsr | ldx | stx => exact packMem_fields hop (fieldAt_zero_and w 8 2)
  | rfs => exact packMem_addressOnly hop
  | air | sir | inp | out | chk => exact packImm_fields hop
  | mlt | dvd | trr | andr | orr => exact packRegReg_fields hop (fieldAt_ryField w)
  | notr => exact packRegReg_fields hop (fieldAt_zero_and w 6 2)
  | trap => exact packTrap_fields hop
  | src => exact packShift_fields hop (fieldAt_kindField w)
  | rrc => exact packShift_fields (al := false) hop (fieldAt_zero_and w 7 1)

theorem namedBits_readFields (i : Instr) (w : Word) : namedBits (readFields i w) = namedBits i := by
  cases i <;> rfl

/-- Every format names the opcode. -/
theorem opcodeOf_and_namedBits (i : Instr) (w : Word) : opcodeOf (w &&& namedBits i) = opcodeOf w := by
  have hm : namedBits i &&& 0xFC00 = 0xFC00 := by unfold namedBits; split <;> decide
  have hpat : w &&& namedBits i &&& 0xFC00 = w &&& 0xFC00 := by rw [BitVec.and_assoc, hm]
  exact (opcodeOf_of_match hpat).trans (opcodeOf_of_match rfl).symm

theorem encode_of_decode {w : Word} {i : Instr} (h : decode w = .ok i) : encode i = w &&& namedBits i := by
  obtain ⟨hop, hf⟩ := decode_ok h
  rw [← encode_readFields hop, hf]

/-- Settles O12: a decoded instruction is encoded as the word's named bits, so two words with the same named bits
decode to instructions with the same encoding, and `encode` is injective. -/
theorem decoderReadsExactlyTheNamedBits : Obligations.DecoderReadsExactlyTheNamedBits := by
  refine ⟨fun _ _ => encode_of_decode, fun w w' i h hbits => ?_⟩
  have hop : opcodeOf w' = opcode i := by
    rw [← opcodeOf_and_namedBits i, hbits, opcodeOf_and_namedBits, (decode_ok h).1]
  have henc : encode (readFields i w') = encode i := by
    rw [encode_readFields hop, hbits, encode_of_decode h]
  rw [decode_of_opcode hop, encode_injective henc]

/-- Settles O20: each word is the encoding of its instruction. -/
theorem specsWordsDecode : Obligations.SpecsWordsDecode :=
  ⟨decodeInvertsEncode (.ldr .r0 { ix := .x1, indirect := true, address := 5 }),
    decodeInvertsEncode (.air .r2 0b11111), decodeInvertsEncode (.dvd .r2 .r3),
    decodeInvertsEncode (.src .r0 4 .right .arithmetic), decodeInvertsEncode (.stx .x2 true 21),
    decodeInvertsEncode (.inp .r1 2), decodeInvertsEncode (.trap 5)⟩

end Sys2Proof.Proofs
end

section
/-! PROOFS (spec/30_encoding.md R134, R136): the two ways to Fault(4), an unlisted opcode and an illegal field value,
and that a well-formed instruction takes neither. -/

namespace Sys2Proof.Proofs

open Sys2Proof Sys2Proof.Machine Sys2Proof.Laws
open Sys2Proof.Laws.EncodedOpcode (opcode)

theorem opcode_listed (i : Instr) : (opcode i).toNat ∉ unlistedOpcodes := by
  cases i <;> simp [opcode, unlistedOpcodes]

theorem decode_error_iff (w : Word) :
    decode w = .error (.unlistedOpcode (opcodeOf w)) ↔ (opcodeOf w).toNat ∈ unlistedOpcodes := by
  obtain ⟨i, hi, hop, _⟩ | ⟨he, hu⟩ := decode_cases w
  · rw [hi, hop]
    exact iff_of_false nofun (opcode_listed i)
  · exact iff_of_true he hu

/-- Settles O13: the word the step decodes is the word at PC, by coherence. -/
theorem unlistedOpcodesRaiseIllegalOperationCode : Obligations.UnlistedOpcodesRaiseIllegalOperationCode := by
  refine ⟨decode_error_iff, fun s ⟨hrun, hpc⟩ hcoh hu => ?_⟩
  rw [step_running hrun, cycle_inRange hpc]
  exact executeFetched_error ((decode_error_iff _).mpr (by rwa [fetch_word hcoh]))

/-- A well-formed instruction that neither halts nor waits for a device completes (R165). -/
theorem exec_completes {i : Instr} {s : State} (hwf : i.wellFormed = true) (hhlt : i ≠ .hlt)
    (hin : ∀ r dev, i = .inp r dev → (s.dev.devIn dev).1 ≠ .notReady) : ∃ u : State, exec i s = .next u.ready := by
  cases i with
  | hlt => exact absurd rfl hhlt
  | mlt rx ry =>
    obtain ⟨_, hp, -⟩ := pair_writes ry hwf
    exact ⟨_, exec_mlt ry s hp⟩
  | dvd rx ry =>
    obtain ⟨_, hp, -⟩ := pair_writes ry hwf
    by_cases hb : signed (s.reg ry) = 0
    · exact ⟨_, exec_dvd_zero s hp hb⟩
    · exact ⟨_, exec_dvd s hp hb⟩
  | ldx x i a =>
    obtain ⟨_, hk⟩ := xreg_of_ne_off hwf
    exact ⟨_, exec_ldx i a s hk⟩
  | stx x i a =>
    obtain ⟨_, hk⟩ := xreg_of_ne_off hwf
    exact ⟨_, exec_stx i a s hk⟩
  | inp r dev =>
    rcases hd : s.dev.devIn dev with ⟨resp, d⟩
    cases resp with
    | ready v => exact ⟨_, exec_inp_ready hd⟩
    | notReady => exact absurd (congrArg Prod.fst hd) (hin r dev rfl)
  | _ => exact ⟨_, rfl⟩

/-- A well-formed instruction raises no fault. -/
theorem exec_runState_ne_faulted {i : Instr} {s t : State} (hwf : i.wellFormed = true) (h : exec i s = .next t) :
    t.runState ≠ .faulted := by
  by_cases hhlt : i = .hlt
  · subst hhlt
    cases h
    exact nofun
  by_cases hin : ∀ r dev, i = .inp r dev → (s.dev.devIn dev).1 ≠ .notReady
  · obtain ⟨u, hu⟩ := exec_completes hwf hhlt hin
    cases hu.symm.trans h
    exact nofun
  · push Not at hin
    obtain ⟨r, dev, rfl, hd⟩ := hin
    cases (exec_inp_notReady (Prod.ext hd rfl)).symm.trans h
    exact nofun

/-- Settles O14: the ill-formed instructions are fault entry, the well-formed ones raise no fault and keep MFR. -/
theorem illegalFieldValuesRaiseIllegalOperationCode : Obligations.IllegalFieldValuesRaiseIllegalOperationCode := by
  refine ⟨fun _ s => ?_, fun _ _ s => ⟨exec_illFormed s rfl, exec_illFormed s rfl⟩, fun i s t hwf h => ?_⟩
  · exact ⟨exec_illFormed s rfl, exec_illFormed s rfl, exec_illFormed s rfl, exec_illFormed s rfl⟩
  · obtain ⟨_, hw⟩ | ⟨hf, _⟩ := exec_cases h
    · exact ⟨exec_runState_ne_faulted hwf h, hw.mfr⟩
    · exact absurd (hwf.symm.trans hf) nofun

end Sys2Proof.Proofs
end

section
/-! PROOFS (spec/30_encoding.md R145): a load file's records read back. A six-digit field reads as its number, a record
as its address and word, and the line feeds cut the file at its records. -/

namespace Sys2Proof.Proofs

open Sys2Proof Sys2Proof.Machine

theorem octalDigits_length (k n : Nat) : (octalDigits k n).length = k := by
  induction k generalizing n with
  | zero => rfl
  | succ k ih => simp [octalDigits, ih]

theorem octalValue_digit {d : Nat} (h : d < 8) : octalValue (Char.ofNat (48 + d)) = some d := by
  interval_cases d <;> rfl

theorem readOctal_append (acc : Nat) (cs ds : List Char) :
    readOctal acc (cs ++ ds) = (readOctal acc cs).bind fun v => readOctal v ds := by
  induction cs generalizing acc with
  | nil => rfl
  | cons c cs ih =>
    simp only [List.cons_append, readOctal]
    cases octalValue c with
    | none => rfl
    | some d => exact ih _

/-- The last k octal digits of n read as n modulo 8^k. -/
theorem readOctal_octalDigits (acc k n : Nat) :
    readOctal acc (octalDigits k n) = some (8 ^ k * acc + n % 8 ^ k) := by
  induction k generalizing n with
  | zero => simp [octalDigits, readOctal, Nat.mod_one]
  | succ k ih =>
    have hd : octalValue (Char.ofNat (48 + n % 8)) = some (n % 8) := octalValue_digit (Nat.mod_lt n (by decide))
    simp only [octalDigits, readOctal_append, ih, Option.bind_some, readOctal, hd, pow_succ', Nat.mod_mul]
    exact congrArg some (by ring)

theorem readOctal_octalDigits_of_lt {k n : Nat} (h : n < 8 ^ k) : readOctal 0 (octalDigits k n) = some n := by
  rw [readOctal_octalDigits, Nat.mod_eq_of_lt h, Nat.mul_zero, Nat.zero_add]

theorem newline_notMem_octalDigits (k n : Nat) : '\n' ∉ octalDigits k n := by
  induction k generalizing n with
  | zero => exact List.not_mem_nil
  | succ k ih =>
    have hd : octalValue (Char.ofNat (48 + n % 8)) = some (n % 8) := octalValue_digit (Nat.mod_lt n (by decide))
    have hc : '\n' ≠ Char.ofNat (48 + n % 8) := fun e => by
      rw [← e] at hd
      cases hd
    simp [octalDigits, ih, hc]

/-- A record without its line feed (R145). -/
def recordText (a : Nat) (w : Word) : List Char := octalDigits 6 a ++ [' '] ++ octalDigits 6 w.toNat

theorem loadLine_eq (a : Nat) (w : Word) : loadLine a w = recordText a w ++ ['\n'] := rfl

theorem loadLine_length (a : Nat) (w : Word) : (loadLine a w).length = 14 := by
  simp [loadLine, octalDigits_length]

theorem newline_notMem_recordText (a : Nat) (w : Word) : '\n' ∉ recordText a w := by
  simp [recordText, newline_notMem_octalDigits]

theorem readLoadLine_loadLine {a : Nat} (w : Word) (h : a < 8 ^ 6) : readLoadLine (loadLine a w) = some (a, w) := by
  have hw : readOctal 0 (octalDigits 6 w.toNat) = some w.toNat := readOctal_octalDigits_of_lt (by omega)
  have hform : (loadLine a w).length = 14 ∧ (loadLine a w)[6]? = some ' ' ∧ (loadLine a w)[13]? = some '\n' := by
    refine ⟨loadLine_length a w, ?_, ?_⟩ <;> simp [loadLine, octalDigits_length]
  have haddr : (loadLine a w).take 6 = octalDigits 6 a := by
    simp [loadLine, octalDigits_length]
  have hword : ((loadLine a w).drop 7).take 6 = octalDigits 6 w.toNat := by
    simp [loadLine, List.take_append, List.drop_append, octalDigits_length]
  simp only [readLoadLine, if_pos hform, haddr, hword, readOctal_octalDigits_of_lt h, hw, if_pos w.isLt,
    BitVec.ofNat_toNat, BitVec.setWidth_eq]

/-- A line up to its separator is the first piece. -/
theorem pieces_line {sep : Char} {line : List Char} (rest : List Char) (h : sep ∉ line) :
    pieces sep (line ++ sep :: rest) = line :: pieces sep rest := by
  induction line with
  | nil => simp [pieces]
  | cons c line ih =>
    obtain ⟨hc, hl⟩ := not_or.mp (List.mem_cons.not.mp h)
    simp [pieces, Ne.symm hc, ih hl]

theorem readLoadLines_cons {line : List Char} {rest : List (List Char)} {r : Nat × Word} {rs : List (Nat × Word)}
    (hline : readLoadLine (line ++ ['\n']) = some r) (hrest : readLoadLines rest = some rs) :
    readLoadLines (line :: rest) = some (r :: rs) := by
  cases rest with
  | nil => cases hrest
  | cons next rest => simp only [readLoadLines, hline, hrest]

theorem readLoadFile_loadFile {records : List (Nat × Word)} (h : ∀ e ∈ records, e.1 < 8 ^ 6) :
    readLoadFile (loadFile records) = some records := by
  unfold readLoadFile
  induction records with
  | nil => rfl
  | cons e records ih =>
    obtain ⟨ha, hrest⟩ := List.forall_mem_cons.mp h
    have hcut : pieces '\n' (loadFile (e :: records)) = recordText e.1 e.2 :: pieces '\n' (loadFile records) := by
      rw [loadFile, loadLine_eq, List.append_assoc]
      exact pieces_line _ (newline_notMem_recordText e.1 e.2)
    rw [hcut]
    exact readLoadLines_cons (readLoadLine_loadLine e.2 ha) (ih hrest)

/-- Settles O60, by induction on the records. -/
theorem loadFileRecordsReadBack : Obligations.LoadFileRecordsReadBack :=
  ⟨loadLine_length, fun _ => readLoadFile_loadFile⟩

end Sys2Proof.Proofs
end

section
/-! PROOFS (spec/40_cycle_and_ea.md R160 to R172): the cycle and the effective-address unit. With a coherent cache a
read is the read of memory itself; from that the fetch and the EA unit are exact states, and a step is fault entry
or `exec` of the decoded instruction. -/

namespace Sys2Proof.Proofs

open Sys2Proof Sys2Proof.Machine Sys2Proof.Laws

/-- With a coherent cache a read answers the memory word, hit or miss (R83, R89). -/
theorem memRead_of_coherent {s : State} (a : Addr) (h : Coherent s.cache s.mem) :
    memRead a s = (s.mem.word a,
      { s with mar := a, mbr := s.mem.word a, cache := s.cache.afterRead a (s.mem.word a) }) := by
  rw [memRead, State.afterRead, readValue_eq a h]

/-! The fetch (R162). -/

/-- Settles O16: the fetch is one read, and below 2048 PC advances without a wrap. -/
theorem fetchLoadsIrAndAdvancesPc : Obligations.FetchLoadsIrAndAdvancesPc := by
  intro s hpc hcoh w
  have hsucc : (fetch s).pc.toNat = s.pc.toNat + 1 := pc_succ_toNat hpc
  refine ⟨hsucc, by omega, by omega, ?_⟩
  rw [fetch_pc, fetch, memRead_of_coherent _ hcoh]

/-! The step (R160, R161, R165, R166). -/

theorem step_pcOutOfRange {s : State} (hrun : s.runState = .ready ∨ s.runState = .waiting)
    (hpc : 2048 ≤ s.pc.toNat) : step s = .next (faultEntry .illegalMemoryAddress s) :=
  (step_running hrun).trans (cycle_outOfRange hpc)

theorem step_fetches {s : State} (h : Fetches s) : step s = executeFetched (fetch s) := by
  obtain ⟨hrun, hpc⟩ := h
  exact (step_running hrun).trans (cycle_inRange hpc)

theorem step_of_decode_ok {s : State} {i : Instr} (h : Fetches s) (hcoh : Coherent s.cache s.mem)
    (hd : decode (s.mem.word (pcAddr s.pc)) = .ok i) : step s = exec i (fetch s) :=
  (step_fetches h).trans (executeFetched_ok (by rwa [fetch_word hcoh]))

theorem step_of_decode_error {s : State} {e : Reject} (h : Fetches s) (hcoh : Coherent s.cache s.mem)
    (hd : decode (s.mem.word (pcAddr s.pc)) = .error e) :
    step s = .next (faultEntry .illegalOperationCode (fetch s)) :=
  (step_fetches h).trans (executeFetched_error (by rwa [fetch_word hcoh]))

/-- Settles O15: the word in IR after the fetch is the word at PC, by coherence. -/
theorem stepRunsTheDecodedInstruction : Obligations.StepRunsTheDecodedInstruction :=
  fun _ _ => step_of_decode_ok

/-- Settles O17: the fetch check comes first, and fault entry's one access is the save at address 2. -/
theorem fetchAt2048RaisesIllegalMemoryAddress : Obligations.FetchAt2048RaisesIllegalMemoryAddress := by
  intro s hrun hpc
  have hsaved : pcWord s.pc = 2048 := BitVec.eq_of_toNat_eq ((pcWord_toNat s.pc).trans hpc)
  refine ⟨step_pcOutOfRange hrun hpc.ge, ?_, rfl, rfl, ?_⟩
  · rw [faultEntry_mem, hsaved]
    exact word_setWord_same _ _ _
  · rw [faultEntry_cache, hsaved]
    rfl

/-! A running block steps (R160, R405). -/

/-- Every instruction answers a next state: an ill-formed one by fault entry. -/
theorem exec_total (i : Instr) (s : State) : ∃ t, exec i s = .next t := by
  cases hwf : i.wellFormed with
  | true =>
    obtain ⟨t, ht, _⟩ := exec_writesOnly s hwf
    exact ⟨t, ht⟩
  | false => exact ⟨_, exec_illFormed s hwf⟩

theorem executeFetched_total (s : State) : ∃ t, executeFetched s = .next t := by
  cases hd : decode s.ir with
  | error e => exact ⟨_, executeFetched_error hd⟩
  | ok i =>
    rw [executeFetched_ok hd]
    exact exec_total i s

theorem cycle_total (s : State) : ∃ t, cycle s = .next t := by
  by_cases hpc : s.pc.toNat < 2048
  · rw [cycle_inRange hpc]
    exact executeFetched_total (fetch s)
  · exact ⟨_, cycle_outOfRange (not_lt.mp hpc)⟩

/-- The outcome the host is told is the one of the run state the step leaves (log 5). -/
theorem hostStep_outcome {s t : State} {rs : RunState} (h : step s = .next t) (hrs : t.runState = rs) :
    (hostStep s).1 = rs.outcome := by
  rw [hostStep_next h, hrs]

/-- Settles O19: `exec` is total, so a step in READY or WAITING is; each outcome is the run state `exec` or fault entry
leaves. -/
theorem runningBlockAlwaysSteps : Obligations.RunningBlockAlwaysSteps := by
  refine ⟨exec_total, fun s hrun => ?_, fun s hrun hpc => ?_, fun s e hf hcoh hd => ?_, fun s i hf hcoh hd => ?_⟩
  · obtain ⟨t, ht⟩ := cycle_total s
    have hstep : step s = .next t := (step_running hrun).trans ht
    exact ⟨t, hstep, hostStep_next hstep⟩
  · exact hostStep_outcome (step_pcOutOfRange hrun hpc.ge) (faultEntry_runState _ _)
  · exact hostStep_outcome (step_of_decode_error hf hcoh hd) (faultEntry_runState _ _)
  · have hstep : step s = exec i (fetch s) := step_of_decode_ok hf hcoh hd
    refine ⟨fun hi => ?_, fun hwf => ?_, fun r dev hi hresp => ?_, fun hhlt hwf hin => ?_⟩
    · subst hi
      exact hostStep_outcome (hstep.trans (exec_hlt _)) rfl
    · exact hostStep_outcome (hstep.trans (exec_illFormed _ hwf)) (faultEntry_runState _ _)
    · subst hi
      exact hostStep_outcome (hstep.trans (exec_inp_notReady (Prod.ext hresp rfl))) rfl
    · obtain ⟨u, hu⟩ := exec_completes (s := fetch s) hwf hhlt hin
      exact hostStep_outcome (hstep.trans hu) (ready_runState u)

/-! The effective-address unit (R167). -/

theorem effAddr_direct {m : MemOperand} (s : State) (h : m.indirect = false) : effAddr m s = (eaBase m s, s) := by
  simp [effAddr, h]

theorem effAddr_indirect {m : MemOperand} (s : State) (h : m.indirect = true) :
    effAddr m s = memRead (low11 (eaBase m s)) s := by
  simp [effAddr, h]

theorem zext5_toNat (v : BitVec 5) : (zext5 v).toNat = v.toNat :=
  BitVec.toNat_setWidth_of_le (by decide)

/-- The address before the indirection is the sum of the address field and the index register modulo 2^16. -/
theorem eaBase_toNat (m : MemOperand) (s : State) :
    (eaBase m s).toNat = (m.address.toNat + indexValue m.ix s) % 65536 := by
  obtain ⟨ix, indirect, address⟩ := m
  cases ix with
  | off =>
    have haddr : address.toNat < 65536 := by omega
    exact (zext5_toNat address).trans (Nat.mod_eq_of_lt haddr).symm
  | x1 | x2 | x3 => simp only [eaBase, IxSel.xreg?, indexValue, BitVec.toNat_add, zext5_toNat]

/-- Settles O23: the sum is `eaBase`, and its low 11 bits are the address of the one read. -/
theorem effectiveAddressUnit : Obligations.EffectiveAddressUnit := by
  intro m s hcoh base
  have hbase : base = (eaBase m s).toNat := (eaBase_toNat m s).symm
  have hword : BitVec.ofNat 16 base = eaBase m s := by rw [hbase, BitVec.ofNat_toNat, BitVec.setWidth_eq]
  have haddr : BitVec.ofNat 11 base = low11 (eaBase m s) := by rw [hbase, BitVec.ofNat_toNat, low11]
  rw [hword, haddr]
  exact ⟨effAddr_direct s, fun hi => (effAddr_indirect s hi).trans (memRead_of_coherent _ hcoh)⟩

end Sys2Proof.Proofs
end

section
/-! PROOFS (spec/40_cycle_and_ea.md R160, spec/60_exceptions.md R402): a HALTED or FAULTED block refuses every step, and
no host operation but reset ends that or writes a general register. -/

namespace Sys2Proof.Proofs

open Sys2Proof Sys2Proof.Machine Sys2Proof.Laws

theorem hostStep_refused {s : State} {r : Refusal} (h : step s = .refused r) : hostStep s = (.refused, s) := by
  simp only [hostStep, h]

theorem hostStep_of_stopped {s : State} (h : s.runState = .halted ∨ s.runState = .faulted) :
    hostStep s = (.refused, s) := by
  obtain h | h := h
  · exact hostStep_refused (step_halted h)
  · exact hostStep_refused (step_faulted h)

/-- From s to t the run state and the general registers are kept. -/
structure StopKept (s t : State) : Prop where
  runState : t.runState = s.runState
  gpr      : t.gpr = s.gpr

namespace StopKept

variable {s t : State}

theorem refl : StopKept s s := ⟨rfl, rfl⟩

theorem trans {u : State} (h : StopKept s t) (h' : StopKept t u) : StopKept s u :=
  ⟨h'.runState.trans h.runState, h'.gpr.trans h.gpr⟩

/-- An operation that may be refused keeps them where its accepted outcome does. -/
theorem getD {o : Option State} (ho : ∀ t, o = some t → StopKept s t) : StopKept s (o.getD s) := by
  cases o with
  | none => exact refl
  | some t => exact ho t rfl

theorem hostLoad {addr : Nat} {w : Word} (ht : hostLoad addr w s = some t) : StopKept s t := by
  by_cases haddr : addr < 2048
  · cases (hostLoad_inRange w s haddr).symm.trans ht
    exact ⟨rfl, rfl⟩
  · cases (hostLoad_outOfRange w s (not_lt.mp haddr)).symm.trans ht

theorem loadRecords {records : List (Nat × Word)} (ht : loadRecords records s = some t) : StopKept s t := by
  induction records generalizing s with
  | nil => cases ht; exact refl
  | cons e rest ih =>
    simp only [Machine.loadRecords] at ht
    split at ht
    · cases ht
    · next s' hs' => exact (hostLoad hs').trans (ih ht)

theorem hostIpl {records : List (Nat × Word)} (ht : hostIpl records s = some t) : StopKept s t := by
  unfold Machine.hostIpl at ht
  split at ht
  · cases ht; exact refl
  · split at ht
    · cases ht
    · next s' hs' =>
      cases ht
      exact ⟨(loadRecords hs').runState, (loadRecords hs').gpr⟩

/-- Of a stopped block every host operation but reset keeps them. -/
theorem applyHost {op : HostOp} (hop : op ≠ .reset) (hstop : s.runState = .halted ∨ s.runState = .faulted) :
    StopKept s (applyHost op s) := by
  cases op with
  | reset => exact absurd rfl hop
  | step =>
    rw [Machine.applyHost, hostStep_of_stopped hstop]
    exact refl
  | load addr w => exact getD fun _ => hostLoad
  | ipl records => exact getD fun _ => hostIpl
  | inspect _ | cacheView | submitKeyboard _ | takePrinter | preloadFile _ | observe => exact ⟨rfl, rfl⟩

/-- So does every session without reset: the block is still stopped after each operation. -/
theorem session {ops : List HostOp} (hops : HostOp.reset ∉ ops)
    (hstop : s.runState = .halted ∨ s.runState = .faulted) : StopKept s (session ops s) := by
  induction ops generalizing s with
  | nil => exact refl
  | cons op rest ih =>
    obtain ⟨hop, hrest⟩ := not_or.mp (List.mem_cons.not.mp hops)
    have hkept : StopKept s (Machine.applyHost op s) := applyHost (Ne.symm hop) hstop
    exact hkept.trans (ih hrest (hkept.runState ▸ hstop))

end StopKept

/-- Settles O18: the refusals by the run state, the sessions by induction on their operations. -/
theorem stoppedBlockRefusesUntilReset : Obligations.StoppedBlockRefusesUntilReset := by
  refine ⟨fun s h => ⟨step_halted h, hostStep_of_stopped (.inl h)⟩,
    fun s h => ⟨step_faulted h, hostStep_of_stopped (.inr h)⟩, fun ops s hops hstop => ?_⟩
  have hkept : StopKept s (session ops s) := .session hops hstop
  exact ⟨hkept.runState, hkept.gpr⟩

end Sys2Proof.Proofs
end

section
/-! PROOFS (spec/41_load_store.md R200 to R202): LDR, STR and LDA. What they name as writes is `WritesOnly`'s; their
accesses are the EA unit's, a load's or a store's, one rule for each, which every instruction with a memory operand
shares. -/

namespace Sys2Proof.Proofs

open Sys2Proof Sys2Proof.Machine Sys2Proof.Laws
open Sys2Proof.Laws.EncodedOpcode (opcode)

/-! What the families of instructions share. -/

/-- A match pattern decodes to the instruction whose opcode it holds, with the fields of each word (R133, R135). -/
theorem decodesAs_of_opcode {pattern : Word} {instruction : Word → Instr}
    (hop : opcodeOf pattern = opcode (instruction pattern))
    (hfields : ∀ w, readFields (instruction pattern) w = instruction w) : DecodesAs pattern instruction := by
  intro w hw
  rw [← hfields w]
  exact decode_of_opcode ((opcodeOf_of_match hw).trans hop)

theorem writesOnly_of_exec {i : Instr} {s t : State} (h : exec i s = .next t) (hwf : i.wellFormed = true) :
    WritesOnly i s t := by
  obtain ⟨_, hw⟩ | ⟨hf, _⟩ := exec_cases h
  · exact hw
  · simp [hwf] at hf

/-! The accesses of a memory operand (R171, R172). -/

section
variable (m : MemOperand) {s : State} (h : Coherent s.cache s.mem)
include h

theorem eaAccess_effAddr : EaAccess m s (effAddr m s).2 where
  mar   := effAddr_mar m s
  mbr   := effAddr_mbr m h
  cache := effAddr_cache m s
  bytes := bytesKept_of_eq (effAddr_mem m s)

theorem loadAccess_afterRead : LoadAccess m s ((effAddr m s).2.afterRead (low11 (effAddr m s).1)) where
  mar   := congrArg low11 (effAddr_fst m h)
  mbr   := load_value_of_coherent m h
  cache := by simp only [afterRead_cache, effAddr_cache, effAddr_mem, effAddr_fst m h]
  bytes := bytesKept_of_eq (effAddr_mem m s)

theorem storeAccess_memWrite (v : Word) :
    StoreAccess m v s (memWrite (low11 (effAddr m s).1) v (effAddr m s).2) := by
  rw [effAddr_fst m h]
  exact {
    mar    := rfl
    mbr    := effAddr_mbr m h
    cache  := by simp only [memWrite_cache, effAddr_cache]
    stored := memWrite_word_same _ _ v
    bytes  := bytesKeptBut_setWord v (by simp only [memWrite_mem, effAddr_mem]) }

end

/-! Load and store. -/

/-- Settles O24: the value read through the cache is the memory word at EA[10:0]. -/
theorem ldrLoadsTheWordAtEa : Obligations.LdrLoadsTheWordAtEa := by
  refine ⟨decodesAs_of_opcode rfl fun _ => rfl, fun r m s h => ?_⟩
  have hexec := exec_ldr r m s
  have hw := writesOnly_of_exec hexec rfl
  refine ⟨_, hexec, ?_, hw.gpr, hw.ixr, hw.flags, effAddr_pc m s, { loadAccess_afterRead m h.coherent with },
    hw.ir, hw.mfr, effAddr_dev m s, rfl⟩
  exact (setReg_reg_same _ r _).trans (load_value m h)

/-- Settles O25: the write at EA[10:0] is the one change of memory. -/
theorem strStoresTheRegisterAtEa : Obligations.StrStoresTheRegisterAtEa := by
  refine ⟨decodesAs_of_opcode rfl fun _ => rfl, fun r m s h => ?_⟩
  have hexec := exec_str r m s
  have hw := writesOnly_of_exec hexec rfl
  exact ⟨_, hexec, { storeAccess_memWrite m h.coherent (s.reg r) with }, hw.gpr, hw.ixr, hw.flags, effAddr_pc m s,
    hw.ir, hw.mfr, effAddr_dev m s, rfl⟩

/-- Settles O26: the register gets the EA itself, with no access after the EA unit's. -/
theorem ldaLoadsTheWholeEa : Obligations.LdaLoadsTheWholeEa := by
  refine ⟨decodesAs_of_opcode rfl fun _ => rfl, fun r m s h => ?_⟩
  have hexec := exec_lda r m s
  have hw := writesOnly_of_exec hexec rfl
  refine ⟨_, hexec, ?_, hw.gpr, hw.ixr, hw.flags, effAddr_pc m s, { eaAccess_effAddr m h.coherent with },
    hw.ir, hw.mfr, effAddr_dev m s, rfl⟩
  exact (setReg_reg_same _ r _).trans (effAddr_fst m h.coherent)

end Sys2Proof.Proofs
end

section
/-! PROOFS (spec/42_arith_mem_imm.md R220 to R224): AMR, SMR, AIR and SIR. The addition and the subtraction law say what
the register and the tested flag hold, of the exact sum or difference; each instruction names its own: the operand is
the memory word at EA[10:0], or the 5-bit immediate with its sign. -/

namespace Sys2Proof.Proofs

open Sys2Proof Sys2Proof.Machine Sys2Proof.Laws

/-! The two laws (R224). -/

section
variable {s : State} {r : Reg} {b n : Int}

theorem addTo_reg (h : signed (s.reg r) + b = n) : (addTo r b s).reg r = BitVec.ofInt 16 n := by
  rw [addTo, setFlag_reg, setReg_reg_same, h, trunc16]

theorem addTo_overflow_iff (h : signed (s.reg r) + b = n) :
    (addTo r b s).flag .overflow = true ↔ n < -32768 ∨ n > 32767 := by
  rw [addTo, setFlag_flag_same, h, addOverflows, decide_eq_true_iff]

theorem subFrom_reg (h : signed (s.reg r) - b = n) : (subFrom r b s).reg r = BitVec.ofInt 16 n := by
  rw [subFrom, setFlag_reg, setReg_reg_same, h, trunc16]

theorem subFrom_underflow_iff (h : signed (s.reg r) - b = n) :
    (subFrom r b s).flag .underflow = true ↔ n < -32768 := by
  rw [subFrom, setFlag_flag_same, h, subUnderflows, decide_eq_true_iff]

end

/-! A memory operand. -/

/-- Settles O27: the EA unit and the operand read leave R[r], and the word read is the one at EA[10:0]. -/
theorem amrAddsTheWordAtEa : Obligations.AmrAddsTheWordAtEa := by
  refine ⟨decodesAs_of_opcode rfl fun _ => rfl, ?_⟩
  intro r m s h sum
  have hexec := exec_amr r m s
  have hw := writesOnly_of_exec hexec rfl
  have hsum : signed ((effAddr m s).2.reg r) + signed ((effAddr m s).2.readValue (low11 (effAddr m s).1)) = sum := by
    rw [effAddr_reg, load_value m h]
    rfl
  exact ⟨_, hexec, addTo_reg hsum, addTo_overflow_iff hsum, hw.flags, hw.gpr, hw.ixr, effAddr_pc m s,
    { loadAccess_afterRead m h.coherent with }, hw.ir, hw.mfr, effAddr_dev m s, rfl⟩

/-- Settles O28: as AMR, with the subtraction law. -/
theorem smrSubtractsTheWordAtEa : Obligations.SmrSubtractsTheWordAtEa := by
  refine ⟨decodesAs_of_opcode rfl fun _ => rfl, ?_⟩
  intro r m s h difference
  have hexec := exec_smr r m s
  have hw := writesOnly_of_exec hexec rfl
  have hdiff : signed ((effAddr m s).2.reg r) - signed ((effAddr m s).2.readValue (low11 (effAddr m s).1)) =
      difference := by
    rw [effAddr_reg, load_value m h]
    rfl
  exact ⟨_, hexec, subFrom_reg hdiff, subFrom_underflow_iff hdiff, hw.flags, hw.gpr, hw.ixr,
    effAddr_pc m s, { loadAccess_afterRead m h.coherent with }, hw.ir, hw.mfr, effAddr_dev m s, rfl⟩

/-! An immediate. -/

/-- Settles O29: the extended immediate has the value of the five bits. -/
theorem airAddsTheSignedImmediate : Obligations.AirAddsTheSignedImmediate := by
  refine ⟨decodesAs_of_opcode rfl fun _ => rfl, ?_⟩
  intro r imm s sum
  have hexec := exec_air r imm s
  have hw := writesOnly_of_exec hexec rfl
  have hsum : signed (s.reg r) + immSigned imm = sum := congrArg (signed (s.reg r) + ·) (immSigned_eq imm)
  exact ⟨_, hexec, addTo_reg hsum, addTo_overflow_iff hsum, hw.flags, hw.gpr, hw.ixr, rfl,
    ⟨rfl, rfl, rfl, bytesKept_of_eq rfl⟩, hw.ir, hw.mfr, rfl, rfl⟩

/-- Settles O30: as AIR, with the subtraction law. -/
theorem sirSubtractsTheSignedImmediate : Obligations.SirSubtractsTheSignedImmediate := by
  refine ⟨decodesAs_of_opcode rfl fun _ => rfl, ?_⟩
  intro r imm s difference
  have hexec := exec_sir r imm s
  have hw := writesOnly_of_exec hexec rfl
  have hdiff : signed (s.reg r) - immSigned imm = difference := congrArg (signed (s.reg r) - ·) (immSigned_eq imm)
  exact ⟨_, hexec, subFrom_reg hdiff, subFrom_underflow_iff hdiff, hw.flags, hw.gpr, hw.ixr, rfl,
    ⟨rfl, rfl, rfl, bytesKept_of_eq rfl⟩, hw.ir, hw.mfr, rfl, rfl⟩

end Sys2Proof.Proofs
end

section
/-! PROOFS (spec/43_transfer.md R240 to R248): JZ, JNE, JCC, JMA, JSR, RFS, SOB and JGE. One rule says what a branch to
EA leaves, whatever registers were written before it; each instruction gives its own condition. -/

namespace Sys2Proof.Proofs

open Sys2Proof Sys2Proof.Machine Sys2Proof.Laws

/-! The branch to EA (R172, R248). -/

theorem addrPc_low11_toNat (v : Word) : (addrPc (low11 v)).toNat = v.toNat % 2048 :=
  (addrPc_toNat _).trans (low11_toNat v)

section
variable {m : MemOperand} {s : State} {taken : Prop} {b : Bool}

/-- The state that branches is the EA unit's, with any general registers g. -/
theorem jumpEffect_branchIf (h : Coherent s.cache s.mem) (g : Vector Word 4) (hb : b = true ↔ taken) :
    JumpEffect taken m s (branchIf b (effAddr m s).1 { (effAddr m s).2 with gpr := g }).ready := by
  have hixr : IxrKept [] s (effAddr m s).2 := ixrKept_of_eq (effAddr_ixr m s) _
  have hflags : FlagsKept [] s (effAddr m s).2 := flagsKept_of_eq (effAddr_cc m s) _
  have hacc : EaAccess m s (effAddr m s).2 := eaAccess_effAddr m h
  have hsys : SystemKept s (effAddr m s).2.ready := ⟨effAddr_ir m s, effAddr_mfr m s, effAddr_dev m s, rfl⟩
  cases b with
  | true =>
    have htarget : (addrPc (low11 (effAddr m s).1)).toNat = (memEa m s).toNat % 2048 := by
      rw [addrPc_low11_toNat, effAddr_fst m h]
    exact ⟨fun _ => htarget, fun hn => absurd (hb.mp rfl) hn, hixr, hflags, { hacc with }, { hsys with }⟩
  | false =>
    exact ⟨fun ht => absurd (hb.mpr ht) nofun, fun _ => effAddr_pc m s, hixr, hflags, { hacc with }, { hsys with }⟩

/-- An instruction that is the EA unit and a branch, and writes no register. -/
theorem jump_of_exec {i : Instr} (h : CacheInv s.cache s.mem)
    (hexec : exec i s = .next (branchIf b (effAddr m s).1 (effAddr m s).2).ready) (hb : b = true ↔ taken) :
    ∃ t, exec i s = .next t ∧ JumpEffect taken m s t ∧ GprKept [] s t :=
  ⟨_, hexec, jumpEffect_branchIf h.coherent _ hb, gprKept_of_eq ((branchIf_gpr ..).trans (effAddr_gpr m s)) _⟩

end

theorem beq_zero_iff_toNat (v : Word) : (v == 0) = true ↔ v.toNat = 0 :=
  beq_iff_eq.trans BitVec.toNat_inj.symm

theorem bne_zero_iff_toNat (v : Word) : (v != 0) = true ↔ v.toNat ≠ 0 :=
  bne_iff_ne.trans (not_congr BitVec.toNat_inj.symm)

/-- Settles O31: JZ, JNE, JCC, JMA and JGE are one branch under five conditions. -/
theorem jumpsGoToEaWhenTaken : Obligations.JumpsGoToEaWhenTaken := by
  refine ⟨decodesAs_of_opcode rfl fun _ => rfl, decodesAs_of_opcode rfl fun _ => rfl,
    decodesAs_of_opcode rfl fun _ => rfl, decodesAs_of_opcode rfl fun _ => rfl,
    decodesAs_of_opcode rfl fun _ => rfl, ?jz, ?jne, ?jcc, ?jma, ?jge⟩
  case jz => exact fun r m s h => jump_of_exec h (exec_jz r m s) (beq_zero_iff_toNat _)
  case jne => exact fun r m s h => jump_of_exec h (exec_jne r m s) (bne_zero_iff_toNat _)
  case jcc => exact fun b m s h => jump_of_exec h (exec_jcc b m s) Iff.rfl
  case jma => exact fun m s h => jump_of_exec (b := true) h (exec_jma m s) (iff_of_true rfl trivial)
  case jge => exact fun r m s h => jump_of_exec h (exec_jge r m s) decide_eq_true_iff

/-! The jumps that write a register. -/

/-- Settles O33: the link is the PC the EA unit left, and the jump is one always taken. -/
theorem jsrLinksInR3 : Obligations.JsrLinksInR3 := by
  refine ⟨decodesAs_of_opcode rfl fun _ => rfl, fun m s h => ?_⟩
  have hexec := exec_jsr m s
  refine ⟨_, hexec, ?_, (writesOnly_of_exec hexec rfl).gpr,
    jumpEffect_branchIf (b := true) h.coherent _ (iff_of_true rfl trivial)⟩
  rw [ready_reg, loadPc_reg, setReg_reg_same, pcWord_toNat]

/-- Settles O34: the target is R3's value from before R0 is written. -/
theorem rfsReturnsThroughR3 : Obligations.RfsReturnsThroughR3 := by
  refine ⟨decodesAs_of_opcode rfl fun _ => rfl, fun imm s => ?_⟩
  have hexec := exec_rfs imm s
  have hw := writesOnly_of_exec hexec rfl
  refine ⟨_, hexec, ?_, addrPc_low11_toNat _, hw.gpr, hw.ixr, hw.flags,
    ⟨rfl, rfl, rfl, bytesKept_of_eq rfl⟩, hw.ir, hw.mfr, rfl, rfl⟩
  rw [ready_reg, loadPc_reg, setReg_reg_same, zext5_toNat]

theorem sub_one_toNat (v : Word) : ((v - 1).toNat : Int) = (v.toNat - 1) % 65536 := by
  rw [BitVec.toNat_sub, show (1 : Word).toNat = 1 from rfl]
  omega

/-- Settles O35: the branch tests the register as the decrement left it. -/
theorem sobDecrementsAndBranchesWhilePositive : Obligations.SobDecrementsAndBranchesWhilePositive := by
  refine ⟨decodesAs_of_opcode rfl fun _ => rfl, fun r m s h => ?_⟩
  have hexec := exec_sob r m s
  refine ⟨_, hexec, ?_⟩
  rw [ready_reg, branchIf_reg, setReg_reg_same]
  exact ⟨sub_one_toNat _, (writesOnly_of_exec hexec rfl).gpr,
    jumpEffect_branchIf h.coherent _ decide_eq_true_iff⟩

end Sys2Proof.Proofs
end

section
/-! PROOFS (spec/44_regreg.md R270 to R276): MLT, DVD, TRR, AND, ORR and NOT. The arithmetic of the product and of the
truncated division is apart from the machine; each instruction then writes registers and a flag and nothing else. -/

namespace Sys2Proof.Proofs

open Sys2Proof Sys2Proof.Machine Sys2Proof.Laws

/-! Instructions that write general registers g and the flags c alone (R90). -/

theorem noAccess_of_gpr_cc (s : State) (g : Vector Word 4) (c : BitVec 4) :
    NoAccess s { s with gpr := g, cc := c }.ready := ⟨rfl, rfl, rfl, bytesKept_of_eq rfl⟩

theorem systemKept_of_gpr_cc (s : State) (g : Vector Word 4) (c : BitVec 4) :
    SystemKept s { s with gpr := g, cc := c }.ready := ⟨rfl, rfl, rfl, rfl⟩

/-- The frame of an instruction whose whole meaning is one register write. -/
theorem setReg_ready_frame (s : State) (r : Reg) (v : Word) :
    GprKept [r] s (s.setReg r v).ready ∧ IxrKept [] s (s.setReg r v).ready ∧ FlagsKept [] s (s.setReg r v).ready ∧
      (s.setReg r v).ready.pc = s.pc ∧ NoAccess s (s.setReg r v).ready ∧ SystemKept s (s.setReg r v).ready :=
  ⟨gprKept_setReg v rfl, ixrKept_of_eq rfl _, flagsKept_of_eq rfl _, rfl, noAccess_of_gpr_cc s _ _,
    systemKept_of_gpr_cc s _ _⟩

/-! The pair Rx:Rx+1 (R270, R271). -/

theorem pairLow_of_head {rx rx1 : Reg} (h : rx = .r0 ∧ rx1 = .r1 ∨ rx = .r2 ∧ rx1 = .r3) :
    pairLow? rx = some rx1 := by
  obtain ⟨rfl, rfl⟩ | ⟨rfl, rfl⟩ := h <;> rfl

theorem pairLow_of_odd {rx : Reg} (h : rx = .r1 ∨ rx = .r3) : pairLow? rx = none := by
  obtain rfl | rfl := h <;> rfl

theorem pairLow_ne {rx rx1 : Reg} (h : pairLow? rx = some rx1) : rx ≠ rx1 := by
  rintro rfl
  cases rx <;> cases h

section
variable (s : State) {rx rx1 : Reg} (f : Flag) (b : Bool) (v v1 : Word)

/-- The head of the pair is not the register written last. -/
theorem setPair_reg_head (h : pairLow? rx = some rx1) :
    (((s.setReg rx v).setReg rx1 v1).setFlag f b).ready.reg rx = v := by
  rw [ready_reg, setFlag_reg, setReg_reg_other _ _ (pairLow_ne h), setReg_reg_same]

theorem setPair_reg_low : (((s.setReg rx v).setReg rx1 v1).setFlag f b).ready.reg rx1 = v1 := by
  rw [ready_reg, setFlag_reg, setReg_reg_same]

end

/-! The product (R270). -/

/-- A 32-bit word is its signed upper half and its unsigned lower half. -/
theorem toInt_halves (u : BitVec 32) :
    (u.extractLsb' 16 16).toInt * 65536 + (u.extractLsb' 0 16).toNat = u.toInt := by
  have happ : u.extractLsb' 16 16 ++ u.extractLsb' 0 16 = u :=
    (BitVec.extractLsb'_append_extractLsb'_eq_extractLsb' rfl).trans BitVec.extractLsb'_eq_self
  have h := BitVec.toInt_append (x := u.extractLsb' 16 16) (y := u.extractLsb' 0 16)
  rw [happ] at h
  simp only [Nat.reduceBEq, Bool.false_eq_true, if_false] at h
  omega

theorem natAbs_signed_le (w : Word) : (signed w).natAbs ≤ 32768 := by
  have := signed_range w
  omega

theorem natAbs_product_le (v w : Word) : (signed v * signed w).natAbs ≤ 1073741824 := by
  rw [Int.natAbs_mul]
  exact Nat.mul_le_mul (natAbs_signed_le v) (natAbs_signed_le w)

/-- The product of two words fits the pair. -/
theorem product32_toInt (v w : Word) : (product32 (signed v * signed w)).toInt = signed v * signed w := by
  have := natAbs_product_le v w
  exact BitVec.toInt_ofInt_eq_self (by decide) (by omega) (by omega)

/-- A factor below its bound takes the product below the product of the bounds. -/
theorem eq_max_of_le_mul {m n : Nat} (hm : m ≤ 32768) (hn : n ≤ 32768) (h : 1073741824 ≤ m * n) : m = 32768 := by
  by_contra hne
  have hlt : m * n ≤ 32767 * 32768 := Nat.mul_le_mul (by omega) hn
  omega

/-- Only the square of -32768 leaves the range: elsewhere one factor has absolute value at most 32767. -/
theorem mltOverflows_product (v w : Word) :
    mltOverflows (signed v * signed w) = true ↔ v = 0x8000 ∧ w = 0x8000 := by
  rw [mltOverflows_eq, decide_eq_true_iff]
  constructor
  · intro hp
    have hge : 1073741824 ≤ (signed v).natAbs * (signed w).natAbs := by
      rw [← Int.natAbs_mul]
      omega
    have hv := natAbs_signed_le v
    have hw := natAbs_signed_le w
    have hvmax := eq_max_of_le_mul hv hw hge
    have hwmax := eq_max_of_le_mul hw hv (Nat.mul_comm .. ▸ hge)
    have := signed_range v
    have := signed_range w
    exact ⟨(signed_eq_min v).mp (by omega), (signed_eq_min w).mp (by omega)⟩
  · rintro ⟨rfl, rfl⟩
    decide

/-- Settles O36: the pair holds the halves of a product that fits 32 bits. -/
theorem mltLeavesTheExactProduct : Obligations.MltLeavesTheExactProduct := by
  refine ⟨decodesAs_of_opcode rfl fun _ => rfl, fun _ ry s h => exec_mlt_illegal ry s (pairLow_of_odd h), ?_⟩
  intro rx rx1 ry s h p
  have hp := pairLow_of_head h
  refine ⟨_, exec_mlt ry s hp, ?_, ?_, ?_, flagsKept_setFlag _ rfl, gprKept_setReg_setReg _ _ rfl,
    ixrKept_of_eq rfl _, rfl, noAccess_of_gpr_cc s _ _, systemKept_of_gpr_cc s _ _⟩
  · rw [setPair_reg_head s _ _ _ _ hp, setPair_reg_low, toInt_halves]
    exact product32_toInt _ _
  · rw [ready_flag, setFlag_flag_same, mltOverflows_eq]
    exact decide_eq_true_iff
  · rw [ready_flag, setFlag_flag_same]
    exact mltOverflows_product _ _

/-! The division (R271). -/

theorem remainder_eq_tmod (a b : Int) : remainder a b = a.tmod b := by
  rw [remainder, quotient, Int.tmod_def, Int.mul_comm]

theorem eq_quotient_mul_add_remainder (a b : Int) : a = quotient a b * b + remainder a b := by
  rw [remainder]
  omega

theorem natAbs_remainder_lt (a : Int) {b : Int} (hb : b ≠ 0) : (remainder a b).natAbs < b.natAbs := by
  rw [remainder_eq_tmod, Int.natAbs_tmod]
  exact Nat.mod_lt _ (Int.natAbs_pos.mpr hb)

/-- The remainder is zero or has the dividend's sign. -/
theorem remainder_sign (a b : Int) : remainder a b = 0 ∨ (remainder a b < 0 ↔ a < 0) := by
  have hsign := Int.sign_tmod a b
  rw [← remainder_eq_tmod] at hsign
  split at hsign
  · exact .inl (Int.sign_eq_zero_iff_zero.mp hsign)
  · exact .inr (by rw [← Int.sign_eq_neg_one_iff_neg, hsign, Int.sign_eq_neg_one_iff_neg])

/-- Settles O37: the pair holds quotient and remainder of the truncated division, a zero divisor writes the flag. -/
theorem dvdTruncatesTowardZero : Obligations.DvdTruncatesTowardZero := by
  refine ⟨decodesAs_of_opcode rfl fun _ => rfl, fun _ ry s h => exec_dvd_illegal ry s (pairLow_of_odd h), ?_⟩
  intro rx rx1 ry s h a b
  have hp := pairLow_of_head h
  by_cases hb : b = 0
  · refine ⟨_, exec_dvd_zero s hp hb, fun hne => absurd hb hne, fun _ => ?_, flagsKept_setFlag true rfl,
      ixrKept_of_eq rfl _, rfl, noAccess_of_gpr_cc s _ _, systemKept_of_gpr_cc s _ _⟩
    exact ⟨setFlag_flag_same s .divzero true, gprKept_of_eq rfl _⟩
  · refine ⟨_, exec_dvd s hp hb, fun _ => ?_, fun h0 => absurd h0 hb, flagsKept_setFlag false rfl,
      ixrKept_of_eq rfl _, rfl, noAccess_of_gpr_cc s _ _, systemKept_of_gpr_cc s _ _⟩
    exact ⟨quotient a b, remainder a b, eq_quotient_mul_add_remainder a b, natAbs_remainder_lt a hb,
      remainder_sign a b, setPair_reg_head s _ _ _ _ hp, setPair_reg_low s _ _ _ _,
      setFlag_flag_same _ .divzero false, gprKept_setReg_setReg _ _ rfl⟩

/-! The comparison and the logic operations (R272 to R275). -/

/-- Settles O38: EQUAL is assigned the comparison of the two words. -/
theorem trrWritesEqual : Obligations.TrrWritesEqual := by
  refine ⟨decodesAs_of_opcode rfl fun _ => rfl, fun rx ry s => ?_⟩
  refine ⟨_, exec_trr rx ry s, ?_, flagsKept_setFlag _ rfl, gprKept_of_eq rfl _, ixrKept_of_eq rfl _, rfl,
    noAccess_of_gpr_cc s _ _, systemKept_of_gpr_cc s _ _⟩
  rw [ready_flag, setFlag_flag_same]
  exact beq_iff_eq

/-- Settles O39: each instruction is one register write, of a bitwise result. -/
theorem logicWorksBitByBit : Obligations.LogicWorksBitByBit := by
  refine ⟨decodesAs_of_opcode rfl fun _ => rfl, decodesAs_of_opcode rfl fun _ => rfl,
    decodesAs_of_opcode rfl fun _ => rfl, fun rx ry s => ⟨?andr, ?orr, ?notr⟩⟩
  case andr =>
    refine ⟨_, exec_andr rx ry s, fun k _ => ?_, setReg_ready_frame s rx _⟩
    rw [ready_reg, setReg_reg_same, BitVec.getLsbD_and]
  case orr =>
    refine ⟨_, exec_orr rx ry s, fun k _ => ?_, setReg_ready_frame s rx _⟩
    rw [ready_reg, setReg_reg_same, BitVec.getLsbD_or]
  case notr =>
    refine ⟨_, exec_notr rx s, fun k hk => ?_, setReg_ready_frame s rx _⟩
    rw [ready_reg, setReg_reg_same, BitVec.getLsbD_not, decide_eq_true hk, Bool.true_and]

end Sys2Proof.Proofs
end

section
/-! PROOFS (spec/45_shift_rotate.md R300, R301): SRC and RRC. What a shifted word is worth and where a rotation takes
each bit is apart from the machine; each instruction is then one register write. -/

namespace Sys2Proof.Proofs

open Sys2Proof Sys2Proof.Machine Sys2Proof.Laws

/-! The shift (R300). -/

theorem shifted_left_toNat (v : Word) (count : BitVec 4) (kind : ShiftKind) :
    (shifted v count .left kind).toNat = v.toNat * 2 ^ count.toNat % 65536 := by
  rw [shifted, BitVec.toNat_shiftLeft, Nat.shiftLeft_eq]

theorem shifted_logicalRight_toNat (v : Word) (count : BitVec 4) :
    (shifted v count .right .logical).toNat = v.toNat / 2 ^ count.toNat := by
  rw [shifted, BitVec.toNat_ushiftRight, Nat.shiftRight_eq_div_pow]

theorem shifted_arithmeticRight_toInt (v : Word) (count : BitVec 4) :
    (shifted v count .right .arithmetic).toInt = v.toInt / (2 ^ count.toNat : Int) := by
  rw [shifted, BitVec.toInt_sshiftRight, Int.shiftRight_eq_div_pow]
  norm_cast

/-- Settles O40: each mode is one register write, of a product or a quotient by 2^count. -/
theorem srcShiftsInFourModes : Obligations.SrcShiftsInFourModes := by
  refine ⟨decodesAs_of_opcode rfl fun _ => rfl, fun r count dir kind s => ?_⟩
  refine ⟨_, exec_src r count dir kind s, ?left, ?logicalRight, ?arithmeticRight, setReg_ready_frame s r _⟩ <;>
    rw [ready_reg, setReg_reg_same]
  case left =>
    rintro rfl
    exact shifted_left_toNat _ count kind
  case logicalRight =>
    rintro rfl rfl
    exact shifted_logicalRight_toNat _ count
  case arithmeticRight =>
    rintro rfl rfl
    exact shifted_arithmeticRight_toInt _ count

/-! The rotation (R301). The model answers a count of 0 apart; the library's rotation does it by a shift of 16. -/

theorem rotated_left (v : Word) (count : BitVec 4) : rotated v count .left = v.rotateLeft count.toNat := by
  rw [BitVec.rotateLeft_eq_rotateLeftAux_of_lt count.isLt, rotated]
  split
  · next h => rw [h, BitVec.rotateLeftAux, BitVec.ushiftRight_eq_zero le_rfl, BitVec.shiftLeft_zero, BitVec.or_zero]
  · rfl

theorem rotated_right (v : Word) (count : BitVec 4) : rotated v count .right = v.rotateRight count.toNat := by
  rw [BitVec.rotateRight_eq_rotateRightAux_of_lt count.isLt, rotated]
  split
  · next h => rw [h, BitVec.rotateRightAux, BitVec.shiftLeft_eq_zero le_rfl, BitVec.ushiftRight_zero, BitVec.or_zero]
  · rfl

/-- Bit k moves up, and past bit 15 it comes in again at the bottom. -/
theorem rotated_left_getLsbD (v : Word) (count : BitVec 4) {k : Nat} (hk : k < 16) :
    (rotated v count .left).getLsbD ((k + count.toNat) % 16) = v.getLsbD k := by
  have hc : count.toNat < 16 := count.isLt
  rw [rotated_left, BitVec.getLsbD_rotateLeft_of_le hc]
  by_cases hwrap : k + count.toNat < 16
  · rw [Nat.mod_eq_of_lt hwrap]
    simp [hwrap]
  · have hmod : (k + count.toNat) % 16 = k + count.toNat - 16 := by omega
    have hlow : k + count.toNat - 16 < count.toNat := by omega
    have hbit : 16 - count.toNat + (k + count.toNat - 16) = k := by omega
    simp [hmod, hlow, hbit]

theorem rotated_right_getLsbD (v : Word) (count : BitVec 4) {k : Nat} (hk : k < 16) :
    (rotated v count .right).getLsbD k = v.getLsbD ((k + count.toNat) % 16) := by
  have hc : count.toNat < 16 := count.isLt
  rw [rotated_right, BitVec.getLsbD_rotateRight_of_lt hc]
  by_cases hwrap : k + count.toNat < 16
  · have hlow : k < 16 - count.toNat := by omega
    rw [Nat.mod_eq_of_lt hwrap]
    simp [hlow, Nat.add_comm]
  · have hmod : (k + count.toNat) % 16 = k - (16 - count.toNat) := by omega
    have hhigh : ¬ k < 16 - count.toNat := by omega
    simp [hmod, hhigh, hk]

/-- Settles O41: the instruction is one register write, of the rotated word. -/
theorem rrcRotatesEveryBit : Obligations.RrcRotatesEveryBit := by
  refine ⟨decodesAs_of_opcode rfl fun _ => rfl, fun r count dir s => ?_⟩
  refine ⟨_, exec_rrc r count dir s, ?left, ?right, setReg_ready_frame s r _⟩ <;>
    rw [ready_reg, setReg_reg_same]
  case left =>
    rintro rfl k hk
    exact rotated_left_getLsbD _ count hk
  case right =>
    rintro rfl k hk
    exact rotated_right_getLsbD _ count hk

end Sys2Proof.Proofs
end

section
/-! PROOFS (spec/46_index.md R320, R321): LDX and STX. They are LDR and STR with an index register for the general one
and with the plain operand, whose EA is never indexed (R169); IX = 0 names no register and faults (R136). -/

namespace Sys2Proof.Proofs

open Sys2Proof Sys2Proof.Machine Sys2Proof.Laws

/-! The index register an IX field of 1 to 3 names (R33). -/

theorem xreg_of_named {sel : IxSel} {x : XReg}
    (h : sel = .x1 ∧ x = .x1 ∨ sel = .x2 ∧ x = .x2 ∨ sel = .x3 ∧ x = .x3) : IxSel.xreg? sel = some x := by
  obtain ⟨rfl, rfl⟩ | ⟨rfl, rfl⟩ | ⟨rfl, rfl⟩ := h <;> rfl

theorem ne_off_of_xreg {sel : IxSel} {x : XReg} (h : IxSel.xreg? sel = some x) : (sel != .off) = true := by
  cases sel with
  | off => cases h
  | x1 | x2 | x3 => rfl

theorem ixrWrites_ldx {sel : IxSel} {x : XReg} (i : Bool) (a : BitVec 5) (h : IxSel.xreg? sel = some x) :
    ixrWrites (.ldx sel i a) = [x] :=
  congrArg Option.toList h

/-- Settles O42: the value read through the cache is the memory word at EA[10:0]; X[x] is the one register written. -/
theorem ldxLoadsTheIndexRegister : Obligations.LdxLoadsTheIndexRegister := by
  refine ⟨decodesAs_of_opcode rfl fun _ => rfl, fun i a s => exec_ldx_illegal i a s rfl, ?_⟩
  intro sel x i a s hsel h m
  have hx := xreg_of_named hsel
  have hexec := exec_ldx i a s hx
  have hw := writesOnly_of_exec hexec (ne_off_of_xreg hx)
  refine ⟨_, hexec, ?value, ?ixr, hw.gpr, hw.flags, effAddr_pc m s, { loadAccess_afterRead m h.coherent with },
    hw.ir, hw.mfr, effAddr_dev m s, rfl⟩
  case value => exact (setXreg_xreg_same _ x _).trans (load_value m h)
  case ixr =>
    rw [← ixrWrites_ldx i a hx]
    exact hw.ixr

/-- Settles O43: the write of X[x] at EA[10:0] is the one change of memory. -/
theorem stxStoresTheIndexRegister : Obligations.StxStoresTheIndexRegister := by
  refine ⟨decodesAs_of_opcode rfl fun _ => rfl, fun i a s => exec_stx_illegal i a s rfl, ?_⟩
  intro sel x i a s hsel h m
  have hx := xreg_of_named hsel
  have hexec := exec_stx i a s hx
  have hw := writesOnly_of_exec hexec (ne_off_of_xreg hx)
  exact ⟨_, hexec, { storeAccess_memWrite m h.coherent (s.xreg x) with }, hw.ixr, hw.gpr, hw.flags, effAddr_pc m s,
    hw.ir, hw.mfr, effAddr_dev m s, rfl⟩

end Sys2Proof.Proofs
end

section
/-! PROOFS (spec/47_io.md R340 to R349, spec/60_exceptions.md R415): IN, OUT and CHK, and the host's side of the
devices. What an IN leaves follows from the port's answer alone, one rule for a word and one for NotReady. A suspended
IN's state is a fixed point of the step, because its fetch hits the line it installed. The operator's text is a word
by its parse. -/

namespace Sys2Proof.Proofs

open Sys2Proof Sys2Proof.Machine Sys2Proof.Laws

/-! IN by the port's answer (R342, R349). -/

section
variable {r : Reg} {dev : DevNum} {s : State} {v : Word} {d : Devices}

theorem inCompletes_of_devIn (h : s.dev.devIn dev = (.ready v, d)) :
    ∃ t, exec (.inp r dev) s = .next t ∧ InCompletes r v d s t :=
  ⟨_, exec_inp_ready h, setReg_reg_same _ r v, rfl, rfl, rfl, gprKept_setReg v rfl, ixrKept_of_eq rfl _,
    flagsKept_of_eq rfl _, rfl, rfl, rfl, rfl, rfl, bytesKept_of_eq rfl⟩

theorem inSuspends_of_devIn (h : s.dev.devIn dev = (.notReady, d)) :
    ∃ t, exec (.inp r dev) s = .next t ∧ InSuspends d s t :=
  ⟨_, exec_inp_notReady h, rfl, rfl, rfl, gprKept_of_eq rfl _, ixrKept_of_eq rfl _, flagsKept_of_eq rfl _, rfl, rfl,
    rfl, rfl, rfl, bytesKept_of_eq rfl⟩

end

/-- Settles O44: each clause is a case of the port's answer; the free value of another device is either. -/
theorem inReadsEachDevice : Obligations.InReadsEachDevice := by
  refine ⟨decodesAs_of_opcode rfl fun _ => rfl, fun r s v rest h => inCompletes_of_devIn (devIn_keyboard_cons h),
    fun r s h => inSuspends_of_devIn (devIn_keyboard_nil h),
    fun r s v rest h => inCompletes_of_devIn (devIn_file_cons h),
    fun r s h => inCompletes_of_devIn (devIn_file_nil h), ?other⟩
  intro r dev s h0 h2 d
  have hdev : s.dev.devIn dev = (Config.inOther dev s.dev.otherReads, d) := devIn_other h0 h2
  cases hanswer : Config.inOther dev s.dev.otherReads with
  | ready v =>
    obtain ⟨t, ht, hin⟩ := inCompletes_of_devIn (r := r) (hdev.trans (congrArg (·, d) hanswer))
    exact ⟨t, ht, .inl ⟨v, rfl, hin⟩⟩
  | notReady =>
    obtain ⟨t, ht, hin⟩ := inSuspends_of_devIn (r := r) (hdev.trans (congrArg (·, d) hanswer))
    exact ⟨t, ht, .inr ⟨rfl, hin⟩⟩

/-! A suspended IN (R345, R349). -/

/-- A read leaves a line for its address (R83). -/
theorem hit_afterRead (c : Cache) (a : Addr) (w : Word) : ∃ k, (c.afterRead a w).hit? a = some k := by
  refine Option.ne_none_iff_exists'.mp fun hmiss => ?_
  have hfill (k : LineIdx) (q : List LineIdx) : (c.fill k q a w).hit? a ≠ none := fun h =>
    hit_none.mp h k (by simp [line_fill]) (by simp [line_fill])
  unfold Cache.afterRead at hmiss
  split at hmiss
  · next k hk => exact absurd (hk.symm.trans hmiss) nofun
  · obtain ⟨k, _, e⟩ | ⟨_, e⟩ := install_cases c a w <;> exact hfill _ _ (e ▸ hmiss)

theorem afterRead_hit {c : Cache} {a : Addr} {k : LineIdx} (w : Word) (hk : c.hit? a = some k) :
    c.afterRead a w = c := by
  simp only [Cache.afterRead, hk]

/-- Reading an address again moves nothing in the cache. -/
theorem afterRead_afterRead (c : Cache) (a : Addr) (w w' : Word) :
    (c.afterRead a w).afterRead a w' = c.afterRead a w := by
  obtain ⟨k, hk⟩ := hit_afterRead c a w
  exact afterRead_hit w' hk

/-- The state of a block that fetched an IN from s and suspended on it (R349): PC is back at the IN. -/
def suspendedAt (s : State) : State := { fetch s with pc := s.pc, runState := .waiting }

/-- Suspending on the same IN again changes nothing: its fetch reads the same word and hits. -/
theorem suspendedAt_suspendedAt {s : State} (h : Coherent s.cache s.mem) :
    suspendedAt (suspendedAt s) = suspendedAt s := by
  have hword : (suspendedAt s).readValue (pcAddr s.pc) = s.readValue (pcAddr s.pc) :=
    (readValue_eq _ (coherent_fetch h)).trans (readValue_eq _ h).symm
  have hcache : (suspendedAt s).cache.afterRead (pcAddr s.pc) (s.mem.word (pcAddr s.pc)) = (suspendedAt s).cache :=
    afterRead_afterRead ..
  calc suspendedAt (suspendedAt s)
    _ = { suspendedAt s with
          ir := (suspendedAt s).readValue (pcAddr s.pc), mar := pcAddr s.pc,
          mbr := (suspendedAt s).readValue (pcAddr s.pc),
          cache := (suspendedAt s).cache.afterRead (pcAddr s.pc) (s.mem.word (pcAddr s.pc)) } := rfl
    _ = suspendedAt s := by rw [hword, hcache]; rfl

section
variable {s : State} {r : Reg} (hf : Fetches s) (hcoh : Coherent s.cache s.mem)
  (hd : decode (s.mem.word (pcAddr s.pc)) = .ok (.inp r 0))
include hf hcoh hd

/-- A step at an IN from the empty keyboard suspends. -/
theorem step_keyboard_empty (hk : s.dev.keyboard = []) : step s = .next (suspendedAt s) := by
  rw [step_of_decode_ok hf hcoh hd, exec_inp_notReady (s := fetch s) (devIn_keyboard_nil hk), fetch_pc, pc_succ_pred]
  rfl

/-- A step at an IN from a keyboard with a word completes with the oldest one. -/
theorem step_keyboard_word {v : Word} {rest : List Word} (hk : s.dev.keyboard = v :: rest) :
    step s = .next ({ fetch s with dev := { s.dev with keyboard := rest } }.setReg r v).ready :=
  (step_of_decode_ok hf hcoh hd).trans (exec_inp_ready (devIn_keyboard_cons hk))

end

/-- Settles O45: the step that suspends is the same again on the state it leaves, until the queue holds a word. -/
theorem suspendedInWaitsForTheKeyboard : Obligations.SuspendedInWaitsForTheKeyboard := by
  intro s r v hf hcache hk hd
  have hcoh := hcache.coherent
  have hfetches : Fetches (suspendedAt s) := ⟨.inr rfl, hf.2⟩
  have hcoh' : Coherent (suspendedAt s).cache (suspendedAt s).mem := coherent_fetch hcoh
  have hagain : step (suspendedAt s) = .next (suspendedAt s) := by
    rw [step_keyboard_empty hfetches hcoh' hd hk, suspendedAt_suspendedAt hcoh]
  have hqueue : (hostSubmitKeyboard v (suspendedAt s)).dev.keyboard = [v] := congrArg (· ++ [v]) hk
  have hword := step_keyboard_word (s := hostSubmitKeyboard v (suspendedAt s)) hfetches hcoh' hd hqueue
  exact ⟨_, _, step_keyboard_empty hf hcoh hd hk, rfl, rfl, rfl, rfl, hagain, hword, setReg_reg_same _ r v,
    gprKept_setReg v rfl, rfl, pc_succ_toNat hf.2, rfl⟩

/-! The host's side of the devices (R345 to R347, R415). -/

theorem hostSubmitText_eq {text : List Char} {w : Word} (s : State) (h : keyboardWord text = w) :
    hostSubmitText text s = hostSubmitKeyboard w s := by
  rw [hostSubmitText, h]

/-- A numeric text in range is its value in 16 bits. -/
theorem keyboardWord_numeric {text : List Char} {n : Int} (h : readInteger text = some n) (hlo : -32768 ≤ n)
    (hhi : n ≤ 65535) : keyboardWord text = BitVec.ofInt 16 n := by
  have hparse : readKeyboardText text = .numeric n := by simp only [readKeyboardText, h]
  simp only [keyboardWord, hparse, hlo, hhi, and_self, if_true, trunc16]

theorem maybeNumeric_other {c : Char} (rest : List Char) (hdigit : c.isDigit = false) (hminus : c ≠ '-')
    (hplus : c ≠ '+') (hspace : isSpace c = false) : maybeNumeric (c :: rest) = false := by
  have hdrop : dropPlus (trim (c :: rest)) = c :: trimEnd rest := by
    rw [trim_cons rest hspace, dropPlus, if_neg hplus]
  rw [maybeNumeric, hdrop, readInteger_other _ hdigit hminus, Option.isSome_none]

/-- A text of characters is its first character's code point. -/
theorem keyboardWord_characters {c : Char} (rest : List Char) (hdigit : c.isDigit = false) (hminus : c ≠ '-')
    (hplus : c ≠ '+') (hspace : isSpace c = false) : keyboardWord (c :: rest) = BitVec.ofNat 16 c.toNat := by
  have hparse : readKeyboardText (c :: rest) = .characters c.toNat := by
    simp only [readKeyboardText, readInteger_other rest hdigit hminus,
      maybeNumeric_other rest hdigit hminus hplus hspace, Bool.false_eq_true, if_false]
  simp only [keyboardWord, hparse]

theorem readInteger_of_readDigits {c : Char} {rest : List Char} {n : Nat} (hminus : c ≠ '-')
    (h : readDigits (c :: rest) = some n) : readInteger (c :: rest) = some (n : Int) := by
  rw [readInteger, if_neg hminus, h]
  rfl

theorem readInteger_minus {rest : List Char} {n : Nat} (h : readDigits rest = some n) :
    readInteger ('-' :: rest) = some (-(n : Int)) := by
  rw [readInteger, if_pos rfl, h]
  rfl

/-- Settles O48: the operations are their definitions; each kind of text has its parse. -/
theorem hostFeedsAndEmptiesTheDevices : Obligations.HostFeedsAndEmptiesTheDevices := by
  refine ⟨fun s v words => ⟨rfl, rfl, rfl, rfl⟩, ?numeric, ?characters⟩
  case numeric =>
    intro s ds hne hds value
    obtain ⟨d, rest, rfl⟩ := List.exists_cons_of_ne_nil hne
    have hdigits : readDigits ((d :: rest).map Nat.digitChar) = some value := readDecimal_digits 0 _ hds
    have hinteger : readInteger ((d :: rest).map Nat.digitChar) = some (value : Int) :=
      readInteger_of_readDigits (digitChar_ne_minus (hds d (.head _))) hdigits
    refine ⟨fun hv => hostSubmitText_eq s ?_, fun hv => hostSubmitText_eq s ?_⟩
    · rw [keyboardWord_numeric hinteger (by omega) (by omega), BitVec.ofInt_natCast]
    · exact keyboardWord_numeric (readInteger_minus hdigits) (by omega) (by omega)
  case characters =>
    intro s c rest hdigit hminus hplus hspace
    exact hostSubmitText_eq s (keyboardWord_characters rest hdigit hminus hplus hspace)

/-! OUT and CHK (R343, R344, R346). -/

theorem devOut_printer (d : Devices) (v : Word) : (d.devOut 1 v).printer = d.printer ++ [lowByte v] := rfl

theorem devOut_printer_other (d : Devices) {dev : DevNum} (v : Word) (h : dev ≠ 1) :
    (d.devOut dev v).printer = d.printer :=
  if_neg h

/-- Settles O46: the devices after OUT are the port's, and OUT writes nothing else. -/
theorem outHandsTheWordToThePort : Obligations.OutHandsTheWordToThePort := by
  refine ⟨decodesAs_of_opcode rfl fun _ => rfl, fun r dev s => ?_⟩
  have hexec := exec_out r dev s
  have hw := writesOnly_of_exec hexec rfl
  refine ⟨_, hexec, rfl, ?printer, devOut_printer_other _ _, rfl, rfl, rfl, rfl, rfl, hw.gpr, hw.ixr, hw.flags,
    hw.ir, hw.mfr, rfl, rfl, rfl, bytesKept_of_eq rfl⟩
  case printer =>
    rintro rfl
    exact devOut_printer _ _

/-- Settles O47: CHK is one register write, of 1. -/
theorem chkAnswersReadyForEveryDevice : Obligations.ChkAnswersReadyForEveryDevice := by
  refine ⟨decodesAs_of_opcode rfl fun _ => rfl, fun r dev s => ?_⟩
  exact ⟨_, exec_chk r dev s, setReg_reg_same s r 1, setReg_ready_frame s r 1⟩

end Sys2Proof.Proofs
end

section
/-! PROOFS (spec/40_cycle_and_ea.md R160 to R165, spec/48_system.md R370, R371, spec/60_exceptions.md R401, R406, R407):
what a step can do, fault entry, HLT, TRAP and the return from it. A step is fault entry at the fetch check, fault entry
after the fetch, or one well-formed instruction, which raises no fault. -/

namespace Sys2Proof.Proofs

open Sys2Proof Sys2Proof.Machine Sys2Proof.Laws

/-! What a step can do. -/

/-- How a step from s comes to its next state (R161 to R165). -/
inductive StepCase (s : State) : State → Prop where
  | badAddress (hpc : 2048 ≤ s.pc.toNat) : StepCase s (faultEntry .illegalMemoryAddress s)
  | badOperation (hpc : s.pc.toNat < 2048) (hd : ∀ i, decode (fetch s).ir = .ok i → i.wellFormed = false) :
      StepCase s (faultEntry .illegalOperationCode (fetch s))
  | executed {i : Instr} {t : State} (hpc : s.pc.toNat < 2048) (hd : decode (fetch s).ir = .ok i)
      (hwf : i.wellFormed = true) (hexec : exec i (fetch s) = .next t) : StepCase s t

theorem step_cases {s t : State} (h : step s = .next t) : StepCase s t := by
  have hcycle := (step_next h).2
  by_cases hpc : s.pc.toNat < 2048
  · rw [cycle_inRange hpc] at hcycle
    cases hd : decode (fetch s).ir with
    | error e =>
      cases (executeFetched_error hd).symm.trans hcycle
      exact .badOperation hpc fun i hi => absurd (hd.symm.trans hi) nofun
    | ok i =>
      have hexec := (executeFetched_ok hd).symm.trans hcycle
      obtain ⟨hwf, -⟩ | ⟨hwf, rfl⟩ := exec_cases hexec
      · exact .executed hpc hd hwf hexec
      · exact .badOperation hpc fun j hj => Except.ok.inj (hd.symm.trans hj) ▸ hwf
  · have hpc := not_lt.mp hpc
    cases (cycle_outOfRange hpc).symm.trans hcycle
    exact .badAddress hpc

/-- A step that ends FAULTED is fault entry: no well-formed instruction raises a fault. -/
theorem step_to_faulted {s t : State} (h : step s = .next t) (hf : t.runState = .faulted) :
    (2048 ≤ s.pc.toNat ∧ t = faultEntry .illegalMemoryAddress s) ∨
    (s.pc.toNat < 2048 ∧ t = faultEntry .illegalOperationCode (fetch s)) := by
  cases step_cases h with
  | badAddress hpc => exact .inl ⟨hpc, rfl⟩
  | badOperation hpc _ => exact .inr ⟨hpc, rfl⟩
  | executed _ _ hwf hexec => exact absurd hf (exec_runState_ne_faulted hwf hexec)

/-! Fault entry (R401, R406). -/

theorem faultEntry_savedPc (c : FaultCode) (s : State) : (faultEntry c s).mem.word 2 = pcWord s.pc :=
  memWrite_word_same _ _ _

theorem faultEntry_savedPc_toNat (c : FaultCode) (s : State) :
    ((faultEntry c s).mem.word 2).toNat = s.pc.toNat := by
  rw [faultEntry_savedPc, pcWord_toNat]

/-- Settles O21: the one access of fault entry is the save at address 2. -/
theorem faultEntryStopsAtTheFaultVector : Obligations.FaultEntryStopsAtTheFaultVector := by
  intro c s
  refine ⟨faultEntry c s, rfl, ?mfr, faultEntry_savedPc_toNat c s, bytesKeptBut_setWord _ rfl, rfl, rfl, rfl, ?cache,
    rfl, rfl, rfl, rfl, rfl, rfl⟩
  case mfr => cases c <;> rfl
  case cache =>
    rw [faultEntry_savedPc]
    rfl

/-- Settles O22: both fault entries of a step come before any instruction writes; the fetch alone has advanced PC. -/
theorem faultsArePrecise : Obligations.FaultsArePrecise := by
  intro s t _ hmax h hf
  obtain ⟨hpc, rfl⟩ | ⟨hpc, rfl⟩ := step_to_faulted h hf
  · have hpc : s.pc.toNat = 2048 := le_antisymm hmax hpc
    exact ⟨gprKept_of_eq rfl _, ixrKept_of_eq rfl _, flagsKept_of_eq rfl _, rfl, bytesKeptBut_setWord _ rfl, rfl,
      .inl ⟨rfl, hpc, (faultEntry_savedPc_toNat _ s).trans hpc, rfl⟩⟩
  · exact ⟨gprKept_of_eq rfl _, ixrKept_of_eq rfl _, flagsKept_of_eq rfl _, rfl, bytesKeptBut_setWord _ rfl, rfl,
      .inr ⟨rfl, hpc, (faultEntry_savedPc_toNat _ (fetch s)).trans (pc_succ_toNat hpc)⟩⟩

/-! HLT, TRAP and the return from TRAP (R370, R371, R407). -/

/-- Settles O49: HLT writes the run state alone, and a HALTED block refuses its next step. -/
theorem hltHaltsTheBlock : Obligations.HltHaltsTheBlock := by
  refine ⟨decodesAs_of_opcode rfl fun _ => rfl, fun s => ⟨exec_hlt s, fun t h => ?_⟩⟩
  cases (exec_hlt s).symm.trans h
  exact hostStep_of_stopped (.inl rfl)

theorem trapEntry_savedPc (s : State) : (trapEntry s).mem.word 2 = pcWord s.pc :=
  memWrite_word_same _ _ _

/-- TRAP's two accesses in their order: the save at address 2, the read of the vector at address 0. -/
theorem trapEntry_cache_eq (s : State) :
    (trapEntry s).cache = (s.cache.afterWrite 2 ((trapEntry s).mem.word 2)).afterRead 0 (s.mem.word 0) := by
  have hvector : (savePc s).mem.word 0 = s.mem.word 0 := memWrite_word_other s _ (by decide)
  rw [trapEntry_savedPc, ← hvector]
  rfl

/-- Settles O50: TRAP's entry, whose vector the save leaves alone. -/
theorem trapVectorsThroughAddress0 : Obligations.TrapVectorsThroughAddress0 := by
  refine ⟨decodesAs_of_opcode rfl fun _ => rfl, fun code s h => ?_⟩
  refine ⟨_, exec_trap code s, ?saved, bytesKeptBut_setWord _ rfl, ?pc, rfl, trapEntry_mbr h, trapEntry_cache_eq s,
    gprKept_of_eq rfl _, ixrKept_of_eq rfl _, flagsKept_of_eq rfl _, ⟨rfl, rfl, rfl, rfl⟩⟩
  case saved => rw [ready_mem, trapEntry_savedPc, pcWord_toNat]
  case pc =>
    rw [ready_pc, trapEntry_pc h]
    exact addrPc_low11_toNat _

/-- Settles O51: the EA of `JMA 0,0,2,1` is Mem[2], the PC that TRAP saved. -/
theorem jmaThroughAddress2ReturnsFromTrap : Obligations.JmaThroughAddress2ReturnsFromTrap := by
  intro code s t h _ hpc htrap hinv hkept
  cases (exec_trap code s).symm.trans htrap
  refine ⟨_, exec_jma _ h, ?_, effAddr_gpr _ h, effAddr_cc _ h⟩
  have hea : memEa { ix := .off, indirect := true, address := 2 } h = h.mem.word 2 := rfl
  rw [ready_pc, loadPc_pc, effAddr_fst _ hinv.coherent, hea, hkept, ready_mem, trapEntry_savedPc, low11_pcWord,
    addrPc_pcAddr hpc]

end Sys2Proof.Proofs
end

section
/-! PROOFS (spec/10_state.md R46, spec/70_reset_and_hazards.md R461): the invariants over steps and host sessions, and
where a WAITING block stands. Memory and cache keep theirs by `AccessClosed`; PC moves in one of three ways, none past
2048; MFR is written by fault entry alone, and fault entry alone ends FAULTED. -/

namespace Sys2Proof.Proofs

open Sys2Proof Sys2Proof.Machine Sys2Proof.Laws

/-! Where PC goes (R35, R36). -/

/-- What an instruction does to PC: it leaves the PC of the fetch, goes back to itself or loads an address. -/
inductive PcMove (s t : State) : Prop where
  | kept (h : t.pc = s.pc)
  | back (h : t.pc = s.pc - 1)
  | loaded (a : Addr) (h : t.pc = addrPc a)

theorem pcMove_branchIf {s u : State} (b : Bool) (ea : Word) (h : u.pc = s.pc) : PcMove s (branchIf b ea u).ready := by
  cases b with
  | false => exact .kept h
  | true => exact .loaded (low11 ea) rfl

theorem exec_pcMove {i : Instr} {s t : State} (h : exec i s = .next t) : PcMove s t := by
  obtain ⟨hwf, -⟩ | ⟨-, rfl⟩ := exec_cases h
  case inr => exact .loaded 1 rfl
  cases i with
  | ldr r m | lda r m | str r m | amr r m | smr r m => cases h; exact .kept (effAddr_pc m s)
  | jz r m | jne r m | jcc b m | jge r m | sob r m => cases h; exact pcMove_branchIf _ _ (effAddr_pc m s)
  | jma m | jsr m | rfs imm | trap code => cases h; exact .loaded _ rfl
  | mlt rx ry =>
    obtain ⟨_, hp, -⟩ := pair_writes ry hwf
    cases (exec_mlt ry s hp).symm.trans h
    exact .kept rfl
  | dvd rx ry =>
    obtain ⟨_, hp, -⟩ := pair_writes ry hwf
    by_cases hb : signed (s.reg ry) = 0
    · cases (exec_dvd_zero s hp hb).symm.trans h
      exact .kept rfl
    · cases (exec_dvd s hp hb).symm.trans h
      exact .kept rfl
  | ldx x i a =>
    obtain ⟨_, hk⟩ := xreg_of_ne_off hwf
    cases (exec_ldx i a s hk).symm.trans h
    exact .kept (effAddr_pc _ s)
  | stx x i a =>
    obtain ⟨_, hk⟩ := xreg_of_ne_off hwf
    cases (exec_stx i a s hk).symm.trans h
    exact .kept (effAddr_pc _ s)
  | inp r dev =>
    rcases hd : s.dev.devIn dev with ⟨resp, d⟩
    cases resp with
    | ready v => cases (exec_inp_ready hd).symm.trans h; exact .kept rfl
    | notReady => cases (exec_inp_notReady hd).symm.trans h; exact .back rfl
  | _ => cases h; exact .kept rfl

/-- From a PC of 1..2048, as every fetch leaves it, PC stays in 0..2048. -/
theorem PcMove.pc_le {s t : State} (h : PcMove s t) (hlo : 1 ≤ s.pc.toNat) (hhi : s.pc.toNat ≤ 2048) :
    t.pc.toNat ≤ 2048 := by
  cases h with
  | kept h => rwa [h]
  | back h =>
    rw [h, BitVec.toNat_sub, show (1 : PcVal).toNat = 1 from rfl]
    omega
  | loaded a h =>
    rw [h]
    exact (addrPc_toNat_lt a).le

/-! Every step keeps the invariants (R461). -/

theorem code_ne_zero (c : FaultCode) : c.code ≠ 0 := by
  cases c <;> decide

/-- Fault entry with either code a step raises establishes the invariants of PC, MFR and the run state. -/
theorem inv_faultEntry {c : FaultCode} {s : State} (hmem : s.mem.wf = true) (hcache : CacheInv s.cache s.mem)
    (hc : c = .illegalMemoryAddress ∨ c = .illegalOperationCode) : Inv (faultEntry c s) where
  memWf := wf_setWord _ _ hmem
  cache := cacheInv_faultEntry c hcache
  pc := show faultVector.toNat ≤ 2048 by decide
  mfr := by
    obtain rfl | rfl := hc
    · exact .inr (.inl rfl)
    · exact .inr (.inr rfl)
  faulted := iff_of_true rfl (code_ne_zero c)

/-- A running block has no fault (R42). -/
theorem mfr_eq_zero_of_running {s : State} (h : Inv s) (hrun : s.runState = .ready ∨ s.runState = .waiting) :
    s.mfr = 0 := by
  by_contra hmfr
  have := h.faulted.mpr hmfr
  simp [this] at hrun

theorem inv_step {s t : State} (hinv : Inv s) (h : step s = .next t) : Inv t := by
  have hmfr : s.mfr = 0 := mfr_eq_zero_of_running hinv (step_next h).1
  have hcache : CacheInv (fetch s).cache (fetch s).mem := cacheInv_fetch hinv.cache
  cases step_cases h with
  | badAddress _ => exact inv_faultEntry hinv.memWf hinv.cache (.inl rfl)
  | badOperation _ _ => exact inv_faultEntry hinv.memWf hcache (.inr rfl)
  | executed hpc _ hwf hexec =>
    have hsucc : (fetch s).pc.toNat = s.pc.toNat + 1 := pc_succ_toNat hpc
    have hmfr : t.mfr = 0 := (writesOnly_of_exec hexec hwf).mfr.trans hmfr
    exact {
      memWf := accessClosed_wf.exec hexec hinv.memWf
      cache := accessClosed_cacheInv.exec hexec hcache
      pc := (exec_pcMove hexec).pc_le (by omega) (by omega)
      mfr := .inl hmfr
      faulted := iff_of_false (exec_runState_ne_faulted hwf hexec) (not_not_intro hmfr) }

/-- Settles O3. -/
theorem stepKeepsTheInvariants : Obligations.StepKeepsTheInvariants :=
  fun _ _ => inv_step

/-! So does every host session (R415, R417). -/

theorem loadRecords_cons_inRange {addr : Nat} (w : Word) (rest : List (Nat × Word)) (s : State) (h : addr < 2048) :
    loadRecords ((addr, w) :: rest) s = loadRecords rest (deposit (BitVec.ofNat 11 addr) w s) := by
  rw [loadRecords, hostLoad_inRange w s h]

theorem loadRecords_cons_outOfRange {addr : Nat} (w : Word) (rest : List (Nat × Word)) (s : State)
    (h : 2048 ≤ addr) : loadRecords ((addr, w) :: rest) s = none := by
  rw [loadRecords, hostLoad_outOfRange w s h]

/-- What every host load keeps, the loads of an IPL keep. -/
theorem loadRecords_keeps {P : State → Prop} (hP : ∀ a w s, P s → P (deposit a w s)) {records : List (Nat × Word)}
    {s t : State} (h : loadRecords records s = some t) (hs : P s) : P t := by
  induction records generalizing s with
  | nil => cases h; exact hs
  | cons e rest ih =>
    obtain ⟨addr, w⟩ := e
    by_cases haddr : addr < 2048
    · rw [loadRecords_cons_inRange w rest s haddr] at h
      exact ih h (hP _ w s hs)
    · cases (loadRecords_cons_outOfRange w rest s (not_lt.mp haddr)).symm.trans h

theorem inv_deposit (a : Addr) (w : Word) (s : State) (h : Inv s) : Inv (deposit a w s) :=
  { h with
    memWf := wf_setWord a w h.memWf
    cache := cacheInv_afterLoad a w h.cache }

theorem inv_hostLoad {addr : Nat} {w : Word} {s t : State} (h : hostLoad addr w s = some t) (hinv : Inv s) : Inv t := by
  by_cases haddr : addr < 2048
  · cases (hostLoad_inRange w s haddr).symm.trans h
    exact inv_deposit _ w s hinv
  · cases (hostLoad_outOfRange w s (not_lt.mp haddr)).symm.trans h

theorem inv_hostIpl {records : List (Nat × Word)} {s t : State} (h : hostIpl records s = some t) (hinv : Inv s) :
    Inv t := by
  cases records with
  | nil => cases h; exact hinv
  | cons e rest =>
    cases hload : loadRecords (e :: rest) s with
    | none => simp [hostIpl, hload] at h
    | some u =>
      simp only [hostIpl, hload, Option.some.injEq] at h
      subst h
      exact { loadRecords_keeps inv_deposit hload hinv with pc := (addrPc_toNat_lt _).le }

theorem inv_hostStep {s : State} (h : Inv s) : Inv (hostStep s).2 := by
  cases hstep : step s with
  | next t =>
    rw [hostStep_next hstep]
    exact inv_step h hstep
  | refused r =>
    rw [hostStep_refused hstep]
    exact h
  | fault r => exact nomatch r

theorem inv_getD {s : State} (h : Inv s) {o : Option State} (ho : ∀ t, o = some t → Inv t) : Inv (o.getD s) := by
  cases o with
  | none => exact h
  | some t => exact ho t rfl

theorem inv_applyHost {s : State} (op : HostOp) (h : Inv s) : Inv (applyHost op s) := by
  cases op with
  | reset => exact inv_hostReset s
  | step => exact inv_hostStep h
  | load addr w => exact inv_getD h fun _ ht => inv_hostLoad ht h
  | ipl records => exact inv_getD h fun _ ht => inv_hostIpl ht h
  | submitKeyboard _ | takePrinter | preloadFile _ => exact { h with }
  | inspect _ | cacheView | observe => exact h

/-- Settles O4, by induction on the session's operations. -/
theorem hostSessionsKeepTheInvariants : Obligations.HostSessionsKeepTheInvariants := by
  intro ops
  induction ops with
  | nil => exact fun _ h => h
  | cons op rest ih => exact fun s h => ih _ (inv_applyHost op h)

/-! A WAITING block (R349, R461 item 5). -/

/-- An instruction that ends WAITING is an IN whose device was not ready. -/
theorem exec_waiting {i : Instr} {s t : State} (hwf : i.wellFormed = true) (h : exec i s = .next t)
    (hwait : t.runState = .waiting) :
    ∃ r dev d, i = .inp r dev ∧ s.dev.devIn dev = (.notReady, d) ∧
      t = { s with dev := d, pc := s.pc - 1, runState := .waiting } := by
  by_cases hhlt : i = .hlt
  · subst hhlt
    cases h
    cases hwait
  by_cases hin : ∀ r dev, i = .inp r dev → (s.dev.devIn dev).1 ≠ .notReady
  · obtain ⟨u, hu⟩ := exec_completes hwf hhlt hin
    cases hu.symm.trans h
    cases hwait
  · push Not at hin
    obtain ⟨r, dev, rfl, hd⟩ := hin
    have hd : s.dev.devIn dev = (.notReady, (s.dev.devIn dev).2) := Prod.ext hd rfl
    cases (exec_inp_notReady hd).symm.trans h
    exact ⟨r, dev, _, rfl, hd, rfl⟩

/-- The file reader always answers, and the keyboard answers while it holds a word (R345, R347). -/
theorem devIn_notReady {d d' : Devices} {dev : DevNum} (h : d.devIn dev = (.notReady, d')) :
    dev ≠ 2 ∧ (dev = 0 → d'.keyboard = []) := by
  refine ⟨?file, ?keyboard⟩
  case file =>
    rintro rfl
    cases hq : d.fileReader with
    | nil => cases (devIn_file_nil hq).symm.trans h
    | cons v rest => cases (devIn_file_cons hq).symm.trans h
  case keyboard =>
    rintro rfl
    cases hq : d.keyboard with
    | nil => cases (devIn_keyboard_nil hq).symm.trans h; exact hq
    | cons v rest => cases (devIn_keyboard_cons hq).symm.trans h

/-- Settles O57: the IN that suspends moves PC back to the word it was fetched from. -/
theorem waitingBlockStandsAtAnIn : Obligations.WaitingBlockStandsAtAnIn := by
  intro s t hinv h hwait
  cases step_cases h with
  | badAddress _ => cases hwait
  | badOperation _ _ => cases hwait
  | executed hpc hd hwf hexec =>
    obtain ⟨r, dev, d, rfl, hdev, ht⟩ := exec_waiting hwf hexec hwait
    have hback : t.pc = s.pc := ht ▸ pc_succ_pred s.pc
    have hword : t.mem.word (pcAddr t.pc) = (fetch s).ir := by
      rw [hback, fetch_word hinv.cache.coherent, ht, fetch_mem]
    exact ⟨hback, hback ▸ hpc, r, dev, hword ▸ hd, ht ▸ devIn_notReady hdev⟩

end Sys2Proof.Proofs
end

section
/-! PROOFS (spec/70_reset_and_hazards.md R452, R453): IPL. The loads write the memory words of their addresses; on the
empty cache of a fresh machine they write nothing else. -/

namespace Sys2Proof.Proofs

open Sys2Proof Sys2Proof.Machine Sys2Proof.Laws

theorem ofNat_toNat_of_lt {addr : Nat} (h : addr < 2048) : (BitVec.ofNat 11 addr).toNat = addr := by
  rw [BitVec.toNat_ofNat, Nat.mod_eq_of_lt h]

/-- Records of distinct addresses in range all load: each address holds its word, every other its old one. -/
theorem loadRecords_image {records : List (Nat × Word)} (hdistinct : (records.map Prod.fst).Nodup)
    (hrange : ∀ e ∈ records, e.1 < 2048) (s : State) :
    ∃ t, loadRecords records s = some t ∧ (∀ e ∈ records, t.mem.word (BitVec.ofNat 11 e.1) = e.2) ∧
      ∀ a : Addr, a.toNat ∉ records.map Prod.fst → t.mem.word a = s.mem.word a := by
  induction records generalizing s with
  | nil => exact ⟨s, rfl, nofun, fun _ _ => rfl⟩
  | cons e rest ih =>
    obtain ⟨addr, w⟩ := e
    obtain ⟨hnew, hdistinct⟩ := List.nodup_cons.mp hdistinct
    obtain ⟨haddr, hrange⟩ := List.forall_mem_cons.mp hrange
    obtain ⟨t, ht, himage, hother⟩ := ih hdistinct hrange (deposit (BitVec.ofNat 11 addr) w s)
    refine ⟨t, (loadRecords_cons_inRange w rest s haddr).trans ht, List.forall_mem_cons.mpr ⟨?_, himage⟩, ?_⟩
    · rw [hother _ (by rwa [ofNat_toNat_of_lt haddr])]
      exact word_setWord_same _ _ _
    · intro a ha
      obtain ⟨hne, ha⟩ := not_or.mp (List.mem_cons.not.mp ha)
      rw [hother a ha]
      refine word_setWord_other _ _ fun haa => hne ?_
      rw [haa, ofNat_toNat_of_lt haddr]

/-- The empty cache has no line for a load to update. -/
theorem afterLoad_cacheReset (a : Addr) (w : Word) : Cache.reset.afterLoad a w = Cache.reset :=
  afterLoad_miss w (hit_none.mpr fun k hv => by simp [line_reset] at hv)

/-- Loads into a fresh machine write memory alone. -/
theorem deposit_reset_frame (a : Addr) (w : Word) (s : State) (h : s = { State.reset with mem := s.mem }) :
    deposit a w s = { State.reset with mem := (deposit a w s).mem } := by
  rw [h, deposit]
  simp only [State.reset, afterLoad_cacheReset]

theorem loadRecords_outOfRange {records : List (Nat × Word)} (h : ∃ e ∈ records, 2048 ≤ e.1) (s : State) :
    loadRecords records s = none := by
  induction records generalizing s with
  | nil => simp at h
  | cons e rest ih =>
    obtain ⟨addr, w⟩ := e
    by_cases haddr : addr < 2048
    · have hrest : ∃ e ∈ rest, 2048 ≤ e.1 := by simpa [not_le.mpr haddr] using h
      exact (loadRecords_cons_inRange w rest s haddr).trans (ih hrest _)
    · exact loadRecords_cons_outOfRange w rest s (not_lt.mp haddr)

/-- An IPL is the loads, then PC at the first record (R452). -/
theorem hostIpl_cons (addr : Nat) (w : Word) (rest : List (Nat × Word)) (s : State) :
    hostIpl ((addr, w) :: rest) s =
      (loadRecords ((addr, w) :: rest) s).map fun t => { t with pc := addrPc (BitVec.ofNat 11 addr) } := by
  cases h : loadRecords ((addr, w) :: rest) s <;> simp only [hostIpl, h, Option.map_none, Option.map_some]

/-- Settles O59: the image by induction on the records, the frame because a fresh machine's cache is empty. -/
theorem iplLoadsTheImage : Obligations.IplLoadsTheImage := by
  refine ⟨fun a0 w0 rest hdistinct hrange => ?image, fun records s h => ?refused, fun _ => rfl⟩
  case image =>
    obtain ⟨t, ht, himage, hother⟩ := loadRecords_image hdistinct hrange State.reset
    have hframe : t = { State.reset with mem := t.mem } :=
      loadRecords_keeps (P := fun u => u = { State.reset with mem := u.mem }) deposit_reset_frame ht rfl
    refine ⟨{ t with pc := addrPc (BitVec.ofNat 11 a0) }, by rw [hostIpl_cons, ht, Option.map_some], ?_, himage,
      fun a ha => (hother a ha).trans (word_nil a), ?_⟩
    · rw [addrPc_toNat, ofNat_toNat_of_lt (hrange _ (.head _))]
    · rw [hframe]
  case refused =>
    obtain _ | ⟨⟨addr, w⟩, rest⟩ := records
    · simp at h
    · rw [hostIpl_cons, loadRecords_outOfRange h, Option.map_none]

end Sys2Proof.Proofs
end
